-- ==== Sys2Proof/Word.lean ====
section
/-! DEFINITION. The words of the block: the 32-bit bus and command word, the 256-bit field register,
the 512-bit scalar register (00_scope.md R8, R10; 20_memory.md R77). -/

namespace Sys2Proof

/-- One bus word, and one command word (20_memory.md R77; 30_encoding.md R100). -/
abbrev Word := BitVec 32

/-- The contents of a field register, a coordinate or a curve-parameter register (00_scope.md R8). -/
abbrev Word256 := BitVec 256

/-- The contents of a scalar register (00_scope.md R10). -/
abbrev Word512 := BitVec 512

end Sys2Proof
end

