-- ==== Sys2Proof/Config.lean ====
section
/-! DEFINITION. What an instance of the block fixes (00_scope.md R12), and the free values, which the spec leaves
to "any value" (93_implementation_defined.md Part 1). -/

namespace Sys2Proof

/-- The configuration `CURVE`, as the seven read-only curve-parameter registers hold it
(10_state.md R36; 42_curve.md R151): y² = x³ + a·x + b over the integers mod p, `a` held as `a mod p`. -/
structure Curve where
  p  : Word256
  a  : Word256
  b  : Word256
  n  : Word256
  gx : Word256
  gy : Word256
  h  : Word256
deriving DecidableEq, Repr

/-- Whether VSMUL may report a detected hardware fault (45_verified.md R233). -/
inductive FaultModel where
  | none
  | detectAny
deriving DecidableEq, Repr

/-- Which invalid words a command may not read. The spec's model ends a command that reads any of them in `fault UninitOperand`
(10_state.md R62; 60_exceptions.md R278), the rule `modelFault`. Under `resetValues` a word that nothing has written since reset is
read at the value the register holds at reset, as the task of this model and Host/Core.lean ask, and the fault is that of a word
that an abort has made invalid (70_reset_and_hazards.md R314). DESIGN CHOICE, log 4. -/
inductive UninitRule where
  | modelFault
  | resetValues
deriving DecidableEq, Repr

/-- The parameters of one instance of the block (00_scope.md R12). `base` is the byte address `BASE` (20_memory.md R70). -/
structure Params where
  curve       : Curve
  verifyReset : Bool
  faultModel  : FaultModel
  uninit      : UninitRule
  base        : Nat
deriving DecidableEq, Repr

namespace Config

/-- `ID_VALUE` (10_state.md R44). -/
def idValue : Word := 0x57430001#32

/-- The window is 2 KiB (20_memory.md R70). -/
def windowBytes : Nat := 0x800

/-- The default `CURVE`, NIST P-256 (42_curve.md R150). -/
def p256 : Curve where
  p  := 0xFFFFFFFF00000001000000000000000000000000FFFFFFFFFFFFFFFFFFFFFFFF#256
  a  := 0xFFFFFFFF00000001000000000000000000000000FFFFFFFFFFFFFFFFFFFFFFFC#256
  b  := 0x5AC635D8AA3A93E7B3EBBD55769886BC651D06B0CC53B0F63BCE3C3E27D2604B#256
  n  := 0xFFFFFFFF00000000FFFFFFFFFFFFFFFFBCE6FAADA7179E84F3B9CAC2FC632551#256
  gx := 0x6B17D1F2E12C4247F8BCE6E563A440F277037D812DEB33A0F4A13945D898C296#256
  gy := 0x4FE342E2FE1A7F9B8EE7EB4A7C0F9E162BCE33576B315ECECBB6406837BF51F5#256
  h  := 1#256

/-- The `reference_curve()` instance (42_curve.md R155; 00_scope.md R12). DESIGN CHOICE: `base = 0` stands for the OPEN
parameter `BASE` (log 3), and `uninit = resetValues` (log 4). -/
def reference : Params where
  curve       := p256
  verifyReset := false
  faultModel  := .none
  uninit      := .resetValues
  base        := 0

/-- The same instance under the spec's model rule for invalid words (10_state.md R62; 93_implementation_defined.md U2): every
command that reads one ends in `fault UninitOperand`. -/
def referenceUnderModelRule : Params := { reference with uninit := .modelFault }

/-- The `reference_curve_with_integrity_check()` instance (42_curve.md R155): only the reset value of CTRL.VERIFY differs. -/
def referenceWithIntegrityCheck : Params := { reference with verifyReset := true }

/-- Free value: the word a host reads where the spec says "any 32-bit value (a draw)"
(10_state.md R62; 20_memory.md R79), at the draw counter. Log 6. -/
opaque freeWord : Nat → Word

/-- Free value: the unspecified content of an aborted destination (70_reset_and_hazards.md R314), at the draw counter. Log 8. -/
opaque freeField : Nat → Word256

/-- Free value: whether a fault is detected under `FAULT_MODEL = detect_any` (45_verified.md R233), at the draw
counter. Log 7. -/
opaque faultDraw : Nat → Bool

end Config
end Sys2Proof
end

