-- ==== Sys2Proof/Machine/Arith.lean ====
section
/-! DEFINITION. Integers mod p (00_scope.md R14, R17; 41_field.md). Every value is a mathematical integer, and `%` by the
modulus is the floor remainder of R14. -/

namespace Sys2Proof

/-- `p`, `a`, `b`, `n`, `h`, `Gx`, `Gy` as integers (42_curve.md R150). -/
def Curve.pI (c : Curve) : Int := (c.p.toNat : Int)
def Curve.aI (c : Curve) : Int := (c.a.toNat : Int)
def Curve.bI (c : Curve) : Int := (c.b.toNat : Int)
def Curve.nI (c : Curve) : Int := (c.n.toNat : Int)
def Curve.hI (c : Curve) : Int := (c.h.toNat : Int)
def Curve.gxI (c : Curve) : Int := (c.gx.toNat : Int)
def Curve.gyI (c : Curve) : Int := (c.gy.toNat : Int)

/-- `red(v) = v mod p` (00_scope.md R17). -/
def Curve.red (c : Curve) (v : Int) : Int := v % c.pI

/-- `bitlen(k)`: the number of bits without leading zeros, `bitlen(0) = 0` (00_scope.md R14). -/
def bitlen (k : Nat) : Nat := if k = 0 then 0 else Nat.log2 k + 1

/-- Square and multiply over the bits `i-1` down to 0 of `e`. -/
def Curve.powLoop (c : Curve) (x : Int) (e : Nat) : Nat → Int → Int
  | 0, acc => acc
  | i + 1, acc =>
    let sq := acc * acc % c.pI
    c.powLoop x e i (if e.testBit i then sq * x % c.pI else sq)

/-- `x^e mod p`, in a form that can be evaluated; `powMod_eq` in Laws/Arith.lean says it is that power. -/
def Curve.powMod (c : Curve) (x : Int) (e : Nat) : Int := c.powLoop x e (bitlen e) (1 % c.pI)

/-- `inv_p(x) = x^(p-2) mod p` (00_scope.md R17; 41_field.md R136). -/
def Curve.invP (c : Curve) (x : Int) : Int := c.powMod x (c.p.toNat - 2)

/-- The Montgomery radix `R = 2^256` (00_scope.md R11). -/
def radix : Int := 0x10000000000000000000000000000000000000000000000000000000000000000

/-- FADD's value (41_field.md R131). -/
def Curve.addF (c : Curve) (x y : Int) : Int := (c.red x + c.red y) % c.pI

/-- FSUB's value (41_field.md R132). -/
def Curve.subF (c : Curve) (x y : Int) : Int := (c.red x - c.red y) % c.pI

/-- FMUL's value (41_field.md R134). -/
def Curve.mulF (c : Curve) (x y : Int) : Int := (c.red x * c.red y) % c.pI

/-- FMONT's value (41_field.md R133). -/
def Curve.montF (c : Curve) (x y : Int) : Int := (c.red x * c.red y * c.invP (radix % c.pI)) % c.pI

/-- `sqrt_p(x)` for `x` in `[0, p)`: the candidate `x^((p+1)/4) mod p`, none (NoSquareRoot) where its square is not `x`
(41_field.md R137). -/
def Curve.sqrtP (c : Curve) (x : Int) : Option Int :=
  let r := c.powMod x ((c.p.toNat + 1) / 4)
  if r * r % c.pI = x then some r else none

/-- The y DECOMP takes from the root `r` and the bit (46_codec.md R248). -/
def Curve.pickRoot (c : Curve) (r : Int) (bit : Bool) : Int :=
  if r % 2 = (if bit then 1 else 0) then r else (c.pI - r) % c.pI

end Sys2Proof
end

