-- ==== Sys2Proof/Machine/GroupLaw.lean ====
section
/-! DEFINITION. The Jacobian group law (43_point.md R170 to R179). Every coordinate is an integer, reduced where the rule
reduces it. -/

namespace Sys2Proof

/-- A Jacobian triple (00_scope.md R21). -/
structure Triple where
  x : Int
  y : Int
  z : Int
deriving DecidableEq, Repr

/-- The canonical identity (43_point.md R170). -/
def oCan : Triple := ⟨1, 1, 0⟩

/-- The generator `(Gx, Gy, 1)` (42_curve.md R156). -/
def Curve.gen (c : Curve) : Triple := ⟨c.gxI, c.gyI, 1⟩

/-- `is_id(T)` (43_point.md R171). -/
def Curve.isId (c : Curve) (T : Triple) : Bool := decide (T.z % c.pI = 0)

/-- `red3(T)`: how a point register is read (43_point.md R172). -/
def Curve.red3 (c : Curve) (T : Triple) : Triple :=
  if c.isId T then oCan else ⟨T.x % c.pI, T.y % c.pI, T.z % c.pI⟩

/-- `neg(T)` (43_point.md R174). -/
def Curve.neg (c : Curve) (T : Triple) : Triple :=
  if c.isId T then oCan else ⟨T.x, (c.pI - T.y) % c.pI, T.z⟩

/-- `dbl(T)` (43_point.md R175). -/
def Curve.dbl (c : Curve) (T : Triple) : Triple :=
  if c.isId T then oCan
  else
    let s := 4 * T.x * (T.y * T.y) % c.pI
    let m := (3 * (T.x * T.x) + c.aI * (T.z * T.z * T.z * T.z)) % c.pI
    let x3 := (m * m - 2 * s) % c.pI
    let y3 := (m * (s - x3) - 8 * (T.y * T.y * T.y * T.y)) % c.pI
    let z3 := 2 * T.y * T.z % c.pI
    if z3 = 0 then oCan else ⟨x3, y3, z3⟩

/-- `eq(T1, T2)` (43_point.md R177). -/
def Curve.eqPt (c : Curve) (T U : Triple) : Bool :=
  if c.isId T || c.isId U then c.isId T && c.isId U
  else decide ((T.x * (U.z * U.z) - U.x * (T.z * T.z)) % c.pI = 0)
    && decide ((T.y * (U.z * U.z * U.z) - U.y * (T.z * T.z * T.z)) % c.pI = 0)

/-- Step 4 of `add`: the general Jacobian addition (43_point.md R176). -/
def Curve.addGeneral (c : Curve) (T U : Triple) : Triple :=
  let u1 := T.x * (U.z * U.z) % c.pI
  let u2 := U.x * (T.z * T.z) % c.pI
  let s1 := T.y * (U.z * U.z * U.z) % c.pI
  let s2 := U.y * (T.z * T.z * T.z) % c.pI
  let h := (u2 - u1) % c.pI
  let r := (s2 - s1) % c.pI
  let x3 := (r * r - h * h * h - 2 * u1 * (h * h)) % c.pI
  let y3 := (r * (u1 * (h * h) - x3) - s1 * (h * h * h)) % c.pI
  let z3 := h * T.z * U.z % c.pI
  if z3 = 0 then oCan else ⟨x3, y3, z3⟩

/-- `add(T1, T2)`, in the four steps of 43_point.md R176. -/
def Curve.add (c : Curve) (T U : Triple) : Triple :=
  if c.isId T then U
  else if c.isId U then T
  else if c.eqPt T U then c.dbl T
  else if c.eqPt T (c.neg U) then oCan
  else c.addGeneral T U

/-- The right side of the curve equation, `x³ + a·x + b mod p` (46_codec.md R248). -/
def Curve.rhs (c : Curve) (x : Int) : Int := (x * x * x + c.aI * x + c.bI) % c.pI

/-- `on_curve(T)` (43_point.md R178). -/
def Curve.onCurve (c : Curve) (T : Triple) : Bool :=
  if c.isId T then true
  else
    let z2 := T.z * T.z
    decide ((T.y * T.y - (T.x * T.x * T.x + c.aI * T.x * (z2 * z2) + c.bI * (z2 * z2 * z2))) % c.pI = 0)

/-- `affine(T)` for finite `T` (43_point.md R179). -/
def Curve.affine (c : Curve) (T : Triple) : Int × Int :=
  let zi := c.invP T.z
  let zi2 := zi * zi % c.pI
  let zi3 := zi2 * zi % c.pI
  (T.x * zi2 % c.pI, T.y * zi3 % c.pI)

end Sys2Proof
end

