-- ==== Sys2Proof/Machine/Multiply.lean ====
section
/-! DEFINITION. Scalar reduction and the two double-and-add paths (44_scalar.md R211, R213; 45_verified.md R231). -/

namespace Sys2Proof

/-- `k = sval_512(S) mod n` (44_scalar.md R211). -/
def Curve.redScalar (c : Curve) (v : Int) : Nat := (v % c.nI).toNat

/-- The loop of `mul_ltr`, bits `i-1` down to 0 (44_scalar.md R213). -/
def Curve.ltrLoop (c : Curve) (k : Nat) (T : Triple) : Nat → Triple → Triple
  | 0, A => A
  | i + 1, A =>
    let D := c.dbl A
    c.ltrLoop k T i (if k.testBit i then c.add D T else D)

/-- `mul_ltr(k, T)`: most significant bit first, from `O_CAN` (44_scalar.md R213). -/
def Curve.mulLtr (c : Curve) (k : Nat) (T : Triple) : Triple := c.ltrLoop k T (bitlen k) oCan

/-- The loop of `mul_rtl`, `m` iterations from bit `i` up (45_verified.md R231). -/
def Curve.rtlLoop (c : Curve) (k : Nat) : Nat → Nat → Triple → Triple → Triple
  | 0, _, A, _ => A
  | m + 1, i, A, Q => c.rtlLoop k m (i + 1) (if k.testBit i then c.add A Q else A) (c.dbl Q)

/-- `mul_rtl(k, T)`: least significant bit first (45_verified.md R231). -/
def Curve.mulRtl (c : Curve) (k : Nat) (T : Triple) : Triple := c.rtlLoop k (bitlen k) 0 oCan T

end Sys2Proof
end

