-- ==== Sys2Proof/Machine/Admission.lean ====
section
/-! DEFINITION. The admission of a configuration: the construction-time checks (00_scope.md R13; 42_curve.md R152). -/

namespace Sys2Proof

/-- The construction-time checks of `CURVE`, and that the registers hold `a mod p` and `b mod p` (42_curve.md R151, R152). The
two primality checks come last, since they are the long ones; `n < 2^256` and `p < 2^256` hold by the registers' width. -/
def Curve.checks (c : Curve) : Bool :=
  decide (3 < c.p.toNat) && decide (c.p.toNat % 4 = 3)
    && decide (c.gxI < c.pI) && decide (c.gyI < c.pI) && decide (c.aI < c.pI) && decide (c.bI < c.pI)
    && decide ((c.gyI * c.gyI - (c.gxI * c.gxI * c.gxI + c.aI * c.gxI + c.bI)) % c.pI = 0)
    && decide ((4 * (c.aI * c.aI * c.aI) + 27 * (c.bI * c.bI)) % c.pI ≠ 0)
    && decide ((c.hI * c.nI - (c.pI + 1)) * (c.hI * c.nI - (c.pI + 1)) ≤ 4 * c.pI)
    && c.isId (c.mulLtr c.n.toNat c.gen)
    && decide c.p.toNat.Prime && decide c.n.toNat.Prime

/-- Whether a configuration is an instance of the hardware (00_scope.md R13): its curve passes the checks, and its base is a
multiple of 0x800 (20_memory.md R70). The default curve, which passes them (42_curve.md R152), is recognised without making
them again; `admitted_iff` in Laws/Curve.lean says that this is `Params.Admitted`. -/
def Params.admitted (P : Params) : Bool :=
  (decide (P.curve = Config.p256) || P.curve.checks) && decide (P.base % Config.windowBytes = 0)

end Sys2Proof
end

