-- ==== Sys2Proof/Syntax.lean ====
section
/-! DEFINITION. The commands of the opcode map (30_encoding.md R104), one constructor a row, operands in the order the
syntax column of R104 writes them. -/

namespace Sys2Proof

/-- A field register index F0-F15, a point register index P0-P7, a scalar register index S0-S3 (30_encoding.md R102). -/
abbrev FIdx := Fin 16
abbrev PIdx := Fin 8
abbrev SIdx := Fin 4

/-- One command (30_encoding.md R104). -/
inductive Instr where
  | nop
  | fadd   (d a b : FIdx)
  | fsub   (d a b : FIdx)
  | fmul   (d a b : FIdx)
  | fmont  (d a b : FIdx)
  | finv   (d a : FIdx)
  | fsqrt  (d a : FIdx)
  | pldg   (d : PIdx)
  | pldo   (d : PIdx)
  | pset   (d : PIdx) (x y z : FIdx)
  | pget   (x y z : FIdx) (a : PIdx)
  | pneg   (d a : PIdx)
  | padd   (d a b : PIdx)
  | pdbl   (d a : PIdx)
  | peq    (a b : PIdx)
  | ptst   (a : PIdx)
  | pval   (a : PIdx)
  | toaff  (d a : PIdx)
  | smul   (d : PIdx) (k : SIdx) (a : PIdx)
  | vsmul  (d : PIdx) (k : SIdx) (a : PIdx)
  | cbit   (d : FIdx) (a : PIdx)
  | decomp (d : PIdx) (x b : FIdx)
deriving DecidableEq, Repr

/-- The opcodes of the map, one for each mnemonic (30_encoding.md R104). -/
inductive Op where
  | nop | fadd | fsub | fmul | fmont | finv | fsqrt | pldg | pldo | pset | pget | pneg | padd | pdbl | peq | ptst | pval
  | toaff | smul | vsmul | cbit | decomp
deriving DecidableEq, Repr

/-- The kind of an operand field (30_encoding.md R102): a field, point or scalar register, or unused. -/
inductive Kind where
  | F | P | S | unused
deriving DecidableEq, Repr

/-- The classes of illegal words; `info` in Machine/Flags.lean gives each its ERRINFO (30_encoding.md R106). -/
inductive IllegalClass where
  /-- An unassigned opcode. -/
  | unassigned
  /-- A nonzero bit in `w[7:0]` or in an unused field. -/
  | reservedBits
  /-- A P index above 7 or an S index above 3. -/
  | indexRange
  /-- PGET with two equal destinations. -/
  | duplicate
deriving DecidableEq, Repr

end Sys2Proof
end

