-- ==== Sys2Proof/WellFormed.lean ====
section
/-! DEFINITION. What a command must satisfy beyond its operands' index ranges, which the types of Syntax.lean carry. -/

namespace Sys2Proof

/-- The one check the operand types do not make: PGET's three destinations are pairwise different
(43_point.md R181; the last check of 30_encoding.md R105). -/
def Instr.wf : Instr → Bool
  | .nop => true
  | .fadd _ _ _ => true
  | .fsub _ _ _ => true
  | .fmul _ _ _ => true
  | .fmont _ _ _ => true
  | .finv _ _ => true
  | .fsqrt _ _ => true
  | .pldg _ => true
  | .pldo _ => true
  | .pset _ _ _ _ => true
  | .pget x y z _ => x != y && x != z && y != z
  | .pneg _ _ => true
  | .padd _ _ _ => true
  | .pdbl _ _ => true
  | .peq _ _ => true
  | .ptst _ => true
  | .pval _ => true
  | .toaff _ _ => true
  | .smul _ _ _ => true
  | .vsmul _ _ _ => true
  | .cbit _ _ => true
  | .decomp _ _ _ => true

end Sys2Proof
end

