-- ==== Sys2Proof/Decode.lean ====
section
/-! DEFINITION. Decoding a command word, in the order of checks of 30_encoding.md R105, and encoding a command
(R101). -/

namespace Sys2Proof

/-- The opcode column of 30_encoding.md R104. -/
def Op.code : Op → Nat
  | .nop => 0x00
  | .fadd => 0x10
  | .fsub => 0x11
  | .fmul => 0x12
  | .fmont => 0x13
  | .finv => 0x14
  | .fsqrt => 0x15
  | .pldg => 0x20
  | .pldo => 0x21
  | .pset => 0x30
  | .pget => 0x31
  | .pneg => 0x32
  | .padd => 0x33
  | .pdbl => 0x34
  | .peq => 0x35
  | .ptst => 0x36
  | .pval => 0x37
  | .toaff => 0x38
  | .smul => 0x40
  | .vsmul => 0x41
  | .cbit => 0x50
  | .decomp => 0x51

/-- Every row of the opcode map. -/
def Op.all : List Op :=
  [.nop, .fadd, .fsub, .fmul, .fmont, .finv, .fsqrt, .pldg, .pldo, .pset, .pget, .pneg, .padd, .pdbl, .peq, .ptst, .pval,
   .toaff, .smul, .vsmul, .cbit, .decomp]

/-- The row of an opcode, none where the opcode is unassigned (30_encoding.md R104, R107). -/
def Op.ofCode (c : Nat) : Option Op := Op.all.find? (fun o => o.code == c)

/-- The kinds of `rd`, `ra`, `rb`, `rc` (30_encoding.md R104). -/
structure Kinds where
  rd : Kind
  ra : Kind
  rb : Kind
  rc : Kind
deriving DecidableEq, Repr

/-- The kind columns of 30_encoding.md R104. -/
def Op.kinds : Op → Kinds
  | .nop => ⟨.unused, .unused, .unused, .unused⟩
  | .fadd => ⟨.F, .F, .F, .unused⟩
  | .fsub => ⟨.F, .F, .F, .unused⟩
  | .fmul => ⟨.F, .F, .F, .unused⟩
  | .fmont => ⟨.F, .F, .F, .unused⟩
  | .finv => ⟨.F, .F, .unused, .unused⟩
  | .fsqrt => ⟨.F, .F, .unused, .unused⟩
  | .pldg => ⟨.P, .unused, .unused, .unused⟩
  | .pldo => ⟨.P, .unused, .unused, .unused⟩
  | .pset => ⟨.P, .F, .F, .F⟩
  | .pget => ⟨.P, .F, .F, .F⟩
  | .pneg => ⟨.P, .P, .unused, .unused⟩
  | .padd => ⟨.P, .P, .P, .unused⟩
  | .pdbl => ⟨.P, .P, .unused, .unused⟩
  | .peq => ⟨.unused, .P, .P, .unused⟩
  | .ptst => ⟨.unused, .P, .unused, .unused⟩
  | .pval => ⟨.unused, .P, .unused, .unused⟩
  | .toaff => ⟨.P, .P, .unused, .unused⟩
  | .smul => ⟨.P, .S, .P, .unused⟩
  | .vsmul => ⟨.P, .S, .P, .unused⟩
  | .cbit => ⟨.F, .P, .unused, .unused⟩
  | .decomp => ⟨.P, .F, .F, .unused⟩

/-- The four 4-bit operand fields of a word (30_encoding.md R101). -/
structure Fields where
  rd : Nat
  ra : Nat
  rb : Nat
  rc : Nat
deriving DecidableEq, Repr

/-- `w[lo+len-1 : lo]` as an unsigned integer (00_scope.md R15). -/
def bits (w : Word) (lo len : Nat) : Nat := w.toNat / 2 ^ lo % 2 ^ len

/-- `opcode = w[31:24]` (30_encoding.md R101). -/
def opcodeField (w : Word) : Nat := bits w 24 8

/-- `zero = w[7:0]` (30_encoding.md R101). -/
def zeroField (w : Word) : Nat := bits w 0 8

/-- `rd = w[23:20]`, `ra = w[19:16]`, `rb = w[15:12]`, `rc = w[11:8]` (30_encoding.md R101). -/
def fieldsOf (w : Word) : Fields := ⟨bits w 20 4, bits w 16 4, bits w 12 4, bits w 8 4⟩

/-- An unused field must be 0 (30_encoding.md R105). -/
def Kind.unusedOk (k : Kind) (f : Nat) : Bool :=
  match k with
  | .unused => f == 0
  | .F => true
  | .P => true
  | .S => true

/-- A P index is at most 7 and an S index at most 3 (30_encoding.md R105). -/
def Kind.rangeOk (k : Kind) (f : Nat) : Bool :=
  match k with
  | .P => f ≤ 7
  | .S => f ≤ 3
  | .F => true
  | .unused => true

/-- All four fields pass a per-field check. -/
def Kinds.all (ks : Kinds) (ok : Kind → Nat → Bool) (f : Fields) : Bool :=
  ok ks.rd f.rd && ok ks.ra f.ra && ok ks.rb f.rb && ok ks.rc f.rc

/-- PGET's three destinations are pairwise different (30_encoding.md R105, last check). -/
def Op.distinctOk (o : Op) (f : Fields) : Bool :=
  o != .pget || (f.ra != f.rb && f.ra != f.rc && f.rb != f.rc)

/-- The command an opcode and its in-range fields stand for (30_encoding.md R104; PGET's source is in `rd`). -/
def Op.build (o : Op) (f : Fields) : Instr :=
  let fr (n : Nat) : FIdx := Fin.ofNat 16 n
  let pr (n : Nat) : PIdx := Fin.ofNat 8 n
  let sr (n : Nat) : SIdx := Fin.ofNat 4 n
  match o with
  | .nop => .nop
  | .fadd => .fadd (fr f.rd) (fr f.ra) (fr f.rb)
  | .fsub => .fsub (fr f.rd) (fr f.ra) (fr f.rb)
  | .fmul => .fmul (fr f.rd) (fr f.ra) (fr f.rb)
  | .fmont => .fmont (fr f.rd) (fr f.ra) (fr f.rb)
  | .finv => .finv (fr f.rd) (fr f.ra)
  | .fsqrt => .fsqrt (fr f.rd) (fr f.ra)
  | .pldg => .pldg (pr f.rd)
  | .pldo => .pldo (pr f.rd)
  | .pset => .pset (pr f.rd) (fr f.ra) (fr f.rb) (fr f.rc)
  | .pget => .pget (fr f.ra) (fr f.rb) (fr f.rc) (pr f.rd)
  | .pneg => .pneg (pr f.rd) (pr f.ra)
  | .padd => .padd (pr f.rd) (pr f.ra) (pr f.rb)
  | .pdbl => .pdbl (pr f.rd) (pr f.ra)
  | .peq => .peq (pr f.ra) (pr f.rb)
  | .ptst => .ptst (pr f.ra)
  | .pval => .pval (pr f.ra)
  | .toaff => .toaff (pr f.rd) (pr f.ra)
  | .smul => .smul (pr f.rd) (sr f.ra) (pr f.rb)
  | .vsmul => .vsmul (pr f.rd) (sr f.ra) (pr f.rb)
  | .cbit => .cbit (fr f.rd) (pr f.ra)
  | .decomp => .decomp (pr f.rd) (fr f.ra) (fr f.rb)

/-- Decoding (30_encoding.md R105), total on every word, the checks in the order written there. -/
def decode (w : Word) : Except IllegalClass Instr :=
  match Op.ofCode (opcodeField w) with
  | none => .error .unassigned
  | some o =>
    if zeroField w ≠ 0 then .error .reservedBits
    else if o.kinds.all Kind.unusedOk (fieldsOf w) = false then .error .reservedBits
    else if o.kinds.all Kind.rangeOk (fieldsOf w) = false then .error .indexRange
    else if o.distinctOk (fieldsOf w) = false then .error .duplicate
    else .ok (o.build (fieldsOf w))

/-- The row of a command. -/
def Instr.op : Instr → Op
  | .nop => .nop
  | .fadd _ _ _ => .fadd
  | .fsub _ _ _ => .fsub
  | .fmul _ _ _ => .fmul
  | .fmont _ _ _ => .fmont
  | .finv _ _ => .finv
  | .fsqrt _ _ => .fsqrt
  | .pldg _ => .pldg
  | .pldo _ => .pldo
  | .pset _ _ _ _ => .pset
  | .pget _ _ _ _ => .pget
  | .pneg _ _ => .pneg
  | .padd _ _ _ => .padd
  | .pdbl _ _ => .pdbl
  | .peq _ _ => .peq
  | .ptst _ => .ptst
  | .pval _ => .pval
  | .toaff _ _ => .toaff
  | .smul _ _ _ => .smul
  | .vsmul _ _ _ => .vsmul
  | .cbit _ _ => .cbit
  | .decomp _ _ _ => .decomp

/-- The operand fields of a command, every unused field 0 (30_encoding.md R104, R109). -/
def Instr.fields : Instr → Fields
  | .nop => ⟨0, 0, 0, 0⟩
  | .fadd d a b => ⟨d, a, b, 0⟩
  | .fsub d a b => ⟨d, a, b, 0⟩
  | .fmul d a b => ⟨d, a, b, 0⟩
  | .fmont d a b => ⟨d, a, b, 0⟩
  | .finv d a => ⟨d, a, 0, 0⟩
  | .fsqrt d a => ⟨d, a, 0, 0⟩
  | .pldg d => ⟨d, 0, 0, 0⟩
  | .pldo d => ⟨d, 0, 0, 0⟩
  | .pset d x y z => ⟨d, x, y, z⟩
  | .pget x y z a => ⟨a, x, y, z⟩
  | .pneg d a => ⟨d, a, 0, 0⟩
  | .padd d a b => ⟨d, a, b, 0⟩
  | .pdbl d a => ⟨d, a, 0, 0⟩
  | .peq a b => ⟨0, a, b, 0⟩
  | .ptst a => ⟨0, a, 0, 0⟩
  | .pval a => ⟨0, a, 0, 0⟩
  | .toaff d a => ⟨d, a, 0, 0⟩
  | .smul d k a => ⟨d, k, a, 0⟩
  | .vsmul d k a => ⟨d, k, a, 0⟩
  | .cbit d a => ⟨d, a, 0, 0⟩
  | .decomp d x b => ⟨d, x, b, 0⟩

/-- `opcode << 24 | rd << 20 | ra << 16 | rb << 12 | rc << 8` (30_encoding.md R101): the five fields and the zero byte, one after
the other. -/
def pack (code : Nat) (f : Fields) : Word :=
  BitVec.ofNat 8 code ++ BitVec.ofNat 4 f.rd ++ BitVec.ofNat 4 f.ra ++ BitVec.ofNat 4 f.rb ++ BitVec.ofNat 4 f.rc ++ 0#8

/-- The command word of a command (30_encoding.md R101, R104). -/
def encode (i : Instr) : Word := pack i.op.code i.fields

/-- The low `nbits` bits of a table word, every higher bit 0. -/
def tableWord (nbits w : Nat) : Word := BitVec.ofNat 32 (w % 2 ^ nbits)

/-- What the decoder reads from the word of an opcode-table row (spec/opcode_table.json; every row has 32 bits). -/
def decodeTableWord (nbits w : Nat) : Option Instr :=
  match decode (tableWord nbits w) with
  | .ok i => some i
  | .error _ => none

end Sys2Proof
end

