-- ==== Sys2Proof/Machine/State.lean ====
section
/-! DEFINITION. The state of the block (10_state.md), the reasons a step can stop, and the state after a hard reset
(10_state.md R65). -/

namespace Sys2Proof.Machine

/-- A register of `w` bits in `k` words of 32 bits: its contents, for each word a validity bit, bit `i` for word `i`
(10_state.md R62; 20_memory.md R73), and for each word whether it is invalid because a soft reset aborted the command that
was to write it (70_reset_and_hazards.md R314). -/
structure Reg (w k : Nat) where
  val     : BitVec w
  valid   : BitVec k
  aborted : BitVec k
deriving DecidableEq, Repr

/-- A field register, and one coordinate of a point register (10_state.md R30, R33). -/
abbrev FReg := Reg 256 8

/-- A scalar register (10_state.md R35). -/
abbrev SReg := Reg 512 16

/-- A point register: one Jacobian triple (10_state.md R33). -/
structure PReg where
  x : FReg
  y : FReg
  z : FReg
deriving DecidableEq, Repr

/-- CTRL (10_state.md R45). Its other bits always read 0. -/
structure Ctrl where
  irqEn  : Bool
  verify : Bool
deriving DecidableEq, Repr

/-- STATUS (10_state.md R47) but for BUSY, which is 1 exactly while the in-flight latch is occupied (`State.busy` in
Machine/Flags.lean, log 12). Its other bits always read 0. -/
structure Status where
  done    : Bool
  eqFlag  : Bool
  accErr  : Bool
  err     : BitVec 4
  errInfo : BitVec 4
deriving DecidableEq, Repr

/-- What the in-flight latch holds between accept and complete (10_state.md R55). -/
structure Latch where
  word   : Word
  verify : Bool
deriving DecidableEq, Repr

/-- What happens next at the block (20_memory.md R85; 60_exceptions.md R292; 70_reset_and_hazards.md R310): a host read
or write of `width` bytes at a byte address, the point where the engine completes the command in flight, a hard reset.
Log 1. -/
inductive Event where
  | read (addr width : Nat)
  | write (addr width : Nat) (v : Word)
  | engine
  | hardReset
deriving DecidableEq, Repr

/-- The error a command ends with (00_scope.md R19; 60_exceptions.md R271, R273). -/
inductive CmdError where
  /-- InvalidPoint(1): a finite point fails the curve equation. -/
  | offCurve
  /-- InvalidPoint(2): the identity where a finite point is required. -/
  | identityGiven
  /-- DivisionByZero(0). -/
  | divisionByZero
  /-- NoSquareRoot(0). -/
  | noSquareRoot
  /-- IntegrityCheckFailed(0). -/
  | integrityCheckFailed
  /-- IllegalCommand with the class of the illegal word. -/
  | illegalCommand (c : IllegalClass)
deriving DecidableEq, Repr

/-- The state of the block. `par` holds the parameters of the instance, the seven curve-parameter registers among them,
and no step changes it (log 3). `inbox`, `replies` and `draws` are the model's own (logs 1, 9, 18). -/
structure State where
  par     : Params
  f       : Vector FReg 16
  p       : Vector PReg 8
  sc      : Vector SReg 4
  ctrl    : Ctrl
  cmd     : Word
  status  : Status
  latch   : Option Latch
  inbox   : List Event
  replies : List Word
  draws   : Nat
deriving DecidableEq, Repr

/-- Why a step faults. -/
inductive Fault where
  /-- `fault UninitOperand`: a command read a register with an invalid word (10_state.md R62; 60_exceptions.md R278), any invalid
  word under `UninitRule.modelFault`, a word of an aborted destination under `resetValues`. Raised by every command that reads a
  register. Safe: the hardware goes on. -/
  | uninitOperand
deriving DecidableEq, Repr

/-- Why a step is refused. -/
inductive Refusal where
  /-- The command has no meaning yet. Raised by `exec`'s arms only. Safe. -/
  | notModelled (mnemonic : String)
  /-- A host access that is not an aligned 32-bit word (20_memory.md R77): the bus answers an error and the model refuses
  the access. Raised by `hostRead` and `hostWrite`. Safe: the block goes on unchanged. -/
  | busError
  /-- A host access outside the block's window (20_memory.md R74), the platform's own. Raised by `hostRead` and
  `hostWrite`. Safe: the block does not see it. -/
  | outsideWindow
  /-- The parameters are no instance of the hardware: the curve fails a construction-time check, or the base is no multiple of
  0x800 (00_scope.md R13; 42_curve.md R152; 93_implementation_defined.md U18). Raised by `step`. Safe: there is no such
  hardware. -/
  | configuration
deriving DecidableEq, Repr

/-- How a step ends. -/
abbrev Out := Host.Outcome State Fault Refusal

/-- A register after a hard reset: every word invalid (10_state.md R65), its unspecified content 0 (DESIGN CHOICE, log 5). -/
def Reg.unwritten (w k : Nat) : Reg w k := ⟨0#w, 0#k, 0#k⟩

/-- A point register after a hard reset. -/
def PReg.unwritten : PReg := ⟨Reg.unwritten 256 8, Reg.unwritten 256 8, Reg.unwritten 256 8⟩

/-- An instance right after a hard reset (10_state.md R65), with no event to come. -/
def State.powerOn (par : Params) : State where
  par     := par
  f       := Vector.replicate 16 (Reg.unwritten 256 8)
  p       := Vector.replicate 8 PReg.unwritten
  sc      := Vector.replicate 4 (Reg.unwritten 512 16)
  ctrl    := ⟨false, par.verifyReset⟩
  cmd     := 0#32
  status  := ⟨false, false, false, 0#4, 0#4⟩
  latch   := none
  inbox   := []
  replies := []
  draws   := 0

/-- The `reference_curve()` instance right after a hard reset (10_state.md R65; 42_curve.md R155). -/
def State.reset : State := State.powerOn Config.reference

end Sys2Proof.Machine
end

