-- ==== Sys2Proof/Machine/Flags.lean ====
section
/-! DEFINITION. STATUS and CTRL as words, the error codes, the one flag and the interrupt output
(10_state.md R45 to R51, R63; 60_exceptions.md R271, R273, R290). -/

namespace Sys2Proof.Machine

/-- ERRINFO of IllegalCommand (60_exceptions.md R273). -/
def illegalInfo : IllegalClass → BitVec 4
  | .unassigned => 1#4
  | .reservedBits => 2#4
  | .indexRange => 3#4
  | .duplicate => 4#4

/-- The code STATUS.ERR takes (60_exceptions.md R271). -/
def CmdError.code : CmdError → BitVec 4
  | .offCurve => 1#4
  | .identityGiven => 1#4
  | .divisionByZero => 2#4
  | .noSquareRoot => 3#4
  | .integrityCheckFailed => 4#4
  | .illegalCommand _ => 5#4

/-- The detail STATUS.ERRINFO takes (60_exceptions.md R273). -/
def CmdError.info : CmdError → BitVec 4
  | .offCurve => 1#4
  | .identityGiven => 2#4
  | .divisionByZero => 0#4
  | .noSquareRoot => 0#4
  | .integrityCheckFailed => 0#4
  | .illegalCommand c => illegalInfo c

/-- STATUS.BUSY: 1 from accept to complete, while the latch is occupied (10_state.md R47, R55; log 12). -/
def State.busy (s : State) : Bool := s.latch.isSome

/-- The interrupt output (10_state.md R63; 60_exceptions.md R290). -/
def State.irq (s : State) : Bool := s.ctrl.irqEn && s.status.done

/-- One flag at its bit. -/
def flagBit (b : Bool) (i : Nat) : Word := if b then BitVec.twoPow 32 i else 0#32

/-- What a read of STATUS returns (10_state.md R47). -/
def State.statusWord (s : State) : Word :=
  flagBit s.busy 0 ||| flagBit s.status.done 1 ||| flagBit s.status.eqFlag 2 ||| flagBit s.status.accErr 3
    ||| (s.status.err.setWidth 32 <<< 8) ||| (s.status.errInfo.setWidth 32 <<< 12)

/-- What a read of CTRL returns: SRST and the reserved bits read 0 (10_state.md R45). -/
def State.ctrlWord (s : State) : Word := flagBit s.ctrl.irqEn 0 ||| flagBit s.ctrl.verify 1

/-- STATUS with EQ written, by PEQ and PTST only (10_state.md R50). -/
def State.writeEq (s : State) (b : Bool) : State := { s with status := { s.status with eqFlag := b } }

/-- The CTRL.VERIFY sample of the command in flight (10_state.md R55). With nothing in flight no command runs, and the
sample reads 0 (log 13). -/
def State.verifySample (s : State) : Bool :=
  match s.latch with
  | some l => l.verify
  | none => false

end Sys2Proof.Machine
end

