-- ==== Sys2Proof/Machine/Words.lean ====
section
/-! DEFINITION. A register seen as its 32-bit words, and a word seen as its bytes (20_memory.md R73, R75). -/

namespace Sys2Proof.Machine

/-- `v[32w+31 : 32w]` (20_memory.md R73). -/
def getWord {n : Nat} (v : BitVec n) (w : Nat) : Word := v.extractLsb' (32 * w) 32

/-- `v` with `v[32w+31 : 32w]` replaced by `x` (20_memory.md R73). -/
def setWord {n : Nat} (v : BitVec n) (w : Nat) (x : Word) : BitVec n :=
  (v &&& ~~~((0xFFFFFFFF#32).setWidth n <<< (32 * w))) ||| (x.setWidth n <<< (32 * w))

/-- Byte `j` of a bus word, bits `[8j+7 : 8j]` (20_memory.md R75). -/
def byteOfWord (v : Word) (j : Nat) : BitVec 8 := v.extractLsb' (8 * j) 8

/-- A word of a register is valid (10_state.md R62). -/
def Reg.wordValid {n k : Nat} (r : Reg n k) (w : Nat) : Bool := r.valid.getLsbD w

/-- Every word of a register is valid (10_state.md R62). -/
def Reg.allValid {n k : Nat} (r : Reg n k) : Bool := r.valid == BitVec.allOnes k

/-- Every word of all three coordinates is valid: "all 24 words" (42_curve.md R156). -/
def PReg.allValid (r : PReg) : Bool := r.x.allValid && r.y.allValid && r.z.allValid

/-- The words of a register that a command may read (10_state.md R62; log 4). -/
def Reg.readMask {n k : Nat} (u : UninitRule) (r : Reg n k) : BitVec k :=
  match u with
  | .modelFault => r.valid
  | .resetValues => r.valid ||| ~~~r.aborted

/-- A command may read the register, in full (10_state.md R60, R62). -/
def Reg.reads {n k : Nat} (u : UninitRule) (r : Reg n k) : Bool := r.readMask u == BitVec.allOnes k

/-- A command may read all three coordinates. -/
def PReg.reads (u : UninitRule) (r : PReg) : Bool := r.x.reads u && r.y.reads u && r.z.reads u

/-- What the host reads of one word: none where the word is invalid and any value may be read (10_state.md R62). -/
def Reg.hostWord {n k : Nat} (r : Reg n k) (w : Nat) : Option Word :=
  if r.wordValid w then some (getWord r.val w) else none

/-- The host writes one word, which becomes valid; the other words stay as they are (10_state.md R62;
20_memory.md R80). -/
def Reg.putWord {n k : Nat} (r : Reg n k) (w : Nat) (x : Word) : Reg n k :=
  ⟨setWord r.val w x, r.valid ||| BitVec.twoPow k w, r.aborted &&& ~~~BitVec.twoPow k w⟩

/-- A register written by a command: all its words become valid (10_state.md R62). The value is reduced, so the
256 bits hold it exactly. -/
def Reg.written (v : Int) : FReg := ⟨BitVec.ofInt 256 v, BitVec.allOnes 8, 0#8⟩

/-- A destination of an aborted command: every word invalid, its content a free value (70_reset_and_hazards.md R314; log 8). -/
def Reg.atAbort (v : Word256) : FReg := ⟨v, 0#8, BitVec.allOnes 8⟩

end Sys2Proof.Machine
end

