-- ==== Sys2Proof/Machine/Operands.lean ====
section
/-! DEFINITION. Reading the operands of a command (00_scope.md R16; 30_encoding.md R102; 43_point.md R172), and the
destinations of each command (70_reset_and_hazards.md R314). -/

namespace Sys2Proof.Machine

/-- Every word of a field, point or scalar register is valid (10_state.md R62). -/
def State.fOk (s : State) (i : FIdx) : Bool := s.f[i].allValid
def State.pOk (s : State) (i : PIdx) : Bool := s.p[i].allValid
def State.sOk (s : State) (i : SIdx) : Bool := s.sc[i].allValid

/-- A command may read `F[i]`, `P[i]`, `S[i]`, under the rule of the instance (10_state.md R62; log 4). -/
def State.fReads (s : State) (i : FIdx) : Bool := s.f[i].reads s.par.uninit
def State.pReads (s : State) (i : PIdx) : Bool := s.p[i].reads s.par.uninit
def State.sReads (s : State) (i : SIdx) : Bool := s.sc[i].reads s.par.uninit

/-- `F[i]` as an unsigned integer (41_field.md R130). -/
def State.fVal (s : State) (i : FIdx) : Int := (s.f[i].val.toNat : Int)

/-- The raw triple in `P[i]` (43_point.md R181). -/
def State.pRaw (s : State) (i : PIdx) : Triple :=
  ⟨(s.p[i].x.val.toNat : Int), (s.p[i].y.val.toNat : Int), (s.p[i].z.val.toNat : Int)⟩

/-- `red3(P[i])`, how every point command but PGET reads a point register (43_point.md R172). -/
def State.pVal (s : State) (i : PIdx) : Triple := s.par.curve.red3 (s.pRaw i)

/-- `sval_512(S[i])` (10_state.md R35; 00_scope.md R15). -/
def State.sVal (s : State) (i : SIdx) : Int := s.sc[i].val.toInt

/-- The integer a scalar command multiplies by (44_scalar.md R211). -/
def State.scalar (s : State) (i : SIdx) : Nat := s.par.curve.redScalar (s.sVal i)

/-- Bit 0 of the raw `F[i]` (46_codec.md R248). -/
def State.fBit0 (s : State) (i : FIdx) : Bool := s.f[i].val.getLsbD 0

/-- A register a command writes. -/
inductive Dest where
  | f (i : FIdx)
  | p (i : PIdx)
deriving DecidableEq, Repr

/-- The destinations of each command (70_reset_and_hazards.md R314). -/
def destsOf : Instr → List Dest
  | .nop => []
  | .fadd d _ _ => [.f d]
  | .fsub d _ _ => [.f d]
  | .fmul d _ _ => [.f d]
  | .fmont d _ _ => [.f d]
  | .finv d _ => [.f d]
  | .fsqrt d _ => [.f d]
  | .pldg d => [.p d]
  | .pldo d => [.p d]
  | .pset d _ _ _ => [.p d]
  | .pget x y z _ => [.f x, .f y, .f z]
  | .pneg d _ => [.p d]
  | .padd d _ _ => [.p d]
  | .pdbl d _ => [.p d]
  | .peq _ _ => []
  | .ptst _ => []
  | .pval _ => []
  | .toaff d _ => [.p d]
  | .smul d _ _ => [.p d]
  | .vsmul d _ _ => [.p d]
  | .cbit d _ => [.f d]
  | .decomp d _ _ => [.p d]

end Sys2Proof.Machine
end

