-- ==== Sys2Proof/Machine/Ops.lean ====
section
/-! DEFINITION. The shared operations: writing registers, accepting and completing a command, ending it with an error and
acknowledging it, and the two resets (60_exceptions.md R272, R283 to R285; 70_reset_and_hazards.md R310 to R314). -/

namespace Sys2Proof.Machine

/-- `F[d] <- v` (00_scope.md R16). -/
def State.writeF (s : State) (d : FIdx) (v : Int) : State := { s with f := s.f.set d (Reg.written v) }

/-- `P[d] <- (X, Y, Z)` (00_scope.md R16). -/
def State.writeP (s : State) (d : PIdx) (T : Triple) : State :=
  { s with p := s.p.set d ⟨Reg.written T.x, Reg.written T.y, Reg.written T.z⟩ }

/-- The completion bits: BUSY <- 0, DONE <- 1, latch <- empty (60_exceptions.md R284). -/
def State.complete (s : State) : State := { s with status := { s.status with done := true }, latch := none }

/-- `raise <Kind>(info)`: nothing is written but ERR, ERRINFO and the completion bits (00_scope.md R19;
60_exceptions.md R272, R284). There is no vector and nothing is saved (R270). -/
def State.raise (s : State) (e : CmdError) : State :=
  State.complete { s with status := { s.status with err := e.code, errInfo := e.info } }

/-- A command that completes with its writes done. -/
def finish (s : State) : Out := .next s.complete

/-- A command that ends with an error. -/
def fail (s : State) (e : CmdError) : Out := .next (s.raise e)

/-- Operand validity, checked after decoding and before the command's own checks (60_exceptions.md R277): a command that may not
read one of its sources ends in `fault UninitOperand` (10_state.md R62; log 4). -/
def needs (ok : Bool) (k : Out) : Out := if ok then k else .fault .uninitOperand

/-- The word `w` becomes the command in flight (60_exceptions.md R283, the branch BUSY = 0). -/
def State.latchCommand (s : State) (w : Word) : State :=
  { s with
    cmd := w
    latch := some ⟨w, s.ctrl.verify⟩
    status := { s.status with done := false, err := 0#4, errInfo := 0#4 } }

/-- A host write is dropped because BUSY = 1 (20_memory.md R78). -/
def State.dropWrite (s : State) : State := { s with status := { s.status with accErr := true } }

/-- Accept: a host write of `w` to CMD (60_exceptions.md R283). -/
def State.accept (s : State) (w : Word) : State := if s.busy then s.dropWrite else s.latchCommand w

/-- Acknowledge: a host write `v` to STATUS (10_state.md R48; 60_exceptions.md R285). -/
def State.acknowledge (s : State) (v : Word) : State :=
  { s with status := { s.status with
      done := s.status.done && !v.getLsbD 1
      accErr := s.status.accErr && !v.getLsbD 3 } }

/-- One destination of an aborted command becomes invalid, its content a free value (70_reset_and_hazards.md R314; log 8). -/
def State.abortDest (s : State) : Dest → State
  | .f i => { s with f := s.f.set i (Reg.atAbort (Config.freeField s.draws)), draws := s.draws + 1 }
  | .p i =>
    { s with
      p := s.p.set i ⟨Reg.atAbort (Config.freeField s.draws), Reg.atAbort (Config.freeField (s.draws + 1)),
        Reg.atAbort (Config.freeField (s.draws + 2))⟩
      draws := s.draws + 3 }

/-- The destinations a command word names, none for an illegal word (70_reset_and_hazards.md R314). -/
def wordDests (w : Word) : List Dest :=
  match decode w with
  | .ok i => destsOf i
  | .error _ => []

/-- The abort of the command in flight, if any (70_reset_and_hazards.md R314). -/
def State.abort (s : State) : State :=
  match s.latch with
  | some l => (wordDests l.word).foldl State.abortDest s
  | none => s

/-- Soft reset (70_reset_and_hazards.md R313, R314). -/
def State.softReset (s : State) : State :=
  { s.abort with
    ctrl := ⟨false, s.par.verifyReset⟩
    status := ⟨false, false, false, 0#4, 0#4⟩
    cmd := 0#32
    latch := none }

/-- A host write `v` to CTRL (10_state.md R45; 70_reset_and_hazards.md R313). -/
def State.writeCtrl (s : State) (v : Word) : State :=
  if v.getLsbD 31 then s.softReset else { s with ctrl := ⟨v.getLsbD 0, v.getLsbD 1⟩ }

/-- Hard reset (70_reset_and_hazards.md R310): the state of 10_state.md R65; what the host still does and has read is not the
block's, and stays (log 14). -/
def State.hardReset (s : State) : State :=
  { State.powerOn s.par with inbox := s.inbox, replies := s.replies, draws := s.draws }

end Sys2Proof.Machine
end

