-- ==== Sys2Proof/Machine/CodecCmds.lean ====
section
/-! DEFINITION. Point compression and decompression (46_codec.md). -/

namespace Sys2Proof.Machine

/-- CBIT: the parity of the affine y (46_codec.md R246, R247). -/
def execCbit (d : FIdx) (a : PIdx) (s : State) : Out :=
  needs (s.pReads a) <|
    if s.par.curve.isId (s.pVal a) then fail s .identityGiven
    else finish (s.writeF d ((s.par.curve.affine (s.pVal a)).2 % 2))

/-- DECOMP (46_codec.md R248). -/
def execDecomp (d : PIdx) (x b : FIdx) (s : State) : Out :=
  needs (s.fReads x && s.fReads b) <|
    let xr := s.par.curve.red (s.fVal x)
    match s.par.curve.sqrtP (s.par.curve.rhs xr) with
    | some r => finish (s.writeP d ⟨xr, s.par.curve.pickRoot r (s.fBit0 b), 1⟩)
    | none => fail s .noSquareRoot

end Sys2Proof.Machine
end

