-- ==== Sys2Proof/Machine/ControlCmds.lean ====
section
/-! DEFINITION. NOP (47_control.md). -/

namespace Sys2Proof.Machine

/-- NOP (47_control.md R260). -/
def execNop (s : State) : Out := finish s

end Sys2Proof.Machine
end

