-- ==== Sys2Proof/Machine/CurveCmds.lean ====
section
/-! DEFINITION. The point accessors of the curve (42_curve.md). -/

namespace Sys2Proof.Machine

/-- PLDG (42_curve.md R156). -/
def execPldg (d : PIdx) (s : State) : Out := finish (s.writeP d s.par.curve.gen)

/-- PLDO (42_curve.md R157). -/
def execPldo (d : PIdx) (s : State) : Out := finish (s.writeP d oCan)

end Sys2Proof.Machine
end

