-- ==== Sys2Proof/Machine/FieldCmds.lean ====
section
/-! DEFINITION. The field commands (41_field.md). -/

namespace Sys2Proof.Machine

/-- The shape FADD, FSUB, FMUL and FMONT share: two field sources, one field result (41_field.md R130). -/
def fieldBinary (op : Curve → Int → Int → Int) (d a b : FIdx) (s : State) : Out :=
  needs (s.fReads a && s.fReads b) (finish (s.writeF d (op s.par.curve (s.fVal a) (s.fVal b))))

/-- FADD (41_field.md R131). -/
def execFadd (d a b : FIdx) (s : State) : Out := fieldBinary Curve.addF d a b s

/-- FSUB (41_field.md R132). -/
def execFsub (d a b : FIdx) (s : State) : Out := fieldBinary Curve.subF d a b s

/-- FMUL (41_field.md R134). -/
def execFmul (d a b : FIdx) (s : State) : Out := fieldBinary Curve.mulF d a b s

/-- FMONT (41_field.md R133). -/
def execFmont (d a b : FIdx) (s : State) : Out := fieldBinary Curve.montF d a b s

/-- FINV (41_field.md R136). -/
def execFinv (d a : FIdx) (s : State) : Out :=
  needs (s.fReads a) <|
    let x := s.par.curve.red (s.fVal a)
    if x = 0 then fail s .divisionByZero else finish (s.writeF d (s.par.curve.invP x))

/-- FSQRT (41_field.md R137). -/
def execFsqrt (d a : FIdx) (s : State) : Out :=
  needs (s.fReads a) <|
    match s.par.curve.sqrtP (s.par.curve.red (s.fVal a)) with
    | some r => finish (s.writeF d r)
    | none => fail s .noSquareRoot

end Sys2Proof.Machine
end

