-- ==== Sys2Proof/Machine/PointCmds.lean ====
section
/-! DEFINITION. The point commands (43_point.md). -/

namespace Sys2Proof.Machine

/-- PSET (43_point.md R180). -/
def execPset (d : PIdx) (x y z : FIdx) (s : State) : Out :=
  needs (s.fReads x && s.fReads y && s.fReads z) <|
    finish (s.writeP d (s.par.curve.red3 ⟨s.fVal x, s.fVal y, s.fVal z⟩))

/-- PGET: the raw contents, not `red3` (43_point.md R181). -/
def execPget (x y z : FIdx) (a : PIdx) (s : State) : Out :=
  needs (s.pReads a) <|
    finish (((s.writeF x (s.pRaw a).x).writeF y (s.pRaw a).y).writeF z (s.pRaw a).z)

/-- PNEG (43_point.md R182). -/
def execPneg (d a : PIdx) (s : State) : Out :=
  needs (s.pReads a) (finish (s.writeP d (s.par.curve.neg (s.pVal a))))

/-- PADD (43_point.md R185). -/
def execPadd (d a b : PIdx) (s : State) : Out :=
  needs (s.pReads a && s.pReads b) (finish (s.writeP d (s.par.curve.add (s.pVal a) (s.pVal b))))

/-- PDBL (43_point.md R184). -/
def execPdbl (d a : PIdx) (s : State) : Out :=
  needs (s.pReads a) (finish (s.writeP d (s.par.curve.dbl (s.pVal a))))

/-- PEQ (43_point.md R186). -/
def execPeq (a b : PIdx) (s : State) : Out :=
  needs (s.pReads a && s.pReads b) (finish (s.writeEq (s.par.curve.eqPt (s.pVal a) (s.pVal b))))

/-- PTST (43_point.md R187). -/
def execPtst (a : PIdx) (s : State) : Out :=
  needs (s.pReads a) (finish (s.writeEq (s.par.curve.isId (s.pRaw a))))

/-- PVAL (43_point.md R188). -/
def execPval (a : PIdx) (s : State) : Out :=
  needs (s.pReads a) (if s.par.curve.onCurve (s.pVal a) then finish s else fail s .offCurve)

/-- TOAFF (43_point.md R190). -/
def execToaff (d a : PIdx) (s : State) : Out :=
  needs (s.pReads a) <|
    if s.par.curve.isId (s.pVal a) then fail s .identityGiven
    else
      let xy := s.par.curve.affine (s.pVal a)
      finish (s.writeP d ⟨xy.1, xy.2, 1⟩)

end Sys2Proof.Machine
end

