-- ==== Sys2Proof/Machine/ScalarCmds.lean ====
section
/-! DEFINITION. Scalar multiplication, plain and verified (44_scalar.md; 45_verified.md). -/

namespace Sys2Proof.Machine

/-- What SMUL and VSMUL share (44_scalar.md R210 to R214; 45_verified.md R230): validation first, for every scalar, then the
identity for `k = 0` or an identity operand, else the multiplication `mul`. -/
def scalarCommon (mul : Nat → Triple → Out) (d : PIdx) (k : SIdx) (a : PIdx) (s : State) : Out :=
  needs (s.sReads k && s.pReads a) <|
    if s.par.curve.onCurve (s.pVal a) = false then fail s .offCurve
    else if s.scalar k = 0 ∨ s.par.curve.isId (s.pVal a) = true then finish (s.writeP d oCan)
    else mul (s.scalar k) (s.pVal a)

/-- The plain multiplication (44_scalar.md R215). -/
def plainMultiply (d : PIdx) (k : SIdx) (a : PIdx) (s : State) : Out :=
  scalarCommon (fun n T => finish (s.writeP d (s.par.curve.mulLtr n T))) d k a s

/-- `fault_detected(A, B)` (45_verified.md R233). -/
def State.faultDetected (s : State) (A B : Triple) : Bool :=
  match s.par.faultModel with
  | .none => !s.par.curve.eqPt A B
  | .detectAny => Config.faultDraw s.draws

/-- The draw counter after `fault_detected` (log 7). -/
def State.afterDetect (s : State) : State :=
  match s.par.faultModel with
  | .none => s
  | .detectAny => { s with draws := s.draws + 1 }

/-- The verified multiplication (45_verified.md R232): path 1's triple is written. -/
def verifiedMultiply (d : PIdx) (k : SIdx) (a : PIdx) (s : State) : Out :=
  scalarCommon
    (fun n T =>
      if s.faultDetected (s.par.curve.mulLtr n T) (s.par.curve.mulRtl n T) then fail s.afterDetect .integrityCheckFailed
      else finish (s.afterDetect.writeP d (s.par.curve.mulLtr n T)))
    d k a s

/-- SMUL: VSMUL where the VERIFY sample is 1 (44_scalar.md R215). -/
def execSmul (d : PIdx) (k : SIdx) (a : PIdx) (s : State) : Out :=
  if s.verifySample then verifiedMultiply d k a s else plainMultiply d k a s

/-- VSMUL (45_verified.md R232). -/
def execVsmul (d : PIdx) (k : SIdx) (a : PIdx) (s : State) : Out := verifiedMultiply d k a s

end Sys2Proof.Machine
end

