-- ==== Sys2Proof/Machine/Dispatch.lean ====
section
/-! DEFINITION. One arm per command. -/

namespace Sys2Proof.Machine

def exec (i : Instr) (s : State) : Host.Outcome State Fault Refusal :=
  match i with
  | .nop => Sys2Proof.Machine.execNop s
  | .fadd d a b => Sys2Proof.Machine.execFadd d a b s
  | .fsub d a b => Sys2Proof.Machine.execFsub d a b s
  | .fmul d a b => Sys2Proof.Machine.execFmul d a b s
  | .fmont d a b => Sys2Proof.Machine.execFmont d a b s
  | .finv d a => Sys2Proof.Machine.execFinv d a s
  | .fsqrt d a => Sys2Proof.Machine.execFsqrt d a s
  | .pldg d => Sys2Proof.Machine.execPldg d s
  | .pldo d => Sys2Proof.Machine.execPldo d s
  | .pset d x y z => Sys2Proof.Machine.execPset d x y z s
  | .pget x y z a => Sys2Proof.Machine.execPget x y z a s
  | .pneg d a => Sys2Proof.Machine.execPneg d a s
  | .padd d a b => Sys2Proof.Machine.execPadd d a b s
  | .pdbl d a => Sys2Proof.Machine.execPdbl d a s
  | .peq a b => Sys2Proof.Machine.execPeq a b s
  | .ptst a => Sys2Proof.Machine.execPtst a s
  | .pval a => Sys2Proof.Machine.execPval a s
  | .toaff d a => Sys2Proof.Machine.execToaff d a s
  | .smul d k a => Sys2Proof.Machine.execSmul d k a s
  | .vsmul d k a => Sys2Proof.Machine.execVsmul d k a s
  | .cbit d a => Sys2Proof.Machine.execCbit d a s
  | .decomp d x b => Sys2Proof.Machine.execDecomp d x b s

end Sys2Proof.Machine
end

