-- ==== Sys2Proof/Machine/HostPort.lean ====
section
/-! DEFINITION. The host port: the offset map of the window and what a 32-bit read or write does (20_memory.md). -/

namespace Sys2Proof.Machine

/-- A coordinate of a point register. -/
inductive Coord where
  | X | Y | Z
deriving DecidableEq, Repr

/-- A curve-parameter register (10_state.md R36). -/
inductive CpReg where
  | P | A | B | N | GX | GY | H
deriving DecidableEq, Repr

/-- What stands at a word offset of the window (20_memory.md R72): register and word. -/
inductive Slot where
  | id
  | ctrl
  | cmd
  | status
  | reserved
  | f (i : FIdx) (w : Fin 8)
  | p (i : PIdx) (c : Coord) (w : Fin 8)
  | s (i : SIdx) (w : Fin 16)
  | cp (r : CpReg) (w : Fin 8)
deriving DecidableEq, Repr

/-- X at +0x00, Y at +0x20, Z at +0x40 of a point register (20_memory.md R72). -/
def coordAt (n : Nat) : Coord :=
  match n with
  | 0 => .X
  | 1 => .Y
  | _ => .Z

/-- CP_P at 0x700, each next register 0x20 above (20_memory.md R72). -/
def cpAt (n : Nat) : CpReg :=
  match n with
  | 0 => .P
  | 1 => .A
  | 2 => .B
  | 3 => .N
  | 4 => .GX
  | 5 => .GY
  | _ => .H

/-- The offset map (20_memory.md R72), for an offset in the window that is a multiple of 4. -/
def slotAt (off : Nat) : Slot :=
  if off = 0x000 then .id
  else if off = 0x004 then .ctrl
  else if off = 0x008 then .cmd
  else if off = 0x00C then .status
  else if off < 0x100 then .reserved
  else if off < 0x300 then .f (Fin.ofNat 16 ((off - 0x100) / 0x20)) (Fin.ofNat 8 ((off - 0x100) % 0x20 / 4))
  else if off < 0x600 then
    .p (Fin.ofNat 8 ((off - 0x300) / 0x60)) (coordAt ((off - 0x300) % 0x60 / 0x20)) (Fin.ofNat 8 ((off - 0x300) % 0x20 / 4))
  else if off < 0x700 then .s (Fin.ofNat 4 ((off - 0x600) / 0x40)) (Fin.ofNat 16 ((off - 0x600) % 0x40 / 4))
  else if off < 0x7E0 then .cp (cpAt ((off - 0x700) / 0x20)) (Fin.ofNat 8 ((off - 0x700) % 0x20 / 4))
  else .reserved

/-- The byte offset of an address in the window at `BASE`, none outside it (20_memory.md R70, R74). -/
def State.windowOffset (s : State) (addr : Nat) : Option Nat :=
  if s.par.base ≤ addr ∧ addr < s.par.base + Config.windowBytes then some (addr - s.par.base) else none

/-- One coordinate of a point register. -/
def PReg.coord (r : PReg) : Coord → FReg
  | .X => r.x
  | .Y => r.y
  | .Z => r.z

/-- The host writes one word of a coordinate. -/
def PReg.putWord (r : PReg) (c : Coord) (w : Nat) (v : Word) : PReg :=
  match c with
  | .X => { r with x := r.x.putWord w v }
  | .Y => { r with y := r.y.putWord w v }
  | .Z => { r with z := r.z.putWord w v }

/-- The contents of a curve-parameter register (42_curve.md R151). -/
def cpContents (c : Curve) : CpReg → Word256
  | .P => c.p
  | .A => c.a
  | .B => c.b
  | .N => c.n
  | .GX => c.gx
  | .GY => c.gy
  | .H => c.h

/-- What a host read finds at a slot, none where any value may be read: a word of F, P or S that is invalid
(10_state.md R62) or read while BUSY = 1 (20_memory.md R79). -/
def State.look (s : State) : Slot → Option Word
  | .id => some Config.idValue
  | .ctrl => some s.ctrlWord
  | .cmd => some s.cmd
  | .status => some s.statusWord
  | .reserved => some 0#32
  | .f i w => if s.busy then none else s.f[i].hostWord w
  | .p i c w => if s.busy then none else (s.p[i].coord c).hostWord w
  | .s i w => if s.busy then none else s.sc[i].hostWord w
  | .cp r w => some (getWord (cpContents s.par.curve r) w)

/-- The port returns read data to the host (log 9). -/
def State.reply (s : State) (v : Word) : State := { s with replies := v :: s.replies }

/-- A host read of a slot: no side effect on the block (20_memory.md R81); a draw where any value may be read (log 6). -/
def State.readSlot (s : State) (t : Slot) : State :=
  match s.look t with
  | some v => s.reply v
  | none => { s.reply (Config.freeWord s.draws) with draws := s.draws + 1 }

/-- A host write of a slot (20_memory.md R76, R78, R79, R81). -/
def State.writeSlot (s : State) (t : Slot) (v : Word) : State :=
  match t with
  | .id => s
  | .ctrl => s.writeCtrl v
  | .cmd => s.accept v
  | .status => s.acknowledge v
  | .reserved => s
  | .f i w => if s.busy then s.dropWrite else { s with f := s.f.set i (s.f[i].putWord w v) }
  | .p i c w => if s.busy then s.dropWrite else { s with p := s.p.set i (s.p[i].putWord c w v) }
  | .s i w => if s.busy then s.dropWrite else { s with sc := s.sc.set i (s.sc[i].putWord w v) }
  | .cp _ _ => s

/-- The slot of an access of `width` bytes at `addr`, or why there is none: only an aligned 32-bit word of the window is
accessed (20_memory.md R74, R77). -/
def State.accessSlot (s : State) (addr width : Nat) : Except Refusal Slot :=
  match s.windowOffset addr with
  | none => .error .outsideWindow
  | some off => if width = 4 ∧ off % 4 = 0 then .ok (slotAt off) else .error .busError

/-- `MemRead(addr, width)` (00_scope.md R18). -/
def hostRead (addr width : Nat) (s : State) : Out :=
  match s.accessSlot addr width with
  | .ok t => .next (s.readSlot t)
  | .error r => .refused r

/-- `MemWrite(addr, width, v)` (00_scope.md R18). -/
def hostWrite (addr width : Nat) (v : Word) (s : State) : Out :=
  match s.accessSlot addr width with
  | .ok t => .next (s.writeSlot t v)
  | .error r => .refused r

/-- The byte a byte-wide view of the window shows at an offset (20_memory.md R75), none where any value may be read. -/
def State.windowByte (s : State) (off : Nat) : Option (BitVec 8) :=
  (s.look (slotAt (off / 4 * 4))).map (fun v => byteOfWord v (off % 4))

end Sys2Proof.Machine
end

