-- ==== Sys2Proof/Machine/Engine.lean ====
section
/-! DEFINITION. The engine's step and the events of the port (60_exceptions.md R284, R292). -/

namespace Sys2Proof.Machine

/-- The engine completes the command word `w` (60_exceptions.md R284): decode, then the command's rule; an illegal word
completes with IllegalCommand and reads no register (R276). -/
def runWord (w : Word) (s : State) : Out :=
  match decode w with
  | .ok i => exec i s
  | .error c => fail s (.illegalCommand c)

/-- The engine's step, enabled only while BUSY = 1; otherwise the block stays idle (60_exceptions.md R284, R300). -/
def engineStep (s : State) : Out :=
  match s.latch with
  | some l => runWord l.word s
  | none => .next s

/-- One event of the port (20_memory.md R85; 60_exceptions.md R292; 70_reset_and_hazards.md R310). -/
def handle (e : Event) (s : State) : Out :=
  match e with
  | .read addr width => hostRead addr width s
  | .write addr width v => hostWrite addr width v s
  | .engine => engineStep s
  | .hardReset => .next s.hardReset

/-- The next event takes effect, one at a time and in their order (20_memory.md R85); with none left the engine runs, the weak
fairness of 70_reset_and_hazards.md R330 (log 1). -/
def takeEvent (s : State) : Out :=
  match s.inbox with
  | [] => engineStep s
  | e :: rest => handle e { s with inbox := rest }

end Sys2Proof.Machine
end

