-- ==== Sys2Proof/Machine/Step.lean ====
section
/-! DEFINITION. One step of the block: its next event, and with no event left the engine (log 1). -/

namespace Sys2Proof.Machine

/-- One step. A configuration that is not admitted is no instance of the hardware, and the model refuses it (00_scope.md R13;
log 11). -/
def step (s : State) : Host.Outcome State Fault Refusal :=
  if s.par.admitted then takeEvent s else .refused .configuration

/-- `s` with the table word as the command in flight, accepted and about to be completed, so that the next step decodes and
runs it. The block fetches nothing (20_memory.md R89): this stands for the host's CMD write (log 2). -/
def State.withFetchWord (s : State) (nbits w : Nat) : State :=
  { s.latchCommand (tableWord nbits w) with inbox := .engine :: s.inbox }

end Sys2Proof.Machine
end

