-- ==== Sys2Proof/Safety.lean ====
section
/-! DEFINITION. The terms claims use: an admitted configuration (42_curve.md R152), canonical register contents
(43_point.md R173), and the invariant of the status registers. -/

namespace Sys2Proof

/-- The construction-time checks of `CURVE` (42_curve.md R152), and that the curve-parameter registers hold `a mod p` and
`b mod p` (R151). `n < 2^256` and `p < 2^256` hold by the registers' width. A curve that is not admitted is no instance of the
hardware, and `step` refuses it (00_scope.md R13; log 11). -/
structure Curve.Admitted (c : Curve) : Prop where
  pPrime      : c.p.toNat.Prime
  pAboveThree : 3 < c.p.toNat
  pMod4       : c.p.toNat % 4 = 3
  nPrime      : c.n.toNat.Prime
  hasse       : (c.hI * c.nI - (c.pI + 1)) * (c.hI * c.nI - (c.pI + 1)) ≤ 4 * c.pI
  genOnCurve  : (c.gyI * c.gyI - (c.gxI * c.gxI * c.gxI + c.aI * c.gxI + c.bI)) % c.pI = 0
  genOrder    : c.isId (c.mulLtr c.n.toNat c.gen) = true
  gxReduced   : c.gxI < c.pI
  gyReduced   : c.gyI < c.pI
  nonsingular : (4 * (c.aI * c.aI * c.aI) + 27 * (c.bI * c.bI)) % c.pI ≠ 0
  aReduced    : c.aI < c.pI
  bReduced    : c.bI < c.pI

/-- An instance of the hardware: an admitted curve at a base that is a multiple of 0x800 (00_scope.md R13; 20_memory.md R70). -/
structure Params.Admitted (P : Params) : Prop where
  curve   : P.curve.Admitted
  aligned : P.base % 0x800 = 0

/-- A triple as commands write it: `O_CAN`, or coordinates in `[0, p)` with `Z ≠ 0` (43_point.md R173; 10_state.md R34). -/
def Curve.Canonical (c : Curve) (T : Triple) : Prop :=
  T = oCan ∨ (0 ≤ T.x ∧ T.x < c.pI ∧ 0 ≤ T.y ∧ T.y < c.pI ∧ 0 < T.z ∧ T.z < c.pI)

/-- The curve as Mathlib's Weierstrass curve over the integers mod p, the terms the group-law claims are made in. -/
def Curve.weier (c : Curve) : WeierstrassCurve.Affine (ZMod c.p.toNat) where
  a₁ := 0
  a₂ := 0
  a₃ := 0
  a₄ := (c.aI : ZMod c.p.toNat)
  a₆ := (c.bI : ZMod c.p.toNat)

/-- The triple `T` represents the point `Q` of the curve: the identity where `Z = 0`, else the affine point
`(X/Z², Y/Z³)` (10_state.md R33; 43_point.md R171). -/
def Curve.Rep (c : Curve) (T : Triple) (Q : c.weier.Point) : Prop :=
  match Q with
  | .zero => (T.z : ZMod c.p.toNat) = 0
  | .some x y _ =>
    (T.z : ZMod c.p.toNat) ≠ 0 ∧ (T.x : ZMod c.p.toNat) = x * (T.z : ZMod c.p.toNat) ^ 2
      ∧ (T.y : ZMod c.p.toNat) = y * (T.z : ZMod c.p.toNat) ^ 3

namespace Machine

/-- The pairs of ERR and ERRINFO that are produced (60_exceptions.md R271, R273). -/
def legalStatus (err info : BitVec 4) : Bool :=
  (err == 0#4 && info == 0#4) || (err == 1#4 && (info == 1#4 || info == 2#4)) || (err == 2#4 && info == 0#4)
    || (err == 3#4 && info == 0#4) || (err == 4#4 && info == 0#4)
    || (err == 5#4 && (info == 1#4 || info == 2#4 || info == 3#4 || info == 4#4))

/-- The invariant of the control state: only the pairs of 60_exceptions.md R273 stand in STATUS; while a command is in flight
DONE, ERR and ERRINFO are 0 (R283), and CMD holds the word in flight (10_state.md R46, R55). -/
structure State.Inv (s : State) : Prop where
  legal    : legalStatus s.status.err s.status.errInfo = true
  inFlight : s.busy = true → s.status.done = false ∧ s.status.err = 0#4 ∧ s.status.errInfo = 0#4
  latched  : ∀ l, s.latch = some l → s.cmd = l.word

/-- An operand may be read by a command, under the rule of the instance (10_state.md R62; log 4): every register whose words are
all valid, and more under `resetValues`. -/
abbrev State.readableF (s : State) (i : FIdx) : Prop := s.fReads i = true
abbrev State.readableP (s : State) (i : PIdx) : Prop := s.pReads i = true
abbrev State.readableS (s : State) (i : SIdx) : Prop := s.sReads i = true

/-- The contents of a field register, and the modulus, as natural numbers. -/
def State.fNat (s : State) (i : FIdx) : Nat := s.f[i].val.toNat
abbrev State.modulus (s : State) : Nat := s.par.curve.p.toNat

/-- The coordinates of `P[i]` mod p, whatever the register's raw contents (43_point.md R172). -/
def State.xMod (s : State) (i : PIdx) : ZMod s.modulus := (s.p[i].x.val.toNat : ZMod s.modulus)
def State.yMod (s : State) (i : PIdx) : ZMod s.modulus := (s.p[i].y.val.toNat : ZMod s.modulus)
def State.zMod (s : State) (i : PIdx) : ZMod s.modulus := (s.p[i].z.val.toNat : ZMod s.modulus)

/-- The point register `P[i]` of `t` represents the point `Q` of the curve of `s`. -/
def State.holdsPoint (s t : State) (i : PIdx) (Q : s.par.curve.weier.Point) : Prop := s.par.curve.Rep (t.pRaw i) Q

/-- A command ended with an error (60_exceptions.md R272): ERR, ERRINFO, DONE and the latch are written and nothing else. -/
def State.endedWith (s : State) (code info : BitVec 4) : State :=
  { s with status := { s.status with done := true, err := code, errInfo := info }, latch := none }

/-- The frame of a command that completed without an error: only the field registers in `fd` and the point registers in
`pd` may differ, DONE is set and the latch empty, and every other piece of state is as before. -/
structure FrameButEq (s t : State) (fd : List FIdx) (pd : List PIdx) : Prop where
  par     : t.par = s.par
  sc      : t.sc = s.sc
  ctrl    : t.ctrl = s.ctrl
  cmd     : t.cmd = s.cmd
  inbox   : t.inbox = s.inbox
  replies : t.replies = s.replies
  draws   : t.draws = s.draws
  latch   : t.latch = none
  done    : t.status.done = true
  accErr  : t.status.accErr = s.status.accErr
  err     : t.status.err = s.status.err
  errInfo : t.status.errInfo = s.status.errInfo
  fOther  : ∀ j, j ∉ fd → t.f[j] = s.f[j]
  pOther  : ∀ j, j ∉ pd → t.p[j] = s.p[j]

/-- The same, with the flag EQ unchanged too: the frame of every command but PEQ and PTST (10_state.md R50). -/
structure Frame (s t : State) (fd : List FIdx) (pd : List PIdx) : Prop extends FrameButEq s t fd pd where
  eqFlag  : t.status.eqFlag = s.status.eqFlag

end Machine
end Sys2Proof
end

