-- ==== Sys2Proof/Certificates/Slice0/Obligations.lean ====
section
/-! DEFINITION. The statements for the provers, each with the rules of spec/ it formalises. -/

open Sys2Proof Sys2Proof.Machine

/-! ### The encoding (30_encoding.md) -/

/-- Encoding and decoding agree: the word of every well-formed command decodes to that command, with every operand at every
value its field admits (R101, R104, R105). -/
def Obligations.DecodeOfEncodeGivesTheCommand : Prop :=
  ∀ i : Instr, i.wf = true → decode (encode i) = .ok i

/-- Each legal word has exactly one reading, and no bit of it is ignored: a word that decodes is the word of the command it
decodes to, and that command is well-formed (R101, R105, R107). -/
def Obligations.LegalWordIsTheEncodingOfItsCommand : Prop :=
  ∀ (w : Word) (i : Instr), decode w = .ok i → i.wf = true ∧ encode i = w

/-- The match and mask columns of spec/opcode_table.json, in its order. -/
def Sys2Proof.Claims.tableRows : List (Word × Word) :=
  [(0x00000000, 0xFFFFFFFF), (0x10000000, 0xFF000FFF), (0x11000000, 0xFF000FFF), (0x12000000, 0xFF000FFF),
   (0x13000000, 0xFF000FFF), (0x14000000, 0xFF00FFFF), (0x15000000, 0xFF00FFFF), (0x20000000, 0xFF0FFFFF),
   (0x21000000, 0xFF0FFFFF), (0x30000000, 0xFF0000FF), (0x31000000, 0xFF0000FF)]
  ++ [(0x32000000, 0xFF00FFFF), (0x33000000, 0xFF000FFF), (0x34000000, 0xFF00FFFF), (0x35000000, 0xFFF00FFF),
   (0x36000000, 0xFFF0FFFF), (0x37000000, 0xFFF0FFFF), (0x38000000, 0xFF00FFFF), (0x40000000, 0xFF000FFF),
   (0x41000000, 0xFF000FFF), (0x50000000, 0xFF00FFFF), (0x51000000, 0xFF000FFF)]

/-- The decoder finds an unassigned opcode or a nonzero reserved bit exactly in the words that match no row of the opcode
table by its mask and match (R104, R105, R106); and it finds an unassigned opcode, before anything else is looked at, exactly
in the words whose opcode R107 lists. -/
def Obligations.UnreadableWordMatchesNoTableRow : Prop :=
  ∀ w : Word,
    ((decode w = .error .unassigned ∨ decode w = .error .reservedBits) ↔ ∀ r ∈ Sys2Proof.Claims.tableRows, w &&& r.2 ≠ r.1)
    ∧ (decode w = .error .unassigned ↔
      (0x01 ≤ w.toNat / 2 ^ 24 ∧ w.toNat / 2 ^ 24 ≤ 0x0F) ∨ (0x16 ≤ w.toNat / 2 ^ 24 ∧ w.toNat / 2 ^ 24 ≤ 0x1F) ∨
      (0x22 ≤ w.toNat / 2 ^ 24 ∧ w.toNat / 2 ^ 24 ≤ 0x2F) ∨ (0x39 ≤ w.toNat / 2 ^ 24 ∧ w.toNat / 2 ^ 24 ≤ 0x3F) ∨
      (0x42 ≤ w.toNat / 2 ^ 24 ∧ w.toNat / 2 ^ 24 ≤ 0x4F) ∨ 0x52 ≤ w.toNat / 2 ^ 24)

/-- Words written out from the format of R101, one for each family of the opcode map, decode to the commands they stand for
(words of 95_test_vectors.md, L2-E). -/
def Obligations.SampleWordsDecode : Prop :=
  decode 0x00000000#32 = .ok .nop ∧ decode 0x10312000#32 = .ok (.fadd 3 1 2) ∧ decode 0x15210000#32 = .ok (.fsqrt 2 1)
    ∧ decode 0x21300000#32 = .ok (.pldo 3) ∧ decode 0x31245600#32 = .ok (.pget 4 5 6 2)
    ∧ decode 0x33210000#32 = .ok (.padd 2 1 0) ∧ decode 0x35001000#32 = .ok (.peq 0 1)
    ∧ decode 0x40514000#32 = .ok (.smul 5 1 4) ∧ decode 0x51310000#32 = .ok (.decomp 3 1 0)
    ∧ decode 0x31012100#32 = .error .duplicate ∧ decode 0x33F00000#32 = .error .indexRange
    ∧ decode 0x14210300#32 = .error .reservedBits ∧ decode 0x608F0001#32 = .error .unassigned

/-- A PGET word with two equal destinations is illegal, class `duplicate`, whatever its source: the form that `Instr.wf` leaves out
is rejected by the decoder (R105, R106; 43_point.md R181). -/
def Obligations.PgetWithEqualDestinationsIsIllegal : Prop :=
  ∀ (x y z : FIdx) (a : PIdx), (x = y ∨ x = z ∨ y = z) → decode (encode (.pget x y z a)) = .error .duplicate

/-! ### Steps and the command life cycle (60_exceptions.md) -/

/-- Any other configuration is refused: a step of a block whose curve fails a construction-time check of 42_curve.md R152, or
whose base is no multiple of 0x800 (20_memory.md R70), is refused as a configuration, and a step of an admitted block is never
refused so (00_scope.md R13). That the base and the reducedness of the held `a` and `b` (42_curve.md R151) are among what is
admitted is the model's reading, log 11 (DEDUCED). -/
def Obligations.OnlyAdmittedConfigurationsStep : Prop :=
  ∀ s : State, (¬ s.par.curve.Admitted → step s = .refused .configuration)
    ∧ (s.par.base % 0x800 ≠ 0 → step s = .refused .configuration)
    ∧ (s.par.Admitted → step s ≠ .refused .configuration)

/-- A step of an admitted block with a command in flight runs the decoded command: when the next event is the engine's, or no event is left, and
the word in the latch decodes to `i`, the step is `exec i` with that event taken (R284; log 1 for the schedule). -/
def Obligations.StepRunsTheDecodedCommand : Prop :=
  ∀ (s : State) (l : Latch) (i : Instr), s.par.Admitted → s.latch = some l → decode l.word = .ok i →
    (s.inbox = [] ∨ ∃ rest, s.inbox = .engine :: rest) → step s = exec i { s with inbox := s.inbox.tail }

/-- With no command in flight the engine has nothing to do: the block stays as it is, but for the event taken (R284, R300; log 1). -/
def Obligations.IdleBlockStaysAsItIs : Prop :=
  ∀ s : State, s.par.Admitted → s.busy = false → (s.inbox = [] ∨ ∃ rest, s.inbox = .engine :: rest) →
    step s = .next { s with inbox := s.inbox.tail }

/-- A command the host writes to CMD of an idle block runs: the write and the engine's next point together are the command, run
in the state the accept leaves, with its word in CMD and the latch, CTRL.VERIFY sampled, and DONE, ERR and ERRINFO 0 (R283, R284;
30_encoding.md R101). -/
def Obligations.CommandWrittenToCmdRuns : Prop :=
  ∀ (s : State) (i : Instr) (rest : List Event), s.par.Admitted → s.busy = false → i.wf = true →
    s.inbox = .write (s.par.base + 0x008) 4 (encode i) :: .engine :: rest →
    Host.Core.run Sys2Proof.core 2 s = exec i { s with
      inbox := rest, cmd := encode i, latch := some ⟨encode i, s.ctrl.verify⟩,
      status := { s.status with done := false, err := 0#4, errInfo := 0#4 } }

/-- An illegal word in flight completes at the engine's step with ERR = 5, its class in ERRINFO, and nothing else changed but the
event taken, whichever registers are valid (R276; 30_encoding.md R106). The engine steps at its event, and where no event is
left (log 1, a DESIGN CHOICE). -/
def Obligations.IllegalWordCompletesWithIllegalCommand : Prop :=
  ∀ (s : State) (l : Latch) (c : IllegalClass), s.par.Admitted → s.latch = some l → decode l.word = .error c →
    (s.inbox = [] ∨ ∃ rest, s.inbox = .engine :: rest) →
    step s = .next (State.endedWith { s with inbox := s.inbox.tail } 5#4
      (match c with | .unassigned => 1#4 | .reservedBits => 2#4 | .indexRange => 3#4 | .duplicate => 4#4))

/-- Accept: a host write of `w` to CMD while idle makes `w` the command in flight, with the VERIFY sample, clears DONE, ERR and
ERRINFO, and reads and writes no operand; BUSY then reads 1. While a command is in flight the write is dropped and only sets
ACCERR (R283; 10_state.md R46, R55). -/
def Obligations.CmdWriteAcceptsOrIsDropped : Prop :=
  ∀ (s : State) (w : Word) (rest : List Event), s.par.Admitted → s.inbox = .write (s.par.base + 0x008) 4 w :: rest →
    (s.busy = true → step s = .next { s with inbox := rest, status := { s.status with accErr := true } }) ∧
    (s.busy = false → ∃ t, step s = .next t ∧ t = { s with
        inbox := rest, cmd := w, latch := some ⟨w, s.ctrl.verify⟩,
        status := { s.status with done := false, err := 0#4, errInfo := 0#4 } } ∧ t.statusWord.getLsbD 0 = true)

/-- The invariant of the control state is kept by every step: only the ERR and ERRINFO pairs of R273 stand in STATUS, DONE, ERR
and ERRINFO are 0 while a command is in flight (R283), and CMD holds the word in flight (10_state.md R46). -/
def Obligations.EveryStepKeepsControlInvariant : Prop :=
  ∀ s t : State, s.Inv → step s = .next t → t.Inv

/-- The control state right after a hard reset meets that invariant, for every instance. -/
def Obligations.ResetMeetsControlInvariant : Prop :=
  ∀ P : Params, (State.powerOn P).Inv

/-- The instance never changes, the curve-parameter registers among it: "They never change" (10_state.md R36; 42_curve.md
R153). -/
def Obligations.StepsNeverChangeTheCurveParameters : Prop :=
  ∀ s t : State, step s = .next t → t.par = s.par

/-- Every source of the command is readable, under the rule of the instance (10_state.md R62; log 4). The sources of each command
are those of 10_state.md's state inventory. -/
def Sys2Proof.Claims.sourcesReadable (s : State) : Instr → Prop
  | .nop => True
  | .fadd _ a b => s.readableF a ∧ s.readableF b
  | .fsub _ a b => s.readableF a ∧ s.readableF b
  | .fmul _ a b => s.readableF a ∧ s.readableF b
  | .fmont _ a b => s.readableF a ∧ s.readableF b
  | .finv _ a => s.readableF a
  | .fsqrt _ a => s.readableF a
  | .pldg _ => True
  | .pldo _ => True
  | .pset _ x y z => s.readableF x ∧ s.readableF y ∧ s.readableF z
  | .pget _ _ _ a => s.readableP a
  | .pneg _ a => s.readableP a
  | .padd _ a b => s.readableP a ∧ s.readableP b
  | .pdbl _ a => s.readableP a
  | .peq a b => s.readableP a ∧ s.readableP b
  | .ptst a => s.readableP a
  | .pval a => s.readableP a
  | .toaff _ a => s.readableP a
  | .smul _ k a => s.readableS k ∧ s.readableP a
  | .vsmul _ k a => s.readableS k ∧ s.readableP a
  | .cbit _ a => s.readableP a
  | .decomp _ x b => s.readableF x ∧ s.readableF b

/-- Polling sees the completion. From a state with a command in flight whose sources, if its word is legal, are readable, and whose
host reads STATUS `n` times: with nothing more to come, the command completes at the next step (the weak fairness of
70_reset_and_hazards.md R330; log 1); and where the engine's point and one more read come then, the `n` reads return the
STATUS of the command in flight, with BUSY 1, and the last one returns a word with BUSY 0 and DONE 1. -/
def Obligations.PollingSeesTheCompletion : Prop :=
  ∀ (s : State) (n : Nat), s.par.Admitted → s.busy = true →
    (∀ l i, s.latch = some l → decode l.word = .ok i → Sys2Proof.Claims.sourcesReadable s i) →
    let poll : Event := .read (s.par.base + 0x00C) 4
    (s.inbox = List.replicate n poll →
      ∃ t, Host.Core.run Sys2Proof.core (n + 1) s = .next t ∧ State.busy t = false ∧ (t : State).status.done = true)
    ∧ (s.inbox = List.replicate n poll ++ [.engine, poll] →
      ∃ t w, Host.Core.run Sys2Proof.core (n + 2) s = .next t ∧ s.statusWord.getLsbD 0 = true
        ∧ (t : State).replies = w :: (List.replicate n s.statusWord ++ s.replies)
        ∧ w.getLsbD 0 = false ∧ w.getLsbD 1 = true)

/-- Every command whose sources are readable ends in a next state, and then the latch is empty and DONE is 1 (R278, R284). -/
def Obligations.EveryCommandCompletes : Prop :=
  ∀ (i : Instr) (s : State), Sys2Proof.Claims.sourcesReadable s i →
    ∃ t, exec i s = .next t ∧ t.latch = none ∧ t.status.done = true

/-- A word of a register that `UninitRule.resetValues` lets a command read: a valid one, or one no abort has made invalid. -/
def Sys2Proof.Claims.wordReadable {w k : Nat} (r : Reg w k) (i : Nat) : Prop :=
  r.valid.getLsbD i = true ∨ r.aborted.getLsbD i = false

/-- A command ends in `fault UninitOperand` exactly where one of its sources may not be read, whatever its own checks would say (R276,
R277, R278). Under the spec's rule `modelFault` a register may be read exactly where all its words are valid (10_state.md R62). Under
the model's own rule `resetValues` (log 4, a DESIGN CHOICE) a word that nothing has written since reset may be read too, and a
register with a word that an abort has made invalid may not. -/
def Obligations.CommandFaultsWhereASourceMayNotBeRead : Prop :=
  ∀ s : State,
    (∀ i : Instr, exec i s = .fault .uninitOperand ↔ ¬ Sys2Proof.Claims.sourcesReadable s i)
    ∧ (s.par.uninit = .modelFault → (∀ j, s.readableF j ↔ s.fOk j = true) ∧ (∀ j, s.readableP j ↔ s.pOk j = true)
      ∧ ∀ j, s.readableS j ↔ s.sOk j = true)
    ∧ (s.par.uninit = .resetValues →
      (∀ j, s.readableF j ↔ ∀ w < 8, Sys2Proof.Claims.wordReadable s.f[j] w)
      ∧ (∀ j, s.readableP j ↔ ∀ w < 8, Sys2Proof.Claims.wordReadable s.p[j].x w ∧ Sys2Proof.Claims.wordReadable s.p[j].y w
          ∧ Sys2Proof.Claims.wordReadable s.p[j].z w)
      ∧ ∀ j, s.readableS j ↔ ∀ w < 16, Sys2Proof.Claims.wordReadable s.sc[j] w)

/-- No partial results: a command in flight either ends with one error, and then everything but ERR, ERRINFO, DONE, the latch
and the model's own draw counter is as before, or leaves ERR and ERRINFO 0 (R272; 10_state.md R61). -/
def Obligations.ErrorWritesNothingElse : Prop :=
  ∀ (i : Instr) (s t : State), s.status.err = 0#4 → s.status.errInfo = 0#4 → exec i s = .next t →
    (t.status.err = 0#4 ∧ t.status.errInfo = 0#4) ∨
    (t.status.err ≠ 0#4 ∧ { t with draws := s.draws } = s.endedWith t.status.err t.status.errInfo)

/-- Which command may report which error (R271, R273): the pairs of ERR and ERRINFO a completed command leaves. -/
def Obligations.EachCommandReportsOnlyItsErrors : Prop :=
  ∀ (i : Instr) (s t : State), s.status.err = 0#4 → s.status.errInfo = 0#4 → exec i s = .next t →
    (t.status.err, t.status.errInfo) = (0#4, 0#4) ∨
    match i with
    | .finv _ _ => (t.status.err, t.status.errInfo) = (2#4, 0#4)
    | .fsqrt _ _ => (t.status.err, t.status.errInfo) = (3#4, 0#4)
    | .decomp _ _ _ => (t.status.err, t.status.errInfo) = (3#4, 0#4)
    | .pval _ => (t.status.err, t.status.errInfo) = (1#4, 1#4)
    | .toaff _ _ => (t.status.err, t.status.errInfo) = (1#4, 2#4)
    | .cbit _ _ => (t.status.err, t.status.errInfo) = (1#4, 2#4)
    | .smul _ _ _ => (t.status.err, t.status.errInfo) = (1#4, 1#4) ∨
        (s.verifySample = true ∧ (t.status.err, t.status.errInfo) = (4#4, 0#4))
    | .vsmul _ _ _ => (t.status.err, t.status.errInfo) = (1#4, 1#4) ∨ (t.status.err, t.status.errInfo) = (4#4, 0#4)
    | .nop => False
    | .fadd _ _ _ => False
    | .fsub _ _ _ => False
    | .fmul _ _ _ => False
    | .fmont _ _ _ => False
    | .pldg _ => False
    | .pldo _ => False
    | .pset _ _ _ _ => False
    | .pget _ _ _ _ => False
    | .pneg _ _ => False
    | .padd _ _ _ => False
    | .pdbl _ _ => False
    | .peq _ _ => False
    | .ptst _ => False

/-- The frame of all commands at once: a command changes no scalar register, no control register and no parameter, and a field
or point register only where it names it as a destination (10_state.md, state inventory and R35; 70_reset_and_hazards.md R314). -/
def Obligations.CommandsWriteOnlyTheirDestinations : Prop :=
  ∀ (i : Instr) (s t : State), exec i s = .next t →
    t.par = s.par ∧ t.sc = s.sc ∧ t.ctrl = s.ctrl ∧ t.cmd = s.cmd ∧ t.inbox = s.inbox ∧ t.replies = s.replies
    ∧ t.status.accErr = s.status.accErr
    ∧ (∀ j : FIdx, t.f[j] ≠ s.f[j] →
        match i with
        | .fadd d _ _ => j = d
        | .fsub d _ _ => j = d
        | .fmul d _ _ => j = d
        | .fmont d _ _ => j = d
        | .finv d _ => j = d
        | .fsqrt d _ => j = d
        | .cbit d _ => j = d
        | .pget x y z _ => j = x ∨ j = y ∨ j = z
        | _ => False)
    ∧ (∀ j : PIdx, t.p[j] ≠ s.p[j] →
        match i with
        | .pldg d => j = d
        | .pldo d => j = d
        | .pset d _ _ _ => j = d
        | .pneg d _ => j = d
        | .padd d _ _ => j = d
        | .pdbl d _ => j = d
        | .toaff d _ => j = d
        | .smul d _ _ => j = d
        | .vsmul d _ _ => j = d
        | .decomp d _ _ => j = d
        | _ => False)

/-- STATUS.EQ changes in a step only when the engine completes a PEQ or a PTST, or when a soft or hard reset makes it 0; no host
write to STATUS and no other command writes it (10_state.md R50; 70_reset_and_hazards.md R313). -/
def Obligations.OnlyEqualityTestsAndResetsChangeEq : Prop :=
  ∀ s t : State, step s = .next t → t.status.eqFlag ≠ s.status.eqFlag →
    (t.status.eqFlag = false ∧ (s.inbox.head? = some .hardReset
        ∨ ∃ v, s.inbox.head? = some (.write (s.par.base + 0x004) 4 v) ∧ v.getLsbD 31 = true))
    ∨ ((s.inbox = [] ∨ s.inbox.head? = some .engine)
        ∧ ∃ l i, s.latch = some l ∧ decode l.word = .ok i ∧ ((∃ a b, i = .peq a b) ∨ ∃ a, i = .ptst a))

/-- A command reads no control register: with other contents of CTRL, CMD and ACCERR it does the same to everything else
(10_state.md R55; state inventory). The VERIFY sample in the latch is not CTRL, and it decides: with the sample 1 SMUL is VSMUL
(44_scalar.md R215). -/
def Obligations.CommandsIgnoreControlRegisters : Prop :=
  (∀ (i : Instr) (s : State) (k : Ctrl) (w : Word) (b : Bool),
    let with_ (u : State) : State := { u with ctrl := k, cmd := w, status := { u.status with accErr := b } }
    exec i (with_ s) =
      match exec i s with
      | .next t => .next (with_ t)
      | .fault r => .fault r
      | .refused r => .refused r)
  ∧ (∀ (s : State) (d : PIdx) (k : SIdx) (a : PIdx) (l : Latch), s.latch = some l → l.verify = true →
    exec (.smul d k a) s = exec (.vsmul d k a) s)

/-- NOP completes and changes nothing but the completion bits, whatever the registers hold (47_control.md R260). -/
def Obligations.NopOnlyCompletes : Prop :=
  ∀ s : State, ∃ t, exec .nop s = .next t ∧ Frame s t [] []

/-! ### Field commands (41_field.md) -/

/-- FADD, FSUB and FMUL write the sum, the difference and the product of their sources mod p, reduced, for all sources, reduced
or not, and whether or not the destination is a source; and nothing else changes (R130, R131, R132, R134). -/
def Obligations.FieldSumDifferenceProduct : Prop :=
  ∀ (s : State) (d a b : FIdx), 0 < s.modulus → s.readableF a → s.readableF b →
    (∃ t, exec (.fadd d a b) s = .next t ∧ Frame s t [d] [] ∧ t.fOk d = true
      ∧ t.fNat d = (s.fNat a + s.fNat b) % s.modulus)
    ∧ (∃ t, exec (.fsub d a b) s = .next t ∧ Frame s t [d] [] ∧ t.fOk d = true
      ∧ t.fNat d < s.modulus ∧ (t.fNat d + s.fNat b) % s.modulus = s.fNat a % s.modulus)
    ∧ (∃ t, exec (.fmul d a b) s = .next t ∧ Frame s t [d] [] ∧ t.fOk d = true
      ∧ t.fNat d = (s.fNat a * s.fNat b) % s.modulus)

/-- FMONT writes the reduced Montgomery product: the result times 2^256 is the product of the sources mod p (R133; 00_scope.md
R11). -/
def Obligations.FmontIsTheMontgomeryProduct : Prop :=
  ∀ (s : State) (d a b : FIdx), s.par.curve.Admitted → s.readableF a → s.readableF b →
    ∃ t, exec (.fmont d a b) s = .next t ∧ Frame s t [d] [] ∧ t.fOk d = true ∧ t.fNat d < s.modulus
      ∧ (t.fNat d * 2 ^ 256) % s.modulus = (s.fNat a * s.fNat b) % s.modulus

/-- FMUL is two Montgomery products, the second by R² mod p: `FMUL(x, y) = FMONT(FMONT(x, y), R² mod p)` (R134). -/
def Obligations.FmulIsTwoMontgomeryProducts : Prop :=
  ∀ (s : State) (d a b r : FIdx), s.par.curve.Admitted → s.readableF a → s.readableF b → s.readableF r → d ≠ r →
    s.fNat r % s.modulus = (2 ^ 256 * 2 ^ 256) % s.modulus →
    ∃ t u v, exec (.fmont d a b) s = .next t ∧ exec (.fmont d d r) t = .next u ∧ exec (.fmul d a b) s = .next v
      ∧ u.f[d] = v.f[d]

/-- FINV writes the inverse where its source is not 0 mod p, and ends with DivisionByZero, the destination unchanged, where it is
(R136; 60_exceptions.md R271). -/
def Obligations.FinvInvertsOrDividesByZero : Prop :=
  ∀ (s : State) (d a : FIdx), s.par.curve.Admitted → s.readableF a →
    (s.fNat a % s.modulus ≠ 0 → ∃ t, exec (.finv d a) s = .next t ∧ Frame s t [d] [] ∧ t.fOk d = true
      ∧ 0 < t.fNat d ∧ t.fNat d < s.modulus ∧ (s.fNat a * t.fNat d) % s.modulus = 1)
    ∧ (s.fNat a % s.modulus = 0 → exec (.finv d a) s = .next (s.endedWith 2#4 0#4))

/-- FSQRT writes a verified root where its source is a square mod p, the one that is itself a square, and ends with
NoSquareRoot, the destination unchanged, where it is not (R137). -/
def Obligations.FsqrtFindsTheRootOfEverySquare : Prop :=
  ∀ (s : State) (d a : FIdx), s.par.curve.Admitted → s.readableF a →
    (IsSquare (s.fNat a : ZMod s.modulus) → ∃ t, exec (.fsqrt d a) s = .next t ∧ Frame s t [d] [] ∧ t.fOk d = true
      ∧ t.fNat d < s.modulus ∧ (t.fNat d * t.fNat d) % s.modulus = s.fNat a % s.modulus
      ∧ IsSquare (t.fNat d : ZMod s.modulus))
    ∧ (¬ IsSquare (s.fNat a : ZMod s.modulus) → exec (.fsqrt d a) s = .next (s.endedWith 3#4 0#4))

/-! ### Curve and point commands (42_curve.md, 43_point.md) -/

/-- PLDG writes `(Gx, Gy, 1)`, a point of the curve of order `n`, and PLDO writes `(1, 1, 0)`, the identity; both make all 24 words
valid and change nothing else (42_curve.md R152, R156, R157). -/
def Obligations.PointLoadsGiveGeneratorAndIdentity : Prop :=
  ∀ (s : State) (d : PIdx) [Fact s.par.curve.p.toNat.Prime], s.par.curve.Admitted →
    (∃ t, exec (.pldg d) s = .next t ∧ Frame s t [] [d] ∧ t.pOk d = true
      ∧ t.p[d].x.val = s.par.curve.gx ∧ t.p[d].y.val = s.par.curve.gy ∧ t.p[d].z.val = 1#256
      ∧ ∃ G : s.par.curve.weier.Point, s.holdsPoint t d G ∧ G ≠ 0 ∧ s.par.curve.n.toNat • G = 0)
    ∧ (∃ t, exec (.pldo d) s = .next t ∧ Frame s t [] [d] ∧ t.pOk d = true
      ∧ t.p[d].x.val = 1#256 ∧ t.p[d].y.val = 1#256 ∧ t.p[d].z.val = 0#256 ∧ s.holdsPoint t d 0)

/-- PSET reduces the three coordinates, and writes `(1, 1, 0)` where the third is 0 mod p, without validating; PGET copies the raw
words of a point to three different field registers (43_point.md R180, R181). -/
def Obligations.PsetReducesAndPgetCopies : Prop :=
  (∀ (s : State) (d : PIdx) (x y z : FIdx), 1 < s.modulus → s.readableF x → s.readableF y → s.readableF z →
    ∃ t, exec (.pset d x y z) s = .next t ∧ Frame s t [] [d] ∧ t.pOk d = true
      ∧ (s.fNat z % s.modulus = 0 → t.p[d].x.val = 1#256 ∧ t.p[d].y.val = 1#256 ∧ t.p[d].z.val = 0#256)
      ∧ (s.fNat z % s.modulus ≠ 0 → t.p[d].x.val.toNat = s.fNat x % s.modulus
          ∧ t.p[d].y.val.toNat = s.fNat y % s.modulus ∧ t.p[d].z.val.toNat = s.fNat z % s.modulus))
  ∧ (∀ (s : State) (x y z : FIdx) (a : PIdx), (Instr.pget x y z a).wf = true → s.readableP a →
    ∃ t, exec (.pget x y z a) s = .next t ∧ Frame s t [x, y, z] []
      ∧ t.fOk x = true ∧ t.fOk y = true ∧ t.fOk z = true
      ∧ t.f[x].val = s.p[a].x.val ∧ t.f[y].val = s.p[a].y.val ∧ t.f[z].val = s.p[a].z.val)

/-- Every point result is canonical: a command that completes without an error leaves in each point register it names as a
destination `(1, 1, 0)`, or coordinates in `[0, p)` with `Z ≠ 0`, all words valid; and it changes no other point register
(43_point.md R173; 10_state.md R34). -/
def Obligations.WrittenPointsAreCanonical : Prop :=
  ∀ (i : Instr) (s t : State) (j : PIdx), s.par.curve.Admitted → s.status.err = 0#4 → exec i s = .next t → t.status.err = 0#4 →
    (Dest.p j ∈ destsOf i → t.pOk j = true ∧ s.par.curve.Canonical (t.pRaw j))
    ∧ (Dest.p j ∉ destsOf i → t.p[j] = s.p[j])

/-- PADD, PDBL and PNEG compute the group law of the curve: on operands that represent points they write representatives of the
sum, the double and the negative, for all representatives, equal, opposite and identity operands among them (43_point.md R174,
R175, R176, R183; the group is Mathlib's). -/
def Obligations.PointCommandsComputeTheGroupLaw : Prop :=
  ∀ (s : State) (d a b : PIdx) [Fact s.par.curve.p.toNat.Prime] (Q R : s.par.curve.weier.Point), s.par.curve.Admitted →
    s.readableP a → s.readableP b → s.holdsPoint s a Q → s.holdsPoint s b R →
    (∃ t, exec (.padd d a b) s = .next t ∧ Frame s t [] [d] ∧ t.pOk d = true ∧ s.holdsPoint t d (Q + R))
    ∧ (∃ t, exec (.pdbl d a) s = .next t ∧ Frame s t [] [d] ∧ t.pOk d = true ∧ s.holdsPoint t d (Q + Q))
    ∧ (∃ t, exec (.pneg d a) s = .next t ∧ Frame s t [] [d] ∧ t.pOk d = true ∧ s.holdsPoint t d (-Q))

/-- PDBL and PNEG on every operand, on the curve or not: the exact coordinates mod p of R175 and R174, and `(1, 1, 0)` for an
identity operand and, for PDBL, where `2·Y·Z` is 0 mod p (43_point.md R174, R175, R183). -/
def Obligations.DoubleAndNegateCoordinates : Prop :=
  ∀ (s : State) (d a : PIdx), 1 < s.modulus → s.readableP a →
    (∃ t, exec (.pdbl d a) s = .next t ∧ Frame s t [] [d] ∧ t.pOk d = true ∧
      let X := s.xMod a
      let Y := s.yMod a
      let Z := s.zMod a
      let A : ZMod s.modulus := (s.par.curve.a.toNat : ZMod s.modulus)
      let S := 4 * X * Y ^ 2
      let M := 3 * X ^ 2 + A * Z ^ 4
      if Z = 0 ∨ 2 * Y * Z = 0 then t.pRaw d = ⟨1, 1, 0⟩
      else (t.p[d].x.val.toNat : ZMod s.modulus) = M ^ 2 - 2 * S
        ∧ (t.p[d].y.val.toNat : ZMod s.modulus) = M * (S - (M ^ 2 - 2 * S)) - 8 * Y ^ 4
        ∧ (t.p[d].z.val.toNat : ZMod s.modulus) = 2 * Y * Z)
    ∧ (∃ t, exec (.pneg d a) s = .next t ∧ Frame s t [] [d] ∧ t.pOk d = true ∧
      if s.zMod a = 0 then t.pRaw d = ⟨1, 1, 0⟩
      else (t.p[d].x.val.toNat : ZMod s.modulus) = s.xMod a ∧ (t.p[d].y.val.toNat : ZMod s.modulus) = - s.yMod a
        ∧ (t.p[d].z.val.toNat : ZMod s.modulus) = s.zMod a)

/-- PADD on every pair of operands, on the curve or not: the four steps of R176 and the exact coordinates mod p of its step 4
(43_point.md R176, R183, R185). -/
def Obligations.AddCoordinates : Prop :=
  ∀ (s : State) (d a b : PIdx), 1 < s.modulus → s.readableP a → s.readableP b →
    ∃ t u, exec (.padd d a b) s = .next t ∧ Frame s t [] [d] ∧ t.pOk d = true ∧ exec (.pdbl d a) s = .next u ∧
      let U1 := s.xMod a * s.zMod b ^ 2
      let U2 := s.xMod b * s.zMod a ^ 2
      let S1 := s.yMod a * s.zMod b ^ 3
      let S2 := s.yMod b * s.zMod a ^ 3
      let H := U2 - U1
      let R := S2 - S1
      let X3 := R ^ 2 - H ^ 3 - 2 * U1 * H ^ 2
      let Z3 := H * s.zMod a * s.zMod b
      if s.zMod a = 0 then t.pRaw d = s.pVal b
      else if s.zMod b = 0 then t.pRaw d = s.pVal a
      else if U1 = U2 ∧ S1 = S2 then t.p[d] = u.p[d]
      else if U1 = U2 ∧ S1 = -S2 then t.pRaw d = ⟨1, 1, 0⟩
      else if Z3 = 0 then t.pRaw d = ⟨1, 1, 0⟩
      else (t.p[d].x.val.toNat : ZMod s.modulus) = X3
        ∧ (t.p[d].y.val.toNat : ZMod s.modulus) = R * (U1 * H ^ 2 - X3) - S1 * H ^ 3
        ∧ (t.p[d].z.val.toNat : ZMod s.modulus) = Z3

/-- PEQ writes EQ with equality by cross-multiplication, PTST with the identity test, on every operand, and nothing else changes
(43_point.md R171, R177, R186, R187). -/
def Obligations.EqualityAndIdentityTestsWriteEq : Prop :=
  ∀ (s : State) (a b : PIdx), 0 < s.modulus → s.readableP a → s.readableP b →
    (∃ t, exec (.peq a b) s = .next t ∧ FrameButEq s t [] [] ∧
      (t.status.eqFlag = true ↔ (s.zMod a = 0 ∧ s.zMod b = 0) ∨ (s.zMod a ≠ 0 ∧ s.zMod b ≠ 0
        ∧ s.xMod a * s.zMod b ^ 2 = s.xMod b * s.zMod a ^ 2 ∧ s.yMod a * s.zMod b ^ 3 = s.yMod b * s.zMod a ^ 3)))
    ∧ (∃ t, exec (.ptst a) s = .next t ∧ FrameButEq s t [] [] ∧ (t.status.eqFlag = true ↔ s.p[a].z.val.toNat % s.modulus = 0))

/-- `eq` is "a total, reflexive, symmetric, transitive relation"; on finite triples it compares the affine points, and every
identity triple is in one class (43_point.md R189). -/
def Obligations.PointEqualityIsAnEquivalence : Prop :=
  ∀ (c : Curve) [Fact c.p.toNat.Prime] (T U V : Triple),
    c.eqPt T T = true ∧ (c.eqPt T U = true → c.eqPt U T = true)
    ∧ (c.eqPt T U = true → c.eqPt U V = true → c.eqPt T V = true)
    ∧ (c.isId T = true → (c.eqPt T U = true ↔ c.isId U = true))
    ∧ (c.isId T = false → c.isId U = false → (c.eqPt T U = true ↔
        (T.x : ZMod c.p.toNat) / (T.z : ZMod c.p.toNat) ^ 2 = (U.x : ZMod c.p.toNat) / (U.z : ZMod c.p.toNat) ^ 2
        ∧ (T.y : ZMod c.p.toNat) / (T.z : ZMod c.p.toNat) ^ 3 = (U.y : ZMod c.p.toNat) / (U.z : ZMod c.p.toNat) ^ 3))

/-- PVAL passes the identity and every finite triple whose affine point satisfies the curve equation, writing nothing, and ends
with InvalidPoint, ERRINFO 1, on every other (43_point.md R178, R188). -/
def Obligations.PvalAcceptsExactlyTheCurve : Prop :=
  ∀ (s : State) (a : PIdx) [Fact s.modulus.Prime], s.readableP a →
    let x := s.xMod a / s.zMod a ^ 2
    let y := s.yMod a / s.zMod a ^ 3
    let on := y ^ 2 = x ^ 3 + (s.par.curve.a.toNat : ZMod s.modulus) * x + (s.par.curve.b.toNat : ZMod s.modulus)
    (s.zMod a = 0 ∨ on → ∃ t, exec (.pval a) s = .next t ∧ Frame s t [] [])
    ∧ (s.zMod a ≠ 0 → ¬ on → exec (.pval a) s = .next (s.endedWith 1#4 1#4))

/-- TOAFF writes the affine coordinates, reduced, with Z = 1, and ends with InvalidPoint, ERRINFO 2, on the identity
(43_point.md R179, R190). -/
def Obligations.ToaffGivesAffineCoordinates : Prop :=
  ∀ (s : State) (d a : PIdx), s.par.curve.Admitted → s.readableP a →
    (s.zMod a ≠ 0 → ∃ t, exec (.toaff d a) s = .next t ∧ Frame s t [] [d] ∧ t.pOk d = true
      ∧ t.p[d].x.val.toNat < s.modulus ∧ t.p[d].y.val.toNat < s.modulus ∧ t.p[d].z.val = 1#256
      ∧ (t.p[d].x.val.toNat : ZMod s.modulus) * s.zMod a ^ 2 = s.xMod a
      ∧ (t.p[d].y.val.toNat : ZMod s.modulus) * s.zMod a ^ 3 = s.yMod a)
    ∧ (s.zMod a = 0 → exec (.toaff d a) s = .next (s.endedWith 1#4 2#4))

/-! ### Scalar multiplication (44_scalar.md, 45_verified.md) -/

/-- SMUL computes the multiple: on an operand that represents a point `Q` it writes a representative of `(k mod n) • Q`, which is
`k • Q` for the register's signed value `k` where `n • Q = 0`, with the VERIFY sample 0, or with either sample under
`FAULT_MODEL = none`; a finite operand off the curve ends with InvalidPoint, ERRINFO 1, for every scalar, 0 among them, with
either sample under either fault model (44_scalar.md R211 to R215). -/
def Obligations.SmulComputesTheMultiple : Prop :=
  ∀ (s : State) (d : PIdx) (k : SIdx) (a : PIdx) [Fact s.par.curve.p.toNat.Prime], s.par.curve.Admitted →
    s.readableS k → s.readableP a →
    ((s.verifySample = false ∨ s.par.faultModel = .none) → ∀ Q : s.par.curve.weier.Point, s.holdsPoint s a Q →
      ∃ t, exec (.smul d k a) s = .next t ∧ Frame s t [] [d]
        ∧ t.pOk d = true ∧ s.holdsPoint t d ((s.sc[k].val.toInt % (s.par.curve.n.toNat : Int)) • Q)
        ∧ (s.par.curve.n.toNat • Q = 0 → s.holdsPoint t d (s.sc[k].val.toInt • Q)))
    ∧ ((∀ Q : s.par.curve.weier.Point, ¬ s.holdsPoint s a Q) → exec (.smul d k a) s = .next (s.endedWith 1#4 1#4))

/-- The exact triple SMUL writes, for every scalar, with the VERIFY sample 0 or with either sample under `FAULT_MODEL = none`.
Scalars 0 mod n and identity operands give `(1, 1, 0)`, a scalar 1 mod n gives the operand's reduced triple itself, and scalars
equal mod n give the same state. For a finite operand and `m ≥ 1`, a scalar `2m` mod n gives the triple PDBL writes from the triple
of `m`, and a scalar `2m + 1` mod n the triple PADD then writes from that one and the operand, in this order (44_scalar.md R211,
R213, R214, R215). -/
def Obligations.SmulExactTriples : Prop :=
  ∀ (s : State) (d : PIdx) (k : SIdx) (a : PIdx), s.par.curve.Admitted → s.readableS k → s.readableP a →
    (s.verifySample = false ∨ s.par.faultModel = .none) → (∃ Q, s.holdsPoint s a Q) →
    ∃ t, exec (.smul d k a) s = .next t
      ∧ (s.sc[k].val.toInt % (s.par.curve.n.toNat : Int) = 0 ∨ s.zMod a = 0 → t.pRaw d = ⟨1, 1, 0⟩)
      ∧ (s.sc[k].val.toInt % (s.par.curve.n.toNat : Int) = 1 → s.zMod a ≠ 0 → t.pRaw d = s.pVal a)
      ∧ (∀ k' : SIdx, s.readableS k' → s.sc[k'].val.toInt % (s.par.curve.n.toNat : Int)
          = s.sc[k].val.toInt % (s.par.curve.n.toNat : Int) → exec (.smul d k' a) s = .next t)
      ∧ ∀ (j : SIdx) (e : PIdx) (m : Nat), s.readableS j → s.zMod a ≠ 0 → e ≠ a → 1 ≤ m →
          s.sc[j].val.toInt % (s.par.curve.n.toNat : Int) = m →
          ∃ u v w, exec (.smul e j a) s = .next u ∧ exec (.pdbl e e) u = .next v ∧ exec (.padd e e a) v = .next w
            ∧ (s.sc[k].val.toInt % (s.par.curve.n.toNat : Int) = 2 * m → t.p[d] = v.p[e])
            ∧ (s.sc[k].val.toInt % (s.par.curve.n.toNat : Int) = 2 * m + 1 → t.p[d] = w.p[e])

/-- The source's guarantees of SMUL under `eq`, on a point of order dividing `n`: `n·P` and `0·P` are the identity, `1·P` is `P`, and
the product by a sum of scalars is the sum of the products, with the VERIFY sample 0, or with either sample under
`FAULT_MODEL = none` (44_scalar.md R216; 43_point.md R176, R177). -/
def Obligations.SmulGuarantees : Prop :=
  ∀ (s : State) (d : PIdx) (j k m : SIdx) (a : PIdx) [Fact s.par.curve.p.toNat.Prime] (Q : s.par.curve.weier.Point),
    s.par.curve.Admitted → s.readableS j → s.readableS k → s.readableS m → s.readableP a →
    (s.verifySample = false ∨ s.par.faultModel = .none) → s.holdsPoint s a Q → s.par.curve.n.toNat • Q = 0 →
    ∃ t u v, exec (.smul d j a) s = .next t ∧ exec (.smul d k a) s = .next u ∧ exec (.smul d m a) s = .next v
      ∧ (s.sc[m].val.toInt = s.sc[j].val.toInt + s.sc[k].val.toInt →
          s.par.curve.eqPt (v.pVal d) (s.par.curve.add (t.pVal d) (u.pVal d)) = true)
      ∧ (s.sc[j].val.toInt = (s.par.curve.n.toNat : Int) ∨ s.sc[j].val.toInt = 0 → s.par.curve.isId (t.pVal d) = true)
      ∧ (s.sc[j].val.toInt = 1 → s.par.curve.eqPt (t.pVal d) (s.pVal a) = true)

/-- VSMUL under `FAULT_MODEL = none` computes the multiple: on an operand that represents a point `Q` it writes a representative of
`(k mod n) • Q`, its two paths never disagreeing. Under either fault model a finite operand off the curve ends with
InvalidPoint, ERRINFO 1, for every scalar, before any draw (45_verified.md R230 to R233). -/
def Obligations.VsmulComputesTheMultiple : Prop :=
  ∀ (s : State) (d : PIdx) (k : SIdx) (a : PIdx) [Fact s.par.curve.p.toNat.Prime], s.par.curve.Admitted →
    s.readableS k → s.readableP a →
    (s.par.faultModel = .none → ∀ Q : s.par.curve.weier.Point, s.holdsPoint s a Q →
      ∃ t, exec (.vsmul d k a) s = .next t ∧ Frame s t [] [d]
        ∧ t.pOk d = true ∧ s.holdsPoint t d ((s.sc[k].val.toInt % (s.par.curve.n.toNat : Int)) • Q))
    ∧ ((∀ Q : s.par.curve.weier.Point, ¬ s.holdsPoint s a Q) → exec (.vsmul d k a) s = .next (s.endedWith 1#4 1#4))

/-- Under `FAULT_MODEL = none` VSMUL is SMUL with VERIFY = 0: from every state, whatever was sampled for it, it ends as SMUL ends in
the same state with the sample 0, the register written and the error reported among it (45_verified.md R234). -/
def Obligations.VsmulIsIndistinguishableFromSmul : Prop :=
  ∀ (s : State) (d : PIdx) (k : SIdx) (a : PIdx) (w : Word), s.par.curve.Admitted → s.par.faultModel = .none →
    exec (.vsmul d k a) s = exec (.smul d k a) { s with latch := some ⟨w, false⟩ }

/-- Under `FAULT_MODEL = detect_any`, VSMUL on a point `Q` of the curve with a scalar that is not 0 mod n either reports
IntegrityCheckFailed and writes nothing else, or writes the multiple, in the very triple SMUL with the sample 0 writes (path 1's);
the identity operand and the scalar 0 mod n cannot report it (45_verified.md R232, R233). The model's draw counter may advance
(log 7). -/
def Obligations.DetectedFaultWritesNothing : Prop :=
  ∀ (s : State) (d : PIdx) (k : SIdx) (a : PIdx) (word : Word) [Fact s.par.curve.p.toNat.Prime] (Q : s.par.curve.weier.Point),
    s.par.curve.Admitted → s.par.faultModel = .detectAny → s.readableS k → s.readableP a → s.holdsPoint s a Q →
    ∃ t u, exec (.vsmul d k a) s = .next t ∧ exec (.smul d k a) { s with latch := some ⟨word, false⟩ } = .next u ∧
      ((Q ≠ 0 ∧ s.sc[k].val.toInt % (s.par.curve.n.toNat : Int) ≠ 0
          ∧ { t with draws := s.draws } = s.endedWith 4#4 0#4)
        ∨ (Frame s { t with draws := s.draws } [] [d] ∧ t.pOk d = true ∧ t.p[d] = u.p[d]
          ∧ s.holdsPoint t d ((s.sc[k].val.toInt % (s.par.curve.n.toNat : Int)) • Q)))

/-! ### Codec (46_codec.md) -/

/-- CBIT writes the parity of the affine y, not of the register's Y, and ends with InvalidPoint, ERRINFO 2, on the identity
(R246, R247). -/
def Obligations.CbitIsTheParityOfTheAffineY : Prop :=
  ∀ (s : State) (d : FIdx) (a : PIdx), s.par.curve.Admitted → s.readableP a →
    (∀ y : Nat, s.zMod a ≠ 0 → y < s.modulus → (y : ZMod s.modulus) * s.zMod a ^ 3 = s.yMod a →
      ∃ t, exec (.cbit d a) s = .next t ∧ Frame s t [d] [] ∧ t.fOk d = true ∧ t.fNat d = y % 2)
    ∧ (s.zMod a = 0 → exec (.cbit d a) s = .next (s.endedWith 1#4 2#4))

/-- DECOMP writes the point of the curve with the given x whose y has the given parity, and ends with NoSquareRoot, the
destination unchanged, where the curve has no point with this x (R248; 41_field.md R137). -/
def Obligations.DecompFindsThePointWithThisParity : Prop :=
  ∀ (s : State) (d : PIdx) (x b : FIdx), s.par.curve.Admitted → s.readableF x → s.readableF b →
    let X : ZMod s.modulus := (s.fNat x : ZMod s.modulus)
    let rhs := X ^ 3 + (s.par.curve.a.toNat : ZMod s.modulus) * X + (s.par.curve.b.toNat : ZMod s.modulus)
    (IsSquare rhs → ∃ t, exec (.decomp d x b) s = .next t ∧ Frame s t [] [d] ∧ t.pOk d = true
      ∧ t.p[d].x.val.toNat = s.fNat x % s.modulus ∧ t.p[d].z.val = 1#256 ∧ t.p[d].y.val.toNat < s.modulus
      ∧ (t.p[d].y.val.toNat : ZMod s.modulus) ^ 2 = rhs
      ∧ (rhs ≠ 0 → t.p[d].y.val.toNat % 2 = s.fNat b % 2))
    ∧ (¬ IsSquare rhs → exec (.decomp d x b) s = .next (s.endedWith 3#4 0#4))

/-- The compression round trip: CBIT of a finite point and then DECOMP of its affine x with that bit gives the point back, and
DECOMP with the opposite bit gives its negative (R249). -/
def Obligations.CompressionRoundTrip : Prop :=
  ∀ (s : State) (d a : PIdx) (x b : FIdx) [Fact s.par.curve.p.toNat.Prime] (X Y : ZMod s.par.curve.p.toNat)
    (h : s.par.curve.weier.Nonsingular X Y), s.par.curve.Admitted → s.readableP a → s.readableF x → x ≠ b →
    s.holdsPoint s a (.some X Y h) → (s.fNat x : ZMod s.par.curve.p.toNat) = X →
    ∃ t u, exec (.cbit b a) s = .next t ∧ exec (.decomp d x b) t = .next u ∧ s.holdsPoint u d (.some X Y h)
      ∧ ∀ t' : State, t'.par = t.par → t'.f[x] = t.f[x] → t'.fOk b = true → t'.fNat b = 1 - t.fNat b →
        ∃ u', exec (.decomp d x b) t' = .next u' ∧ s.holdsPoint u' d (-(.some X Y h))

/-! ### The host port and the resets (10_state.md, 20_memory.md, 70_reset_and_hazards.md) -/

/-- What reads of CTRL, CMD and STATUS return, bit by bit, in flight and idle, and the interrupt output (10_state.md R45, R46, R47,
R63; 60_exceptions.md R290). -/
def Obligations.ControlReadsReturnTheirBits : Prop :=
  ∀ s : State,
    hostRead (s.par.base + 0x004) 4 s = .next { s with replies := s.ctrlWord :: s.replies }
    ∧ hostRead (s.par.base + 0x008) 4 s = .next { s with replies := s.cmd :: s.replies }
    ∧ hostRead (s.par.base + 0x00C) 4 s = .next { s with replies := s.statusWord :: s.replies }
    ∧ (∀ i, s.statusWord.getLsbD i =
      if i = 0 then s.busy else if i = 1 then s.status.done else if i = 2 then s.status.eqFlag
      else if i = 3 then s.status.accErr else if i < 8 then false else if i < 12 then s.status.err.getLsbD (i - 8)
      else if i < 16 then s.status.errInfo.getLsbD (i - 12) else false)
    ∧ (∀ i, s.ctrlWord.getLsbD i = if i = 0 then s.ctrl.irqEn else if i = 1 then s.ctrl.verify else false)
    ∧ s.irq = (s.ctrlWord.getLsbD 0 && s.statusWord.getLsbD 1)

/-- A host write `v` to CTRL with bit 31 clear sets IRQ_EN and VERIFY from bits 0 and 1 and changes nothing else, while a command is
in flight too, whose VERIFY sample stays (10_state.md R45, R55; 20_memory.md R79). -/
def Obligations.CtrlWriteSetsTheEnables : Prop :=
  ∀ (s : State) (v : Word), v.getLsbD 31 = false → ∃ t, hostWrite (s.par.base + 0x004) 4 v s = .next t
    ∧ t.ctrlWord = v &&& 3#32 ∧ { t with ctrl := s.ctrl } = s

/-- A host write `v` to STATUS clears DONE if `v[1] = 1` and ACCERR if `v[3] = 1` and does nothing else, while a command is in
flight too (10_state.md R48). -/
def Obligations.StatusWriteAcknowledges : Prop :=
  ∀ (s : State) (v : Word), ∃ t, hostWrite (s.par.base + 0x00C) 4 v s = .next t ∧
    (∀ i, t.statusWord.getLsbD i = (s.statusWord.getLsbD i && !((i == 1 || i == 3) && v.getLsbD i)))
    ∧ { t with status := s.status } = s

/-- While a command is in flight, a host write to CMD or to any word of the F, P or S windows is dropped, the register keeping its
value and validity, and sets ACCERR (20_memory.md R78). -/
def Obligations.BusyWritesAreDropped : Prop :=
  ∀ (s : State) (off : Nat) (v : Word), s.busy = true → off % 4 = 0 → (off = 0x008 ∨ (0x100 ≤ off ∧ off < 0x700)) →
    hostWrite (s.par.base + off) 4 v s = .next { s with status := { s.status with accErr := true } }

/-- While a command is in flight, a read of an F, P or S word returns a draw; a read of STATUS returns what it would return when
idle but for bit 0, BUSY, which is 1; every other read returns what it would return when idle (20_memory.md R79; log 6). -/
def Obligations.BusyReadsOfOperandsAreDraws : Prop :=
  ∀ (s : State) (off : Nat), s.busy = true → off % 4 = 0 → off < 0x800 →
    (0x100 ≤ off → off < 0x700 →
      hostRead (s.par.base + off) 4 s
        = .next { s with replies := Config.freeWord s.draws :: s.replies, draws := s.draws + 1 })
    ∧ (off < 0x100 ∨ 0x700 ≤ off → ∃ v idle, hostRead (s.par.base + off) 4 s = .next { s with replies := v :: s.replies }
      ∧ hostRead (s.par.base + off) 4 { s with latch := none } = .next { s with latch := none, replies := idle :: s.replies }
      ∧ (off = 0x00C → v = idle ||| 1#32 ∧ idle.getLsbD 0 = false) ∧ (off ≠ 0x00C → v = idle))

/-- A read has no side effect at any offset: only the host's own replies and the model's draw counter change (20_memory.md R81). -/
def Obligations.ReadsChangeNoState : Prop :=
  ∀ (s t : State) (addr width : Nat), hostRead addr width s = .next t →
    width = 4 ∧ { t with replies := s.replies, draws := s.draws } = s ∧ ∃ v, t.replies = v :: s.replies

/-- What a host read of one word of a register returns in an idle block: the word where it is valid, and a draw where it is not. -/
def Sys2Proof.Claims.replyOfWord {w k : Nat} (s : State) (r : Reg w k) (i : Nat) : Out :=
  if r.valid.getLsbD i then .next { s with replies := r.val.extractLsb' (32 * i) 32 :: s.replies }
  else .next { s with replies := Config.freeWord s.draws :: s.replies, draws := s.draws + 1 }

/-- The word windows are memory-like when idle: a word written to an F, P or S word is read back from its offset, and the write
changes what is read at no other offset of the window (20_memory.md R72, R73, R80); a read of a valid word of an F, P or S register
returns that word, and a read of an invalid one returns a draw (10_state.md R62; log 6). -/
def Obligations.WriteThenReadOfTheWindow : Prop :=
  (∀ (s : State) (off : Nat) (v : Word), s.busy = false → off % 4 = 0 → 0x100 ≤ off → off < 0x700 →
    ∃ t, hostWrite (s.par.base + off) 4 v s = .next t
      ∧ hostRead (s.par.base + off) 4 t = .next { t with replies := v :: t.replies }
      ∧ ∀ off', off' % 4 = 0 → off' < 0x800 → off' ≠ off → t.look (slotAt off') = s.look (slotAt off'))
  ∧ (∀ s : State, s.busy = false →
    (∀ (i : FIdx) (w : Nat), w < 8 →
      hostRead (s.par.base + (0x100 + 0x20 * i.val + 4 * w)) 4 s = Sys2Proof.Claims.replyOfWord s s.f[i] w)
    ∧ (∀ (i : PIdx) (w : Nat), w < 8 →
      hostRead (s.par.base + (0x300 + 0x60 * i.val + 4 * w)) 4 s = Sys2Proof.Claims.replyOfWord s s.p[i].x w
      ∧ hostRead (s.par.base + (0x320 + 0x60 * i.val + 4 * w)) 4 s = Sys2Proof.Claims.replyOfWord s s.p[i].y w
      ∧ hostRead (s.par.base + (0x340 + 0x60 * i.val + 4 * w)) 4 s = Sys2Proof.Claims.replyOfWord s s.p[i].z w)
    ∧ (∀ (i : SIdx) (w : Nat), w < 16 →
      hostRead (s.par.base + (0x600 + 0x40 * i.val + 4 * w)) 4 s = Sys2Proof.Claims.replyOfWord s s.sc[i] w))

/-- The byte at offset `o + b` of a register at offset `o` is bits `[8b+7 : 8b]` of its value: every register of the window is
little-endian, the four one-word registers ID, CTRL, CMD and STATUS, the F, P and S registers and the curve parameters
(20_memory.md R72, R73, R75). -/
def Obligations.RegistersAreLittleEndian : Prop :=
  ∀ s : State, s.busy = false →
    (∀ b, b < 4 → s.windowByte (0x000 + b) = some ((0x57430001#32).extractLsb' (8 * b) 8)
      ∧ s.windowByte (0x004 + b) = some (s.ctrlWord.extractLsb' (8 * b) 8)
      ∧ s.windowByte (0x008 + b) = some (s.cmd.extractLsb' (8 * b) 8)
      ∧ s.windowByte (0x00C + b) = some (s.statusWord.extractLsb' (8 * b) 8))
    ∧ (∀ (i : FIdx) (b : Nat), b < 32 → s.fOk i = true →
      s.windowByte (0x100 + 0x20 * i.val + b) = some (s.f[i].val.extractLsb' (8 * b) 8))
    ∧ (∀ (i : PIdx) (b : Nat), b < 32 → s.pOk i = true →
      s.windowByte (0x300 + 0x60 * i.val + b) = some (s.p[i].x.val.extractLsb' (8 * b) 8)
      ∧ s.windowByte (0x320 + 0x60 * i.val + b) = some (s.p[i].y.val.extractLsb' (8 * b) 8)
      ∧ s.windowByte (0x340 + 0x60 * i.val + b) = some (s.p[i].z.val.extractLsb' (8 * b) 8))
    ∧ (∀ (i : SIdx) (b : Nat), b < 64 → s.sOk i = true →
      s.windowByte (0x600 + 0x40 * i.val + b) = some (s.sc[i].val.extractLsb' (8 * b) 8))
    ∧ (∀ b, b < 32 → s.windowByte (0x700 + b) = some (s.par.curve.p.extractLsb' (8 * b) 8)
      ∧ s.windowByte (0x720 + b) = some (s.par.curve.a.extractLsb' (8 * b) 8)
      ∧ s.windowByte (0x740 + b) = some (s.par.curve.b.extractLsb' (8 * b) 8)
      ∧ s.windowByte (0x760 + b) = some (s.par.curve.n.extractLsb' (8 * b) 8)
      ∧ s.windowByte (0x780 + b) = some (s.par.curve.gx.extractLsb' (8 * b) 8)
      ∧ s.windowByte (0x7A0 + b) = some (s.par.curve.gy.extractLsb' (8 * b) 8)
      ∧ s.windowByte (0x7C0 + b) = some (s.par.curve.h.extractLsb' (8 * b) 8))

/-- Reserved offsets read 0 and ignore writes, and writes to ID and the curve-parameter registers are ignored; none of them sets
ACCERR, in flight or idle (20_memory.md R76; 10_state.md R44). -/
def Obligations.ReservedAndReadOnlyOffsets : Prop :=
  ∀ (s : State) (off : Nat) (v : Word), off % 4 = 0 →
    (((0x010 ≤ off ∧ off < 0x100) ∨ (0x7E0 ≤ off ∧ off < 0x800)) →
      hostRead (s.par.base + off) 4 s = .next { s with replies := 0#32 :: s.replies })
    ∧ (off = 0x000 → hostRead (s.par.base + off) 4 s = .next { s with replies := 0x57430001#32 :: s.replies })
    ∧ ((off = 0x000 ∨ (0x010 ≤ off ∧ off < 0x100) ∨ (0x700 ≤ off ∧ off < 0x800)) →
      hostWrite (s.par.base + off) 4 v s = .next s)

/-- An access that is not an aligned 32-bit word is refused as a bus error, read or write (20_memory.md R77). -/
def Obligations.UnalignedOrNarrowAccessIsRefused : Prop :=
  ∀ (s : State) (off width : Nat) (v : Word), off < 0x800 → (width ≠ 4 ∨ off % 4 ≠ 0) →
    hostRead (s.par.base + off) width s = .refused .busError ∧ hostWrite (s.par.base + off) width v s = .refused .busError

/-- Soft reset by a CTRL write with bit 31: CTRL, STATUS and CMD take their reset values and the latch is emptied; scalar
registers, the instance and every register that is no destination of a legal command in flight keep contents and validity, and
every word of each such destination is invalid, so that no command may read it, under either rule of log 4 (70_reset_and_hazards.md
R313, R314; 10_state.md R62). -/
def Obligations.SoftResetKeepsRegistersAndAborts : Prop :=
  ∀ (s : State) (v : Word), v.getLsbD 31 = true → ∃ t, hostWrite (s.par.base + 0x004) 4 v s = .next t
    ∧ t.ctrlWord = (if s.par.verifyReset then 2#32 else 0#32) ∧ t.statusWord = 0#32 ∧ t.cmd = 0#32 ∧ t.latch = none
    ∧ t.par = s.par ∧ t.sc = s.sc ∧ t.inbox = s.inbox ∧ t.replies = s.replies
    ∧ (∀ j : FIdx, (∃ l i, s.latch = some l ∧ decode l.word = .ok i ∧ Dest.f j ∈ destsOf i
          ∧ t.f[j].valid = 0#8 ∧ ¬ t.readableF j)
        ∨ ((∀ l i, s.latch = some l → decode l.word = .ok i → Dest.f j ∉ destsOf i) ∧ t.f[j] = s.f[j]))
    ∧ (∀ j : PIdx, (∃ l i, s.latch = some l ∧ decode l.word = .ok i ∧ Dest.p j ∈ destsOf i
          ∧ t.p[j].x.valid = 0#8 ∧ t.p[j].y.valid = 0#8 ∧ t.p[j].z.valid = 0#8 ∧ ¬ t.readableP j)
        ∨ ((∀ l i, s.latch = some l → decode l.word = .ok i → Dest.p j ∉ destsOf i) ∧ t.p[j] = s.p[j]))

/-- After a hard reset, from any state, every word of every F, P and S register is invalid, CTRL shows VERIFY_RESET, STATUS and CMD
read 0, the latch is empty, and nothing was written by a command in flight; ID and the curve parameters are as before
(70_reset_and_hazards.md R310; 10_state.md R65). -/
def Obligations.HardResetValues : Prop :=
  ∀ (s : State) (rest : List Event), s.par.Admitted → s.inbox = .hardReset :: rest → ∃ t, step s = .next t
    ∧ (∀ j : FIdx, t.f[j].valid = 0#8) ∧ (∀ j : PIdx, t.p[j].x.valid = 0#8 ∧ t.p[j].y.valid = 0#8 ∧ t.p[j].z.valid = 0#8)
    ∧ (∀ j : SIdx, t.sc[j].valid = 0#16) ∧ t.ctrlWord = (if s.par.verifyReset then 2#32 else 0#32) ∧ t.statusWord = 0#32
    ∧ t.cmd = 0#32 ∧ t.latch = none ∧ t.irq = false ∧ t.par = s.par ∧ t.inbox = rest
    ∧ t.look (slotAt 0x000) = some 0x57430001#32 ∧ ∀ (r : CpReg) (w : Fin 8), t.look (.cp r w)
      = some ((cpContents s.par.curve r).extractLsb' (32 * w.val) 32)

/-- Two contents of a register that differ at most in words no command may read under the rule `u`, nor the host (10_state.md R62). -/
def Sys2Proof.Claims.sameReadableWords {w k : Nat} (u : UninitRule) (r q : Reg w k) : Prop :=
  r.valid = q.valid ∧ r.aborted = q.aborted
    ∧ ∀ i < k, (r.valid.getLsbD i = true ∨ (u = .resetValues ∧ r.aborted.getLsbD i = false)) → getWord r.val i = getWord q.val i

/-- The relation of `UnspecifiedContentsDoNotMatter`: two states that differ at most so, in F, P and S registers. -/
structure Sys2Proof.Claims.AgreeOnReadable (s t : State) : Prop where
  f     : ∀ j : FIdx, Sys2Proof.Claims.sameReadableWords s.par.uninit s.f[j] t.f[j]
  px    : ∀ j : PIdx, Sys2Proof.Claims.sameReadableWords s.par.uninit s.p[j].x t.p[j].x
  py    : ∀ j : PIdx, Sys2Proof.Claims.sameReadableWords s.par.uninit s.p[j].y t.p[j].y
  pz    : ∀ j : PIdx, Sys2Proof.Claims.sameReadableWords s.par.uninit s.p[j].z t.p[j].z
  sc    : ∀ j : SIdx, Sys2Proof.Claims.sameReadableWords s.par.uninit s.sc[j] t.sc[j]
  other : { s with f := t.f, p := t.p, sc := t.sc } = t

/-- Unspecified contents do not matter: from two states that differ at most in the contents of words no command may read, no step can
tell them apart; both stop for the same reason, or both go on to states that again differ at most so, with the same replies to the
host. Under the spec's model rule these are all the invalid words (10_state.md R62; 60_exceptions.md R278), under the model's
`resetValues` (log 4) the words an abort has made invalid (70_reset_and_hazards.md R314). -/
def Obligations.UnspecifiedContentsDoNotMatter : Prop :=
  ∀ s t : State, Sys2Proof.Claims.AgreeOnReadable s t →
    match step s, step t with
    | .next s', .next t' => Sys2Proof.Claims.AgreeOnReadable s' t'
    | .fault r, .fault r' => r = r'
    | .refused r, .refused r' => r = r'
    | _, _ => False
end

