-- ==== Sys2Proof/Laws/Arith.lean ====
section
/-! SUPPORT. What the arithmetic of Machine/Arith.lean computes: powers, inverses and square roots mod p. -/

namespace Sys2Proof.Laws

variable {c : Curve}

theorem pI_eq (c : Curve) : c.pI = (c.p.toNat : Int) := rfl

/-- Reducing mod p changes nothing mod p. -/
@[simp] theorem cast_emod_pI (c : Curve) (v : Int) : ((v % c.pI : Int) : ZMod c.p.toNat) = (v : ZMod c.p.toNat) := by
  rw [pI_eq]; exact ZMod.intCast_mod v _

theorem cast_eq_zero_iff (c : Curve) (v : Int) : (v : ZMod c.p.toNat) = 0 ↔ v % c.pI = 0 := by
  rw [ZMod.intCast_zmod_eq_zero_iff_dvd, pI_eq]; exact ⟨Int.emod_eq_zero_of_dvd, Int.dvd_of_emod_eq_zero⟩

theorem cast_eq_cast_iff (c : Curve) (v w : Int) :
    (v : ZMod c.p.toNat) = (w : ZMod c.p.toNat) ↔ v % c.pI = w % c.pI := by
  rw [ZMod.intCast_eq_intCast_iff, pI_eq]; rfl

theorem emod_nonneg_pI (h : 0 < c.p.toNat) (v : Int) : 0 ≤ v % c.pI :=
  Int.emod_nonneg _ (by rw [pI_eq]; omega)

theorem emod_lt_pI (h : 0 < c.p.toNat) (v : Int) : v % c.pI < c.pI :=
  Int.emod_lt_of_pos _ (by rw [pI_eq]; omega)

theorem pI_lt (c : Curve) : c.pI < 2 ^ 256 := by
  rw [pI_eq]; exact_mod_cast c.p.isLt

/-- A reduced value is held exactly by 256 bits. -/
theorem ofInt_toNat {v : Int} (h0 : 0 ≤ v) (h1 : v < c.pI) : ((BitVec.ofInt 256 v).toNat : Int) = v := by
  have := pI_lt c
  rw [BitVec.toNat_ofInt]
  omega

theorem lt_two_pow_bitlen (e : Nat) : e < 2 ^ bitlen e := by
  unfold bitlen
  split
  · next h => simp [h]
  · exact Nat.lt_log2_self

/-- The loop multiplies `acc` to the power of 2 by the bits still to come. -/
theorem powLoop_eq (c : Curve) (x : Int) (e : Nat) (i : Nat) (acc : Int) :
    (c.powLoop x e i acc : ZMod c.p.toNat) = (acc : ZMod c.p.toNat) ^ 2 ^ i * (x : ZMod c.p.toNat) ^ (e % 2 ^ i) := by
  induction i generalizing acc with
  | zero => simp [Curve.powLoop, Nat.mod_one]
  | succ i ih =>
    have hs : e % 2 ^ (i + 1) = 2 ^ i * (e.testBit i).toNat + e % 2 ^ i := by
      rw [pow_succ, Nat.mod_mul, Nat.testBit_eq_decide_div_mod_eq]
      rcases Nat.mod_two_eq_zero_or_one (e / 2 ^ i) with h | h <;> simp [h, Nat.add_comm]
    rw [Curve.powLoop, ih, hs]
    cases e.testBit i <;> simp <;> ring

/-- `powMod` is the power (00_scope.md R17; 41_field.md R137). -/
theorem cast_powMod (c : Curve) (x : Int) (e : Nat) :
    (c.powMod x e : ZMod c.p.toNat) = (x : ZMod c.p.toNat) ^ e := by
  rw [Curve.powMod, powLoop_eq, Nat.mod_eq_of_lt (lt_two_pow_bitlen e)]
  simp

theorem powLoop_range (h : 0 < c.p.toNat) (x : Int) (e i : Nat) (acc : Int) (h0 : 0 ≤ acc) (h1 : acc < c.pI) :
    0 ≤ c.powLoop x e i acc ∧ c.powLoop x e i acc < c.pI := by
  induction i generalizing acc with
  | zero => exact ⟨h0, h1⟩
  | succ i ih =>
    rw [Curve.powLoop]
    split <;> exact ih _ (emod_nonneg_pI h _) (emod_lt_pI h _)

theorem powMod_range (h : 0 < c.p.toNat) (x : Int) (e : Nat) : 0 ≤ c.powMod x e ∧ c.powMod x e < c.pI :=
  powLoop_range h x e _ _ (emod_nonneg_pI h _) (emod_lt_pI h _)

/-- A reduced value is the power as an integer: `x^e mod p`. -/
theorem powMod_eq (h : 0 < c.p.toNat) (x : Int) (e : Nat) : c.powMod x e = x ^ e % c.pI := by
  have h1 := powMod_range h x e
  rw [← Int.emod_eq_of_lt h1.1 h1.2]
  exact (cast_eq_cast_iff c _ _).1 (by rw [cast_powMod]; push_cast; rfl)

theorem invP_range (h : 0 < c.p.toNat) (x : Int) : 0 ≤ c.invP x ∧ c.invP x < c.pI := powMod_range h x _

/-- `inv_p(x)` is the inverse (00_scope.md R17). -/
theorem cast_invP (hp : Fact c.p.toNat.Prime) (x : Int) : (c.invP x : ZMod c.p.toNat) = (x : ZMod c.p.toNat)⁻¹ ∨ (x : ZMod c.p.toNat) = 0 := by
  by_cases hx : (x : ZMod c.p.toNat) = 0
  · exact .inr hx
  · left
    rw [Curve.invP, cast_powMod]
    have h2 := hp.out.two_le
    have := ZMod.pow_card_sub_one_eq_one hx
    refine eq_inv_of_mul_eq_one_left ?_
    rw [← pow_succ, show c.p.toNat - 2 + 1 = c.p.toNat - 1 by omega, this]

theorem cast_invP_of_ne (hp : Fact c.p.toNat.Prime) {x : Int} (hx : (x : ZMod c.p.toNat) ≠ 0) :
    (c.invP x : ZMod c.p.toNat) = (x : ZMod c.p.toNat)⁻¹ := (cast_invP hp x).resolve_right hx

theorem radix_eq : radix = 2 ^ 256 := by norm_num [radix]

/-- The radix is invertible mod an odd prime (41_field.md R133). -/
theorem radix_ne_zero (hp : Fact c.p.toNat.Prime) (h : 2 < c.p.toNat) : ((radix : Int) : ZMod c.p.toNat) ≠ 0 := by
  rw [radix_eq, Int.cast_pow]
  have : ((2 : Nat) : ZMod c.p.toNat) ≠ 0 := by
    rw [Ne, ZMod.natCast_eq_zero_iff]
    exact fun hd => absurd (Nat.le_of_dvd (by norm_num) hd) (by omega)
  exact pow_ne_zero 256 (by exact_mod_cast this)

/-- The Montgomery product times the radix is the product (41_field.md R133). -/
theorem cast_montF (hp : Fact c.p.toNat.Prime) (h : 2 < c.p.toNat) (x y : Int) :
    (c.montF x y : ZMod c.p.toNat) * ((radix : Int) : ZMod c.p.toNat) = x * y := by
  have hr := radix_ne_zero hp h
  rw [Curve.montF, cast_emod_pI, Int.cast_mul, Int.cast_mul, Curve.red, Curve.red, cast_emod_pI, cast_emod_pI,
    cast_invP_of_ne hp (by rw [cast_emod_pI]; exact hr), cast_emod_pI, mul_assoc, inv_mul_cancel₀ hr, mul_one]

/-- The candidate root, squared, is `x` exactly for the squares (41_field.md R137; Euler's criterion for `p ≡ 3 (mod 4)`). -/
theorem candidate_sq (hp : Fact c.p.toNat.Prime) (h4 : c.p.toNat % 4 = 3) (x : ZMod c.p.toNat) :
    (x ^ ((c.p.toNat + 1) / 4)) ^ 2 = x ↔ IsSquare x := by
  constructor
  · intro h; exact ⟨x ^ ((c.p.toNat + 1) / 4), (h.symm.trans (pow_two _))⟩
  · intro h
    by_cases hx : x = 0
    · subst hx
      rw [zero_pow (by omega)]; simp
    · have h1 := (ZMod.euler_criterion c.p.toNat hx).1 h
      rw [← pow_mul, show (c.p.toNat + 1) / 4 * 2 = c.p.toNat / 2 + 1 by omega, pow_succ, h1, one_mul]

theorem sqrtP_some {x r : Int} (h : 0 < c.p.toNat) (hr : c.sqrtP x = some r) :
    0 ≤ r ∧ r < c.pI ∧ r * r % c.pI = x ∧ r = c.powMod x ((c.p.toNat + 1) / 4) := by
  rw [Curve.sqrtP] at hr
  split at hr
  · next hx => cases hr; exact ⟨(powMod_range h _ _).1, (powMod_range h _ _).2, hx, rfl⟩
  · cases hr

/-- `sqrt_p` finds a root exactly of the squares. -/
theorem sqrtP_isSome_iff (hp : Fact c.p.toNat.Prime) (h4 : c.p.toNat % 4 = 3) {x : Int} (h0 : 0 ≤ x) (h1 : x < c.pI) :
    (c.sqrtP x).isSome ↔ IsSquare (x : ZMod c.p.toNat) := by
  rw [← candidate_sq hp h4, ← cast_powMod, ← Int.cast_pow, cast_eq_cast_iff, Int.emod_eq_of_lt h0 h1, Curve.sqrtP, pow_two]
  split <;> simp_all

end Sys2Proof.Laws
end

