-- ==== Sys2Proof/Laws/State.lean ====
section
/-! SUPPORT. What each update of the state does to each field, so that no proof unfolds a record update. -/

namespace Sys2Proof.Laws

open Sys2Proof.Machine

/-! `writeF` -/

@[simp] theorem writeF_par (s : State) (d : FIdx) (v : Int) : (s.writeF d v).par = s.par := rfl
@[simp] theorem writeF_f (s : State) (d : FIdx) (v : Int) : (s.writeF d v).f = s.f.set d (Reg.written v) := rfl
@[simp] theorem writeF_p (s : State) (d : FIdx) (v : Int) : (s.writeF d v).p = s.p := rfl
@[simp] theorem writeF_sc (s : State) (d : FIdx) (v : Int) : (s.writeF d v).sc = s.sc := rfl
@[simp] theorem writeF_ctrl (s : State) (d : FIdx) (v : Int) : (s.writeF d v).ctrl = s.ctrl := rfl
@[simp] theorem writeF_cmd (s : State) (d : FIdx) (v : Int) : (s.writeF d v).cmd = s.cmd := rfl
@[simp] theorem writeF_status (s : State) (d : FIdx) (v : Int) : (s.writeF d v).status = s.status := rfl
@[simp] theorem writeF_latch (s : State) (d : FIdx) (v : Int) : (s.writeF d v).latch = s.latch := rfl
@[simp] theorem writeF_inbox (s : State) (d : FIdx) (v : Int) : (s.writeF d v).inbox = s.inbox := rfl
@[simp] theorem writeF_replies (s : State) (d : FIdx) (v : Int) : (s.writeF d v).replies = s.replies := rfl
@[simp] theorem writeF_draws (s : State) (d : FIdx) (v : Int) : (s.writeF d v).draws = s.draws := rfl

/-! `writeP` -/

@[simp] theorem writeP_par (s : State) (d : PIdx) (T : Triple) : (s.writeP d T).par = s.par := rfl
@[simp] theorem writeP_f (s : State) (d : PIdx) (T : Triple) : (s.writeP d T).f = s.f := rfl
@[simp] theorem writeP_p (s : State) (d : PIdx) (T : Triple) :
    (s.writeP d T).p = s.p.set d ⟨Reg.written T.x, Reg.written T.y, Reg.written T.z⟩ := rfl
@[simp] theorem writeP_sc (s : State) (d : PIdx) (T : Triple) : (s.writeP d T).sc = s.sc := rfl
@[simp] theorem writeP_ctrl (s : State) (d : PIdx) (T : Triple) : (s.writeP d T).ctrl = s.ctrl := rfl
@[simp] theorem writeP_cmd (s : State) (d : PIdx) (T : Triple) : (s.writeP d T).cmd = s.cmd := rfl
@[simp] theorem writeP_status (s : State) (d : PIdx) (T : Triple) : (s.writeP d T).status = s.status := rfl
@[simp] theorem writeP_latch (s : State) (d : PIdx) (T : Triple) : (s.writeP d T).latch = s.latch := rfl
@[simp] theorem writeP_inbox (s : State) (d : PIdx) (T : Triple) : (s.writeP d T).inbox = s.inbox := rfl
@[simp] theorem writeP_replies (s : State) (d : PIdx) (T : Triple) : (s.writeP d T).replies = s.replies := rfl
@[simp] theorem writeP_draws (s : State) (d : PIdx) (T : Triple) : (s.writeP d T).draws = s.draws := rfl

/-! `writeEq` -/

@[simp] theorem writeEq_par (s : State) (b : Bool) : (s.writeEq b).par = s.par := rfl
@[simp] theorem writeEq_f (s : State) (b : Bool) : (s.writeEq b).f = s.f := rfl
@[simp] theorem writeEq_p (s : State) (b : Bool) : (s.writeEq b).p = s.p := rfl
@[simp] theorem writeEq_sc (s : State) (b : Bool) : (s.writeEq b).sc = s.sc := rfl
@[simp] theorem writeEq_ctrl (s : State) (b : Bool) : (s.writeEq b).ctrl = s.ctrl := rfl
@[simp] theorem writeEq_cmd (s : State) (b : Bool) : (s.writeEq b).cmd = s.cmd := rfl
@[simp] theorem writeEq_status (s : State) (b : Bool) : (s.writeEq b).status = { s.status with eqFlag := b } := rfl
@[simp] theorem writeEq_latch (s : State) (b : Bool) : (s.writeEq b).latch = s.latch := rfl
@[simp] theorem writeEq_inbox (s : State) (b : Bool) : (s.writeEq b).inbox = s.inbox := rfl
@[simp] theorem writeEq_replies (s : State) (b : Bool) : (s.writeEq b).replies = s.replies := rfl
@[simp] theorem writeEq_draws (s : State) (b : Bool) : (s.writeEq b).draws = s.draws := rfl

/-! `complete` -/

@[simp] theorem complete_par (s : State) : (s.complete).par = s.par := rfl
@[simp] theorem complete_f (s : State) : (s.complete).f = s.f := rfl
@[simp] theorem complete_p (s : State) : (s.complete).p = s.p := rfl
@[simp] theorem complete_sc (s : State) : (s.complete).sc = s.sc := rfl
@[simp] theorem complete_ctrl (s : State) : (s.complete).ctrl = s.ctrl := rfl
@[simp] theorem complete_cmd (s : State) : (s.complete).cmd = s.cmd := rfl
@[simp] theorem complete_status (s : State) : (s.complete).status = { s.status with done := true } := rfl
@[simp] theorem complete_latch (s : State) : (s.complete).latch = none := rfl
@[simp] theorem complete_inbox (s : State) : (s.complete).inbox = s.inbox := rfl
@[simp] theorem complete_replies (s : State) : (s.complete).replies = s.replies := rfl
@[simp] theorem complete_draws (s : State) : (s.complete).draws = s.draws := rfl

/-! `raise` -/

@[simp] theorem raise_par (s : State) (e : CmdError) : (s.raise e).par = s.par := rfl
@[simp] theorem raise_f (s : State) (e : CmdError) : (s.raise e).f = s.f := rfl
@[simp] theorem raise_p (s : State) (e : CmdError) : (s.raise e).p = s.p := rfl
@[simp] theorem raise_sc (s : State) (e : CmdError) : (s.raise e).sc = s.sc := rfl
@[simp] theorem raise_ctrl (s : State) (e : CmdError) : (s.raise e).ctrl = s.ctrl := rfl
@[simp] theorem raise_cmd (s : State) (e : CmdError) : (s.raise e).cmd = s.cmd := rfl
@[simp] theorem raise_status (s : State) (e : CmdError) :
    (s.raise e).status = { s.status with done := true, err := e.code, errInfo := e.info } := rfl
@[simp] theorem raise_latch (s : State) (e : CmdError) : (s.raise e).latch = none := rfl
@[simp] theorem raise_inbox (s : State) (e : CmdError) : (s.raise e).inbox = s.inbox := rfl
@[simp] theorem raise_replies (s : State) (e : CmdError) : (s.raise e).replies = s.replies := rfl
@[simp] theorem raise_draws (s : State) (e : CmdError) : (s.raise e).draws = s.draws := rfl

/-! `latchCommand` -/

@[simp] theorem latchCommand_par (s : State) (w : Word) : (s.latchCommand w).par = s.par := rfl
@[simp] theorem latchCommand_f (s : State) (w : Word) : (s.latchCommand w).f = s.f := rfl
@[simp] theorem latchCommand_p (s : State) (w : Word) : (s.latchCommand w).p = s.p := rfl
@[simp] theorem latchCommand_sc (s : State) (w : Word) : (s.latchCommand w).sc = s.sc := rfl
@[simp] theorem latchCommand_ctrl (s : State) (w : Word) : (s.latchCommand w).ctrl = s.ctrl := rfl
@[simp] theorem latchCommand_cmd (s : State) (w : Word) : (s.latchCommand w).cmd = w := rfl
@[simp] theorem latchCommand_status (s : State) (w : Word) :
    (s.latchCommand w).status = { s.status with done := false, err := 0#4, errInfo := 0#4 } := rfl
@[simp] theorem latchCommand_latch (s : State) (w : Word) : (s.latchCommand w).latch = some ⟨w, s.ctrl.verify⟩ := rfl
@[simp] theorem latchCommand_inbox (s : State) (w : Word) : (s.latchCommand w).inbox = s.inbox := rfl
@[simp] theorem latchCommand_replies (s : State) (w : Word) : (s.latchCommand w).replies = s.replies := rfl
@[simp] theorem latchCommand_draws (s : State) (w : Word) : (s.latchCommand w).draws = s.draws := rfl

/-! `dropWrite` -/

@[simp] theorem dropWrite_par (s : State) : (s.dropWrite).par = s.par := rfl
@[simp] theorem dropWrite_f (s : State) : (s.dropWrite).f = s.f := rfl
@[simp] theorem dropWrite_p (s : State) : (s.dropWrite).p = s.p := rfl
@[simp] theorem dropWrite_sc (s : State) : (s.dropWrite).sc = s.sc := rfl
@[simp] theorem dropWrite_ctrl (s : State) : (s.dropWrite).ctrl = s.ctrl := rfl
@[simp] theorem dropWrite_cmd (s : State) : (s.dropWrite).cmd = s.cmd := rfl
@[simp] theorem dropWrite_status (s : State) :
    (s.dropWrite).status = { s.status with accErr := true } := rfl
@[simp] theorem dropWrite_latch (s : State) : (s.dropWrite).latch = s.latch := rfl
@[simp] theorem dropWrite_inbox (s : State) : (s.dropWrite).inbox = s.inbox := rfl
@[simp] theorem dropWrite_replies (s : State) : (s.dropWrite).replies = s.replies := rfl
@[simp] theorem dropWrite_draws (s : State) : (s.dropWrite).draws = s.draws := rfl

/-! `acknowledge` -/

@[simp] theorem acknowledge_par (s : State) (v : Word) : (s.acknowledge v).par = s.par := rfl
@[simp] theorem acknowledge_f (s : State) (v : Word) : (s.acknowledge v).f = s.f := rfl
@[simp] theorem acknowledge_p (s : State) (v : Word) : (s.acknowledge v).p = s.p := rfl
@[simp] theorem acknowledge_sc (s : State) (v : Word) : (s.acknowledge v).sc = s.sc := rfl
@[simp] theorem acknowledge_ctrl (s : State) (v : Word) : (s.acknowledge v).ctrl = s.ctrl := rfl
@[simp] theorem acknowledge_cmd (s : State) (v : Word) : (s.acknowledge v).cmd = s.cmd := rfl
@[simp] theorem acknowledge_status (s : State) (v : Word) :
    (s.acknowledge v).status = { s.status with done := s.status.done && !v.getLsbD 1, accErr := s.status.accErr && !v.getLsbD 3 } := rfl
@[simp] theorem acknowledge_latch (s : State) (v : Word) : (s.acknowledge v).latch = s.latch := rfl
@[simp] theorem acknowledge_inbox (s : State) (v : Word) : (s.acknowledge v).inbox = s.inbox := rfl
@[simp] theorem acknowledge_replies (s : State) (v : Word) : (s.acknowledge v).replies = s.replies := rfl
@[simp] theorem acknowledge_draws (s : State) (v : Word) : (s.acknowledge v).draws = s.draws := rfl

/-! `reply` -/

@[simp] theorem reply_par (s : State) (v : Word) : (s.reply v).par = s.par := rfl
@[simp] theorem reply_f (s : State) (v : Word) : (s.reply v).f = s.f := rfl
@[simp] theorem reply_p (s : State) (v : Word) : (s.reply v).p = s.p := rfl
@[simp] theorem reply_sc (s : State) (v : Word) : (s.reply v).sc = s.sc := rfl
@[simp] theorem reply_ctrl (s : State) (v : Word) : (s.reply v).ctrl = s.ctrl := rfl
@[simp] theorem reply_cmd (s : State) (v : Word) : (s.reply v).cmd = s.cmd := rfl
@[simp] theorem reply_status (s : State) (v : Word) : (s.reply v).status = s.status := rfl
@[simp] theorem reply_latch (s : State) (v : Word) : (s.reply v).latch = s.latch := rfl
@[simp] theorem reply_inbox (s : State) (v : Word) : (s.reply v).inbox = s.inbox := rfl
@[simp] theorem reply_replies (s : State) (v : Word) : (s.reply v).replies = v :: s.replies := rfl
@[simp] theorem reply_draws (s : State) (v : Word) : (s.reply v).draws = s.draws := rfl

/-! `hardReset` -/

@[simp] theorem hardReset_par (s : State) : (s.hardReset).par = s.par := rfl
@[simp] theorem hardReset_f (s : State) :
    (s.hardReset).f = Vector.replicate 16 (Reg.unwritten 256 8) := rfl
@[simp] theorem hardReset_p (s : State) :
    (s.hardReset).p = Vector.replicate 8 PReg.unwritten := rfl
@[simp] theorem hardReset_sc (s : State) :
    (s.hardReset).sc = Vector.replicate 4 (Reg.unwritten 512 16) := rfl
@[simp] theorem hardReset_ctrl (s : State) : (s.hardReset).ctrl = ⟨false, s.par.verifyReset⟩ := rfl
@[simp] theorem hardReset_cmd (s : State) : (s.hardReset).cmd = 0#32 := rfl
@[simp] theorem hardReset_status (s : State) :
    (s.hardReset).status = ⟨false, false, false, 0#4, 0#4⟩ := rfl
@[simp] theorem hardReset_latch (s : State) : (s.hardReset).latch = none := rfl
@[simp] theorem hardReset_inbox (s : State) : (s.hardReset).inbox = s.inbox := rfl
@[simp] theorem hardReset_replies (s : State) : (s.hardReset).replies = s.replies := rfl
@[simp] theorem hardReset_draws (s : State) : (s.hardReset).draws = s.draws := rfl

end Sys2Proof.Laws
end

