-- ==== Sys2Proof/Laws/Words.lean ====
section
/-! SUPPORT. Registers as words: what reading a word after writing one gives, and what validity the writes leave. -/

namespace Sys2Proof.Laws

open Sys2Proof.Machine

@[simp] theorem getLsbD_getWord {n : Nat} (v : BitVec n) (w i : Nat) :
    (getWord v w).getLsbD i = (decide (i < 32) && v.getLsbD (32 * w + i)) := by
  simp [getWord, BitVec.getLsbD_extractLsb']

/-- A register's bits after one word is written. -/
theorem getLsbD_setWord {n : Nat} (v : BitVec n) (w : Nat) (x : Word) (i : Nat) (hi : i < n) :
    (setWord v w x).getLsbD i = if 32 * w ≤ i ∧ i < 32 * w + 32 then x.getLsbD (i - 32 * w) else v.getLsbD i := by
  have ones (j : Nat) : (0xFFFFFFFF#32 : Word).getLsbD j = decide (j < 32) := by
    rw [show (0xFFFFFFFF#32 : Word) = BitVec.allOnes 32 by decide, BitVec.getLsbD_allOnes]
  simp only [setWord, BitVec.getLsbD_or, BitVec.getLsbD_and, BitVec.getLsbD_not, BitVec.getLsbD_shiftLeft, BitVec.getLsbD_setWidth,
    ones, hi]
  by_cases h1 : i < 32 * w
  · simp [h1, Nat.not_le.2 h1]
  · by_cases h2 : i < 32 * w + 32
    · simp [h1, Nat.not_lt.1 h1, h2, show i - 32 * w < n by omega, show i - 32 * w < 32 by omega]
    · simp [h1, h2, show ¬ (i - 32 * w < 32) by omega, BitVec.getLsbD_of_ge x (i - 32 * w) (by omega)]

theorem getWord_setWord_same {n : Nat} (v : BitVec n) (w : Nat) (x : Word) (h : 32 * w + 32 ≤ n) :
    getWord (setWord v w x) w = x := by
  apply BitVec.eq_of_getLsbD_eq
  intro i hi
  rw [getLsbD_getWord, getLsbD_setWord _ _ _ _ (by omega)]
  simp [hi]

theorem getWord_setWord_other {n : Nat} (v : BitVec n) (w u : Nat) (x : Word) (h : u ≠ w) :
    getWord (setWord v w x) u = getWord v u := by
  apply BitVec.eq_of_getLsbD_eq
  intro i hi
  simp only [getLsbD_getWord, hi, decide_true, Bool.true_and]
  by_cases hn : 32 * u + i < n
  · rw [getLsbD_setWord _ _ _ _ hn, if_neg (by omega)]
  · rw [BitVec.getLsbD_of_ge _ _ (by omega), BitVec.getLsbD_of_ge _ _ (by omega)]

/-- Two registers are equal when all their words are. -/
theorem eq_of_getWord_eq {k : Nat} {v u : BitVec (32 * k)} (h : ∀ w < k, getWord v w = getWord u w) : v = u := by
  apply BitVec.eq_of_getLsbD_eq
  intro i hi
  have hw := congrArg (fun x : Word => x.getLsbD (i % 32)) (h (i / 32) (by omega))
  simp only [getLsbD_getWord, Nat.div_add_mod, Nat.mod_lt _ (show 32 > 0 by omega), decide_true, Bool.true_and] at hw
  exact hw

@[simp] theorem putWord_val {n k : Nat} (r : Reg n k) (w : Nat) (x : Word) : (r.putWord w x).val = setWord r.val w x := rfl

/-- A host write makes its word valid and no other (10_state.md R62). -/
theorem putWord_wordValid {n k : Nat} (r : Reg n k) (w u : Nat) (x : Word) (hu : u < k) :
    (r.putWord w x).wordValid u = (decide (u = w) || r.wordValid u) := by
  simp only [Reg.wordValid, Reg.putWord, BitVec.getLsbD_or, BitVec.getLsbD_twoPow]
  by_cases h : u = w
  · simp [h, show w < k from h ▸ hu]
  · simp [h, Ne.symm h]

/-- Reading back the word just written (20_memory.md R80). -/
theorem hostWord_putWord_same {n k : Nat} (r : Reg n k) (w : Nat) (x : Word) (hw : w < k) (h : 32 * w + 32 ≤ n) :
    (r.putWord w x).hostWord w = some x := by
  simp [Reg.hostWord, putWord_wordValid _ _ _ _ hw, getWord_setWord_same _ _ _ h]

/-- Reading another word than the one just written. -/
theorem hostWord_putWord_other {n k : Nat} (r : Reg n k) (w u : Nat) (x : Word) (hu : u < k) (h : u ≠ w) :
    (r.putWord w x).hostWord u = r.hostWord u := by
  simp [Reg.hostWord, putWord_wordValid _ _ _ _ hu, getWord_setWord_other _ _ _ _ h, h]

@[simp] theorem written_valid (v : Int) : (Reg.written v).valid = BitVec.allOnes 8 := rfl
@[simp] theorem written_allValid (v : Int) : (Reg.written v).allValid = true := by simp [Reg.allValid]
@[simp] theorem written_aborted (v : Int) : (Reg.written v).aborted = 0#8 := rfl
@[simp] theorem written_val (v : Int) : (Reg.written v).val = BitVec.ofInt 256 v := rfl

/-- A register written by a command holds the written value, where it fits. -/
theorem written_toNat {v : Int} (h0 : 0 ≤ v) (h1 : v < 2 ^ 256) : ((Reg.written v).val.toNat : Int) = v := by
  rw [written_val, BitVec.toNat_ofInt]
  omega

/-- A word of a register whose words are all valid is valid. -/
theorem wordValid_of_allValid {n k : Nat} {r : Reg n k} (h : r.allValid = true) {w : Nat} (hw : w < k) : r.wordValid w = true := by
  have : r.valid = BitVec.allOnes k := by simpa [Reg.allValid] using h
  simp [Reg.wordValid, this, hw]

/-! ### Which registers a command may read (10_state.md R62) -/

/-- Under the model rule a command may read exactly the registers whose words are all valid. -/
@[simp] theorem reads_modelFault {n k : Nat} (r : Reg n k) : r.reads .modelFault = r.allValid := rfl

/-- A register may be read exactly where each of its words may: under `resetValues` one that is valid, or that no abort has made
invalid. -/
theorem reads_resetValues {n k : Nat} (r : Reg n k) :
    r.reads .resetValues = true ↔ ∀ w < k, r.valid.getLsbD w = true ∨ r.aborted.getLsbD w = false := by
  simp only [Reg.reads, Reg.readMask, beq_iff_eq]
  constructor
  · intro h w hw
    have := congrArg (fun v : BitVec k => v.getLsbD w) h
    simpa [hw] using this
  · intro h
    apply BitVec.eq_of_getLsbD_eq
    intro w hw
    simpa [hw] using h w hw

/-- A register whose words are all valid may be read under every rule. -/
theorem reads_of_allValid {n k : Nat} {r : Reg n k} (u : UninitRule) (h : r.allValid = true) : r.reads u = true := by
  have hv : r.valid = BitVec.allOnes k := by simpa [Reg.allValid] using h
  cases u <;> simp [Reg.reads, Reg.readMask, hv]

/-- A destination of an aborted command may be read under no rule (70_reset_and_hazards.md R314). -/
@[simp] theorem atAbort_reads (v : Word256) (u : UninitRule) : (Reg.atAbort v).reads u = false := by
  cases u <;> (simp only [Reg.reads, Reg.readMask, Reg.atAbort]; decide)

/-- A host write ends what an abort did to its word, and to no other. -/
theorem putWord_aborted {n k : Nat} (r : Reg n k) (w u : Nat) (x : Word) (hu : u < k) :
    (r.putWord w x).aborted.getLsbD u = (decide (u ≠ w) && r.aborted.getLsbD u) := by
  simp only [Reg.putWord, BitVec.getLsbD_and, BitVec.getLsbD_not, BitVec.getLsbD_twoPow, hu, decide_true, Bool.true_and]
  by_cases h : u = w
  · simp [h, show w < k from h ▸ hu]
  · simp [h, Ne.symm h]

end Sys2Proof.Laws
end

