-- ==== Sys2Proof/Laws/Ops.lean ====
section
/-! SUPPORT. What the shared operations do, said once: register reads after writes, the operand-validity check, the two ways a
command ends, and one lemma for all a command can change. -/

namespace Sys2Proof.Laws

open Sys2Proof.Machine

@[simp] theorem writeF_get (s : State) (d j : FIdx) (v : Int) :
    (s.writeF d v).f[j] = if d = j then Reg.written v else s.f[j] := by
  simp only [writeF_f, Fin.getElem_fin, Vector.getElem_set, Fin.ext_iff]

@[simp] theorem writeP_get (s : State) (d j : PIdx) (T : Triple) :
    (s.writeP d T).p[j] = if d = j then ⟨Reg.written T.x, Reg.written T.y, Reg.written T.z⟩ else s.p[j] := by
  simp only [writeP_p, Fin.getElem_fin, Vector.getElem_set, Fin.ext_iff]

/-- A flag bit of STATUS or CTRL, read back (10_state.md R45, R47). -/
theorem getLsbD_flagBit (b : Bool) (i j : Nat) : (flagBit b i).getLsbD j = (b && decide (j = i ∧ j < 32)) := by
  cases b
  · simp [flagBit]
  · simp only [flagBit, if_true, BitVec.getLsbD_twoPow, Bool.true_and, Bool.decide_and]
    by_cases h : j = i
    · subst h; simp
    · simp [h, Ne.symm h]

/-- The validity check lets a command run whose sources are readable. -/
theorem needs_of_readable {ok : Bool} {k : Out} (h : ok = true) : needs ok k = k := by
  simp only [needs, if_pos h]

/-- A command that goes on past the validity check does what it does without it. -/
theorem needs_next {t : State} {ok : Bool} {k : Out} (h : needs ok k = .next t) : k = .next t := by
  cases ok with
  | true => exact h
  | false => cases h

/-- The validity check faults exactly where a source is not readable, for a command that itself never faults. -/
theorem needs_fault {ok : Bool} {k : Out} (hk : ∀ r, k ≠ .fault r) : needs ok k = .fault .uninitOperand ↔ ok = false := by
  cases ok with
  | true => exact ⟨fun h => absurd h (hk _), fun h => by cases h⟩
  | false => exact ⟨fun _ => rfl, fun _ => rfl⟩

@[simp] theorem finish_next (s t : State) : finish s = .next t ↔ s.complete = t := by simp [finish]
@[simp] theorem fail_next (s t : State) (e : CmdError) : fail s e = .next t ↔ s.raise e = t := by simp [fail]

/-- Two readable sources are readable together. -/
theorem readable_both {a b : Bool} (ha : a = true) (hb : b = true) : (a && b) = true := by rw [ha, hb]; rfl

/-- A register whose words are all valid is readable, under every rule (10_state.md R62). -/
theorem readableF_of_fOk {s : State} {i : FIdx} (h : s.fOk i = true) : s.readableF i := reads_of_allValid _ h
theorem readableS_of_sOk {s : State} {i : SIdx} (h : s.sOk i = true) : s.readableS i := reads_of_allValid _ h
theorem readableP_of_pOk {s : State} {i : PIdx} (h : s.pOk i = true) : s.readableP i := by
  simp only [State.pOk, PReg.allValid, Bool.and_eq_true] at h
  simp only [State.readableP, State.pReads, PReg.reads, reads_of_allValid _ h.1.1, reads_of_allValid _ h.1.2,
    reads_of_allValid _ h.2, Bool.and_self]

/-- A command ended with an error, in the terms of the claims. -/
theorem raise_eq_endedWith (s : State) (e : CmdError) : s.raise e = s.endedWith e.code e.info := rfl

/-- The frame of a command that writes one field register. -/
theorem frame_writeF (s : State) (d : FIdx) (v : Int) : Frame s (s.writeF d v).complete [d] [] := by
  refine ⟨⟨rfl, rfl, rfl, rfl, rfl, rfl, rfl, rfl, rfl, rfl, rfl, rfl, ?_, ?_⟩, rfl⟩
  · intro j hj
    rw [complete_f, writeF_get, if_neg (fun h => hj (by simp [h]))]
  · intro j _; rfl

/-- The frame of a command that writes one point register. -/
theorem frame_writeP (s : State) (d : PIdx) (T : Triple) : Frame s (s.writeP d T).complete [] [d] := by
  refine ⟨⟨rfl, rfl, rfl, rfl, rfl, rfl, rfl, rfl, rfl, rfl, rfl, rfl, ?_, ?_⟩, rfl⟩
  · intro j _; rfl
  · intro j hj
    rw [complete_p, writeP_get, if_neg (fun h => hj (by simp [h]))]

/-- The frame of a command that writes nothing. -/
theorem frame_complete (s : State) : Frame s s.complete [] [] :=
  ⟨⟨rfl, rfl, rfl, rfl, rfl, rfl, rfl, rfl, rfl, rfl, rfl, rfl, fun _ _ => rfl, fun _ _ => rfl⟩, rfl⟩

/-- The frame of PEQ and PTST. -/
theorem frame_writeEq (s : State) (b : Bool) : FrameButEq s (s.writeEq b).complete [] [] :=
  ⟨rfl, rfl, rfl, rfl, rfl, rfl, rfl, rfl, rfl, rfl, rfl, rfl, fun _ _ => rfl, fun _ _ => rfl⟩

/-- The frame of PGET. -/
theorem frame_writeF3 (s : State) (x y z : FIdx) (u v w : Int) :
    Frame s (((s.writeF x u).writeF y v).writeF z w).complete [x, y, z] [] := by
  refine ⟨⟨rfl, rfl, rfl, rfl, rfl, rfl, rfl, rfl, rfl, rfl, rfl, rfl, ?_, fun _ _ => rfl⟩, rfl⟩
  intro j hj
  simp only [List.mem_cons, List.not_mem_nil, or_false, not_or] at hj
  rw [complete_f, writeF_get, if_neg (Ne.symm hj.2.2), writeF_get, if_neg (Ne.symm hj.2.1), writeF_get, if_neg (Ne.symm hj.1)]

/-- The point register a command has written. -/
theorem writeP_complete_get (s : State) (d : PIdx) (T : Triple) :
    (s.writeP d T).complete.p[d] = ⟨Reg.written T.x, Reg.written T.y, Reg.written T.z⟩ := by
  rw [complete_p, writeP_get, if_pos rfl]

/-- The field register a command has written. -/
theorem writeF_complete_get (s : State) (d : FIdx) (v : Int) : (s.writeF d v).complete.f[d] = Reg.written v := by
  rw [complete_f, writeF_get, if_pos rfl]

theorem writeP_complete_pOk (s : State) (d : PIdx) (T : Triple) : (s.writeP d T).complete.pOk d = true := by
  simp only [State.pOk, writeP_complete_get, PReg.allValid, written_allValid, Bool.and_self]

theorem writeF_complete_fOk (s : State) (d : FIdx) (v : Int) : (s.writeF d v).complete.fOk d = true := by
  simp only [State.fOk, writeF_complete_get, written_allValid]

/-- Each coordinate in `[0, 2^256)`: a triple a point register holds exactly. -/
def Fits (T : Triple) : Prop := (0 ≤ T.x ∧ T.x < 2 ^ 256) ∧ (0 ≤ T.y ∧ T.y < 2 ^ 256) ∧ (0 ≤ T.z ∧ T.z < 2 ^ 256)

/-- A point register written by a command holds the written triple. -/
theorem writeP_complete_pRaw (s : State) (d : PIdx) (T : Triple) (h : Fits T) : (s.writeP d T).complete.pRaw d = T := by
  simp only [State.pRaw, writeP_complete_get]
  rw [written_toNat h.1.1 h.1.2, written_toNat h.2.1.1 h.2.1.2, written_toNat h.2.2.1 h.2.2.2]

/-- A field register written by a command holds the written value. -/
theorem writeF_complete_fNat (s : State) (d : FIdx) (v : Int) (h0 : 0 ≤ v) (h1 : v < 2 ^ 256) :
    ((s.writeF d v).complete.fNat d : Int) = v := by
  simp only [State.fNat, writeF_complete_get]
  exact written_toNat h0 h1

end Sys2Proof.Laws
end

