-- ==== Sys2Proof/Laws/Canonical.lean ====
section
/-! SUPPORT. Every triple the group law computes from canonical triples is canonical (43_point.md R173), and a canonical triple
fits a point register. -/

namespace Sys2Proof.Laws

open Machine

variable {c : Curve}

theorem canonical_oCan : c.Canonical oCan := .inl rfl

/-- A canonical triple fits a point register. -/
theorem fits_of_canonical {T : Triple} (h : c.Canonical T) : Fits T := by
  have hp := pI_lt c
  rcases h with rfl | h
  · simp [Fits, oCan]
  · exact ⟨⟨by omega, by omega⟩, ⟨by omega, by omega⟩, ⟨by omega, by omega⟩⟩

/-- A field register written by a command holds the written value, where it is reduced. -/
theorem fNat_writeF (s : State) (d : FIdx) {v : Int} (h0 : 0 ≤ v) (h1 : v < c.pI) : ((s.writeF d v).complete.fNat d : Int) = v :=
  writeF_complete_fNat s d v h0 (lt_trans h1 (pI_lt c))

/-- Coordinates reduced mod p with a Z that is not 0 are canonical. -/
theorem canonical_emod (hp : 0 < c.p.toNat) (a b : Int) {z : Int} (hz : z % c.pI ≠ 0) :
    c.Canonical ⟨a % c.pI, b % c.pI, z % c.pI⟩ := by
  have := emod_nonneg_pI hp z
  exact .inr ⟨emod_nonneg_pI hp a, emod_lt_pI hp a, emod_nonneg_pI hp b, emod_lt_pI hp b, by simp only; omega, emod_lt_pI hp z⟩

theorem isId_iff_emod (T : Triple) : c.isId T = true ↔ T.z % c.pI = 0 := by rw [Curve.isId, decide_eq_true_iff]

theorem canonical_red3 (hp : 0 < c.p.toNat) (T : Triple) : c.Canonical (c.red3 T) := by
  unfold Curve.red3
  split
  · exact canonical_oCan
  · next h => exact canonical_emod hp _ _ (fun hz => h ((isId_iff_emod T).2 hz))

theorem canonical_neg (hp : 0 < c.p.toNat) {T : Triple} (h : c.Canonical T) : c.Canonical (c.neg T) := by
  unfold Curve.neg
  split
  · exact canonical_oCan
  · next hid =>
    rcases h with rfl | h
    · exact absurd ((isId_iff_emod oCan).2 (by simp [oCan])) hid
    · exact .inr ⟨h.1, h.2.1, emod_nonneg_pI hp _, emod_lt_pI hp _, h.2.2.2.2⟩

theorem canonical_dbl (hp : 0 < c.p.toNat) (T : Triple) : c.Canonical (c.dbl T) := by
  unfold Curve.dbl
  split
  · exact canonical_oCan
  · simp only
    split
    · exact canonical_oCan
    · next hz => exact canonical_emod hp _ _ hz

theorem canonical_addGeneral (hp : 0 < c.p.toNat) (T U : Triple) : c.Canonical (c.addGeneral T U) := by
  unfold Curve.addGeneral
  simp only
  split
  · exact canonical_oCan
  · next hz => exact canonical_emod hp _ _ hz

theorem canonical_add (hp : 0 < c.p.toNat) {T U : Triple} (hT : c.Canonical T) (hU : c.Canonical U) : c.Canonical (c.add T U) := by
  unfold Curve.add
  split
  · exact hU
  · split
    · exact hT
    · split
      · exact canonical_dbl hp T
      · split
        · exact canonical_oCan
        · exact canonical_addGeneral hp T U

theorem canonical_ltrLoop (hp : 0 < c.p.toNat) {T : Triple} (hT : c.Canonical T) (k i : Nat) {A : Triple} (hA : c.Canonical A) :
    c.Canonical (c.ltrLoop k T i A) := by
  induction i generalizing A with
  | zero => exact hA
  | succ i ih =>
    simp only [Curve.ltrLoop]
    apply ih
    split
    · exact canonical_add hp (canonical_dbl hp A) hT
    · exact canonical_dbl hp A

theorem canonical_mulLtr (hp : 0 < c.p.toNat) {T : Triple} (hT : c.Canonical T) (k : Nat) : c.Canonical (c.mulLtr k T) :=
  canonical_ltrLoop hp hT k _ canonical_oCan

theorem canonical_gen (hc : c.Admitted) : c.Canonical c.gen := by
  have := hc.pAboveThree
  refine .inr ⟨?_, hc.gxReduced, ?_, hc.gyReduced, Int.one_pos, ?_⟩
  · simp [Curve.gen, Curve.gxI]
  · simp [Curve.gen, Curve.gyI]
  · simp only [Curve.gen, pI_eq]; omega

/-- A triple with Z = 1 and reduced x and y is canonical. -/
theorem canonical_one (hp : 1 < c.p.toNat) {x y : Int} (hx : 0 ≤ x ∧ x < c.pI) (hy : 0 ≤ y ∧ y < c.pI) : c.Canonical ⟨x, y, 1⟩ :=
  .inr ⟨hx.1, hx.2, hy.1, hy.2, Int.one_pos, by simp only [pI_eq]; omega⟩

theorem affine_range (hp : 0 < c.p.toNat) (T : Triple) :
    (0 ≤ (c.affine T).1 ∧ (c.affine T).1 < c.pI) ∧ (0 ≤ (c.affine T).2 ∧ (c.affine T).2 < c.pI) :=
  ⟨⟨emod_nonneg_pI hp _, emod_lt_pI hp _⟩, emod_nonneg_pI hp _, emod_lt_pI hp _⟩

theorem pickRoot_range {r : Int} (hp : 0 < c.p.toNat) (h : 0 ≤ r ∧ r < c.pI) (bit : Bool) :
    0 ≤ c.pickRoot r bit ∧ c.pickRoot r bit < c.pI := by
  rw [Curve.pickRoot]
  generalize (if bit = true then (1 : Int) else 0) = m
  split
  · exact h
  · exact ⟨emod_nonneg_pI hp _, emod_lt_pI hp _⟩

/-- A canonical triple is the identity exactly when it is `(1, 1, 0)`. -/
theorem isId_of_canonical {T : Triple} (h : c.Canonical T) : c.isId T = true ↔ T = oCan := by
  rw [isId_iff_emod]
  constructor
  · intro hz
    rcases h with h | h
    · exact h
    · rw [Int.emod_eq_of_lt (by omega) h.2.2.2.2.2] at hz; omega
  · rintro rfl; simp [oCan]

end Sys2Proof.Laws
end

