-- ==== Sys2Proof/Laws/Primes.lean ====
section
/-! SUPPORT. The modulus and the group order of P-256 are prime: a Lucas certificate for each, and for each large prime factor
of its predecessor in turn. -/

namespace Sys2Proof.Laws

/-- `a^e` mod `n`, by square and multiply over the bits `i-1` down to 0 of `e`. -/
def certPow (n a e : Nat) : Nat → Nat → Nat
  | 0, acc => acc
  | i + 1, acc =>
    let sq := acc * acc % n
    certPow n a e i (if e.testBit i then sq * a % n else sq)

theorem certPow_eq (n a e i acc : Nat) :
    (certPow n a e i acc : ZMod n) = (acc : ZMod n) ^ 2 ^ i * (a : ZMod n) ^ (e % 2 ^ i) := by
  induction i generalizing acc with
  | zero => simp [certPow, Nat.mod_one]
  | succ i ih =>
    have hs : e % 2 ^ (i + 1) = 2 ^ i * (e.testBit i).toNat + e % 2 ^ i := by
      rw [pow_succ, Nat.mod_mul, Nat.testBit_eq_decide_div_mod_eq]
      rcases Nat.mod_two_eq_zero_or_one (e / 2 ^ i) with h | h <;> simp [h, Nat.add_comm]
    rw [certPow, ih, hs]
    cases e.testBit i <;> simp <;> ring

/-- What a certificate checks: the factors multiply to `n - 1`, and `a` has order exactly `n - 1`. -/
def certOk (n a : Nat) (fs : List Nat) : Bool :=
  2 ≤ n && n < 2 ^ 256 && fs.prod == n - 1 && certPow n a (n - 1) 256 1 % n == 1
    && fs.all fun q => certPow n a ((n - 1) / q) 256 1 % n != 1

/-- Lucas's test from a certificate. -/
theorem prime_of_cert {n : Nat} (a : Nat) (fs : List Nat) (hfs : ∀ q ∈ fs, Nat.Prime q) (h : certOk n a fs = true) : n.Prime := by
  simp only [certOk, Bool.and_eq_true, decide_eq_true_eq, beq_iff_eq, bne_iff_ne, List.all_eq_true] at h
  obtain ⟨⟨⟨⟨h2, hlt⟩, hprod⟩, hone⟩, hne⟩ := h
  have hpow : ∀ e, e < 2 ^ 256 → (certPow n a e 256 1 : ZMod n) = (a : ZMod n) ^ e := fun e he => by
    rw [certPow_eq, Nat.mod_eq_of_lt he]; simp
  have hmod : ∀ v : Nat, (v : ZMod n) = 1 ↔ v % n = 1 := fun v => by
    rw [← Nat.cast_one, ZMod.natCast_eq_natCast_iff', Nat.mod_eq_of_lt (show 1 < n by omega)]
  refine lucas_primality n (a : ZMod n) ?_ fun q hq hd => ?_
  · rw [← hpow _ (by omega), hmod]; exact hone
  · have hmem : q ∈ fs := by
      rw [← hprod] at hd
      obtain ⟨f, hf, hqf⟩ := (Nat.Prime.prime hq).dvd_prod_iff.1 hd
      rwa [(Nat.prime_dvd_prime_iff_eq hq (hfs f hf)).1 hqf]
    rw [← hpow _ (by exact lt_of_le_of_lt (Nat.div_le_self _ _) (by omega)), Ne, hmod]
    exact hne q hmem

theorem prime_6700417 : Nat.Prime 6700417 :=
  prime_of_cert 5 [2, 2, 2, 2, 2, 2, 2, 3, 17449] (by
    simp only [List.forall_mem_cons]
    exact ⟨(by norm_num), (by norm_num), (by norm_num), (by norm_num), (by norm_num), (by norm_num), (by norm_num),
      (by norm_num), (by norm_num), by simp⟩) (by decide +kernel)

theorem prime_204061199 : Nat.Prime 204061199 :=
  prime_of_cert 11 [2, 11, 23, 107, 3769] (by
    simp only [List.forall_mem_cons]
    exact ⟨(by norm_num), (by norm_num), (by norm_num), (by norm_num), (by norm_num), by simp⟩) (by decide +kernel)

theorem prime_34282281433 : Nat.Prime 34282281433 :=
  prime_of_cert 17 [2, 2, 2, 3, 7, 204061199] (by
    simp only [List.forall_mem_cons]
    exact ⟨(by norm_num), (by norm_num), (by norm_num), (by norm_num), (by norm_num), prime_204061199,
      by simp⟩) (by decide +kernel)

theorem prime_66417393611 : Nat.Prime 66417393611 :=
  prime_of_cert 6 [2, 5, 53, 173, 197, 3677] (by
    simp only [List.forall_mem_cons]
    exact ⟨(by norm_num), (by norm_num), (by norm_num), (by norm_num), (by norm_num), (by norm_num),
      by simp⟩) (by decide +kernel)

theorem prime_11290956913871 : Nat.Prime 11290956913871 :=
  prime_of_cert 13 [2, 5, 17, 66417393611] (by
    simp only [List.forall_mem_cons]
    exact ⟨(by norm_num), (by norm_num), (by norm_num), prime_66417393611, by simp⟩) (by decide +kernel)

theorem prime_46076956964474543 : Nat.Prime 46076956964474543 :=
  prime_of_cert 5 [2, 23, 18169, 78283, 704251] (by
    simp only [List.forall_mem_cons]
    exact ⟨(by norm_num), (by norm_num), (by norm_num), (by norm_num), (by norm_num), by simp⟩) (by decide +kernel)

theorem prime_774023187263532362759620327192479577272145303 : Nat.Prime 774023187263532362759620327192479577272145303 :=
  prime_of_cert 3 [2, 3, 3, 2411, 34282281433, 11290956913871, 46076956964474543] (by
    simp only [List.forall_mem_cons]
    exact ⟨(by norm_num), (by norm_num), (by norm_num), (by norm_num), prime_34282281433, prime_11290956913871,
      prime_46076956964474543, by simp⟩) (by decide +kernel)

theorem prime_835945042244614951780389953367877943453916927241 : Nat.Prime 835945042244614951780389953367877943453916927241 :=
  prime_of_cert 11 [2, 2, 2, 3, 3, 3, 5, 774023187263532362759620327192479577272145303] (by
    simp only [List.forall_mem_cons]
    exact ⟨(by norm_num), (by norm_num), (by norm_num), (by norm_num), (by norm_num), (by norm_num), (by norm_num),
      prime_774023187263532362759620327192479577272145303, by simp⟩) (by decide +kernel)

/-- The modulus of P-256 is prime (42_curve.md R152; 95_test_vectors.md L2-C1). -/
theorem p256_p_prime : Config.p256.p.toNat.Prime :=
  prime_of_cert 6 [2, 3, 5, 5, 17, 257, 641, 1531, 65537, 490463, 6700417,
      835945042244614951780389953367877943453916927241] (by
    simp only [List.forall_mem_cons]
    exact ⟨(by norm_num), (by norm_num), (by norm_num), (by norm_num), (by norm_num), (by norm_num), (by norm_num),
      (by norm_num), (by norm_num), (by norm_num), prime_6700417,
      prime_835945042244614951780389953367877943453916927241, by simp⟩) (by decide +kernel)

theorem prime_9350987 : Nat.Prime 9350987 :=
  prime_of_cert 2 [2, 17, 229, 1201] (by
    simp only [List.forall_mem_cons]
    exact ⟨(by norm_num), (by norm_num), (by norm_num), (by norm_num), by simp⟩) (by decide +kernel)

theorem prime_187019741 : Nat.Prime 187019741 :=
  prime_of_cert 2 [2, 2, 5, 9350987] (by
    simp only [List.forall_mem_cons]
    exact ⟨(by norm_num), (by norm_num), (by norm_num), prime_9350987, by simp⟩) (by decide +kernel)

theorem prime_311245691 : Nat.Prime 311245691 :=
  prime_of_cert 2 [2, 5, 7, 17, 29, 29, 311] (by
    simp only [List.forall_mem_cons]
    exact ⟨(by norm_num), (by norm_num), (by norm_num), (by norm_num), (by norm_num), (by norm_num), (by norm_num),
      by simp⟩) (by decide +kernel)

theorem prime_622491383 : Nat.Prime 622491383 :=
  prime_of_cert 5 [2, 311245691] (by
    simp only [List.forall_mem_cons]
    exact ⟨(by norm_num), prime_311245691, by simp⟩) (by decide +kernel)

theorem prime_3969899 : Nat.Prime 3969899 :=
  prime_of_cert 2 [2, 19, 104471] (by
    simp only [List.forall_mem_cons]
    exact ⟨(by norm_num), (by norm_num), (by norm_num), by simp⟩) (by decide +kernel)

theorem prime_1002328039319 : Nat.Prime 1002328039319 :=
  prime_of_cert 19 [2, 126241, 3969899] (by
    simp only [List.forall_mem_cons]
    exact ⟨(by norm_num), (by norm_num), prime_3969899, by simp⟩) (by decide +kernel)

theorem prime_191039911 : Nat.Prime 191039911 :=
  prime_of_cert 3 [2, 3, 5, 41, 155317] (by
    simp only [List.forall_mem_cons]
    exact ⟨(by norm_num), (by norm_num), (by norm_num), (by norm_num), (by norm_num), by simp⟩) (by decide +kernel)

theorem prime_208150935158385979 : Nat.Prime 208150935158385979 :=
  prime_of_cert 2 [2, 3, 11, 43, 127, 3023, 191039911] (by
    simp only [List.forall_mem_cons]
    exact ⟨(by norm_num), (by norm_num), (by norm_num), (by norm_num), (by norm_num), (by norm_num), prime_191039911,
      by simp⟩) (by decide +kernel)

theorem prime_2624747550333869278416773953 : Nat.Prime 2624747550333869278416773953 :=
  prime_of_cert 7 [2, 2, 2, 2, 2, 2, 3, 3, 1297, 16879, 208150935158385979] (by
    simp only [List.forall_mem_cons]
    exact ⟨(by norm_num), (by norm_num), (by norm_num), (by norm_num), (by norm_num), (by norm_num), (by norm_num),
      (by norm_num), (by norm_num), (by norm_num), prime_208150935158385979, by simp⟩) (by decide +kernel)

/-- The group order of P-256 is prime (42_curve.md R152; 95_test_vectors.md L2-C1). -/
theorem p256_n_prime : Config.p256.n.toNat.Prime :=
  prime_of_cert 7 [2, 2, 2, 2, 3, 71, 131, 373, 3407, 17449, 38189, 187019741, 622491383, 1002328039319,
      2624747550333869278416773953] (by
    simp only [List.forall_mem_cons]
    exact ⟨(by norm_num), (by norm_num), (by norm_num), (by norm_num), (by norm_num), (by norm_num), (by norm_num),
      (by norm_num), (by norm_num), (by norm_num), (by norm_num), prime_187019741, prime_622491383,
      prime_1002328039319, prime_2624747550333869278416773953, by simp⟩) (by decide +kernel)

end Sys2Proof.Laws
end

