-- ==== Sys2Proof/Laws/Curve.lean ====
section
/-! SUPPORT. The default configuration passes every construction-time check (42_curve.md R152; vector L2-C1 of
95_test_vectors.md). -/

namespace Sys2Proof.Laws

/-- P-256 is admitted (42_curve.md R152). -/
theorem p256_admitted : Config.p256.Admitted where
  pPrime := p256_p_prime
  pAboveThree := by decide +kernel
  pMod4 := by decide +kernel
  nPrime := p256_n_prime
  hasse := by decide +kernel
  genOnCurve := by decide +kernel
  genOrder := by decide +kernel
  gxReduced := by decide +kernel
  gyReduced := by decide +kernel
  nonsingular := by decide +kernel
  aReduced := by decide +kernel
  bReduced := by decide +kernel

/-- Both instances of the spec are admitted (42_curve.md R155). -/
theorem reference_admitted : Config.reference.Admitted ∧ Config.referenceWithIntegrityCheck.Admitted :=
  ⟨⟨p256_admitted, by decide⟩, ⟨p256_admitted, by decide⟩⟩

/-- The checks are the ones of 42_curve.md R152. -/
theorem checks_iff (c : Curve) : c.checks = true ↔ c.Admitted := by
  simp only [Curve.checks, Bool.and_eq_true, decide_eq_true_iff]
  constructor
  · rintro ⟨⟨⟨⟨⟨⟨⟨⟨⟨⟨⟨h1, h2⟩, h3⟩, h4⟩, h5⟩, h6⟩, h7⟩, h8⟩, h9⟩, h10⟩, h11⟩, h12⟩
    exact ⟨h11, h1, h2, h12, h9, h7, h10, h3, h4, h8, h5, h6⟩
  · rintro ⟨h11, h1, h2, h12, h9, h7, h10, h3, h4, h8, h5, h6⟩
    exact ⟨⟨⟨⟨⟨⟨⟨⟨⟨⟨⟨h1, h2⟩, h3⟩, h4⟩, h5⟩, h6⟩, h7⟩, h8⟩, h9⟩, h10⟩, h11⟩, h12⟩

/-- What `step` admits is an instance of the hardware, and every instance is admitted (00_scope.md R13). -/
theorem admitted_iff (P : Params) : P.admitted = true ↔ P.Admitted := by
  rw [Params.admitted, Bool.and_eq_true, Bool.or_eq_true, decide_eq_true_iff, decide_eq_true_iff, checks_iff]
  constructor
  · rintro ⟨h | h, hb⟩
    · exact ⟨h ▸ p256_admitted, hb⟩
    · exact ⟨h, hb⟩
  · rintro ⟨h, hb⟩
    exact ⟨.inr h, hb⟩

end Sys2Proof.Laws
end

