-- ==== Sys2Proof/Laws/Decode.lean ====
section
/-! SUPPORT. The fields of a packed word, and a word as its fields (30_encoding.md R101). -/

namespace Sys2Proof.Laws

variable {w : Word}

/-- Four 4-bit fields. -/
def Fields.Small (f : Fields) : Prop := f.rd < 16 ∧ f.ra < 16 ∧ f.rb < 16 ∧ f.rc < 16

theorem pack_toNat {code : Nat} {f : Fields} (hc : code < 256) (hf : Fields.Small f) :
    (pack code f).toNat = code * 2 ^ 24 + f.rd * 2 ^ 20 + f.ra * 2 ^ 16 + f.rb * 2 ^ 12 + f.rc * 2 ^ 8 := by
  obtain ⟨h1, h2, h3, h4⟩ := hf
  have app {n m : Nat} (x : BitVec n) (y : BitVec m) : (x ++ y).toNat = x.toNat * 2 ^ m + y.toNat := by
    rw [BitVec.toNat_append, ← Nat.shiftLeft_add_eq_or_of_lt y.isLt, Nat.shiftLeft_eq]
  rw [pack]
  simp only [app, BitVec.toNat_ofNat]
  omega

theorem opcodeField_pack {code : Nat} {f : Fields} (hc : code < 256) (hf : Fields.Small f) : opcodeField (pack code f) = code := by
  rw [opcodeField, bits, pack_toNat hc hf]
  obtain ⟨h1, h2, h3, h4⟩ := hf
  omega

theorem zeroField_pack {code : Nat} {f : Fields} (hc : code < 256) (hf : Fields.Small f) : zeroField (pack code f) = 0 := by
  rw [zeroField, bits, pack_toNat hc hf]
  omega

theorem fieldsOf_pack {code : Nat} {f : Fields} (hc : code < 256) (hf : Fields.Small f) : fieldsOf (pack code f) = f := by
  simp only [fieldsOf, bits, pack_toNat hc hf]
  obtain ⟨rd, ra, rb, rc⟩ := f
  obtain ⟨h1, h2, h3, h4⟩ := hf
  simp only at h1 h2 h3 h4
  simp only [Fields.mk.injEq]
  refine ⟨?_, ?_, ?_, ?_⟩ <;> omega

theorem fieldsOf_small (w : Word) : Fields.Small (fieldsOf w) :=
  ⟨Nat.mod_lt _ (by norm_num), Nat.mod_lt _ (by norm_num), Nat.mod_lt _ (by norm_num), Nat.mod_lt _ (by norm_num)⟩

theorem opcodeField_lt (w : Word) : opcodeField w < 256 := Nat.mod_lt _ (by norm_num)

/-- A word whose low byte is 0 is the word of its fields. -/
theorem pack_of_zero (hz : zeroField w = 0) : pack (opcodeField w) (fieldsOf w) = w := by
  apply BitVec.eq_of_toNat_eq
  rw [pack_toNat (opcodeField_lt w) (fieldsOf_small w)]
  have := w.isLt
  simp only [zeroField, opcodeField, fieldsOf, bits] at *
  omega

theorem instr_fields_small (i : Instr) : Fields.Small i.fields := by
  cases i <;> simp only [Instr.fields, Fields.Small] <;> refine ⟨?_, ?_, ?_, ?_⟩ <;> omega

theorem code_lt (o : Op) : o.code < 256 := by cases o <;> decide

theorem ofCode_code (o : Op) : Op.ofCode o.code = some o := by cases o <;> decide

/-- An opcode's row has that opcode. -/
theorem code_of_ofCode {n : Nat} {o : Op} (h : Op.ofCode n = some o) : o.code = n := by
  have := List.find?_some h
  simpa using this

/-- Decoding a word whose low byte is 0, in terms of its row and its fields. -/
theorem decode_of_fields {o : Op} {f : Fields} (ho : Op.ofCode (opcodeField w) = some o) (hz : zeroField w = 0)
    (hf : fieldsOf w = f) : decode w =
      if o.kinds.all Kind.unusedOk f = false then .error .reservedBits
      else if o.kinds.all Kind.rangeOk f = false then .error .indexRange
      else if o.distinctOk f = false then .error .duplicate
      else .ok (o.build f) := by
  rw [decode, ho]
  simp only [hz, hf, ne_eq, not_true, if_false]

theorem rangeOk_P (d : PIdx) : Kind.rangeOk .P d = true := decide_eq_true (by omega)
theorem rangeOk_S (d : SIdx) : Kind.rangeOk .S d = true := decide_eq_true (by omega)
theorem rangeOk_F (n : Nat) : Kind.rangeOk .F n = true := rfl
theorem rangeOk_unused (n : Nat) : Kind.rangeOk .unused n = true := rfl

/-- A command's own fields pass the checks of the unused fields and of the index ranges. -/
theorem kinds_fields (i : Instr) :
    i.op.kinds.all Kind.unusedOk i.fields = true ∧ i.op.kinds.all Kind.rangeOk i.fields = true := by
  cases i <;> simp only [Instr.op, Op.kinds, Kinds.all, Kind.unusedOk, rangeOk_P, rangeOk_S, rangeOk_F, rangeOk_unused, Instr.fields,
    Bool.and_true, BEq.rfl, and_self]

theorem build_fields (i : Instr) : i.op.build i.fields = i := by
  cases i <;> simp [Instr.op, Op.build, Instr.fields]

theorem beq_val (a b : FIdx) : (a.val == b.val) = (a == b) := by
  rw [Bool.eq_iff_iff]; simp [Fin.ext_iff]

/-- The last check of the decoder is well-formedness. -/
theorem distinctOk_fields (i : Instr) : i.op.distinctOk i.fields = i.wf := by
  cases i <;> first | rfl | simp [Instr.op, Op.distinctOk, Instr.fields, Instr.wf, bne, beq_val]

end Sys2Proof.Laws
end

