-- ==== Sys2Proof/Laws/Exec.lean ====
section
/-! SUPPORT. One spec lemma for each command with readable sources, and one lemma that says all a command can do. -/

namespace Sys2Proof.Laws

open Sys2Proof.Machine

variable {s t : State}

theorem exec_nop (s : State) : exec .nop s = .next s.complete := rfl

theorem exec_fadd {a b : FIdx} (ha : s.readableF a) (hb : s.readableF b) (d : FIdx) :
    exec (.fadd d a b) s = .next (s.writeF d (s.par.curve.addF (s.fVal a) (s.fVal b))).complete :=
  needs_of_readable (readable_both ha hb)

theorem exec_fsub {a b : FIdx} (ha : s.readableF a) (hb : s.readableF b) (d : FIdx) :
    exec (.fsub d a b) s = .next (s.writeF d (s.par.curve.subF (s.fVal a) (s.fVal b))).complete :=
  needs_of_readable (readable_both ha hb)

theorem exec_fmul {a b : FIdx} (ha : s.readableF a) (hb : s.readableF b) (d : FIdx) :
    exec (.fmul d a b) s = .next (s.writeF d (s.par.curve.mulF (s.fVal a) (s.fVal b))).complete :=
  needs_of_readable (readable_both ha hb)

theorem exec_fmont {a b : FIdx} (ha : s.readableF a) (hb : s.readableF b) (d : FIdx) :
    exec (.fmont d a b) s = .next (s.writeF d (s.par.curve.montF (s.fVal a) (s.fVal b))).complete :=
  needs_of_readable (readable_both ha hb)

theorem exec_finv {a : FIdx} (ha : s.readableF a) (d : FIdx) :
    exec (.finv d a) s = if s.par.curve.red (s.fVal a) = 0 then .next (s.raise .divisionByZero)
      else .next (s.writeF d (s.par.curve.invP (s.par.curve.red (s.fVal a)))).complete :=
  needs_of_readable ha

theorem exec_fsqrt {a : FIdx} (ha : s.readableF a) (d : FIdx) :
    exec (.fsqrt d a) s = match s.par.curve.sqrtP (s.par.curve.red (s.fVal a)) with
      | some r => .next (s.writeF d r).complete
      | none => .next (s.raise .noSquareRoot) :=
  needs_of_readable ha

theorem exec_pldg (s : State) (d : PIdx) : exec (.pldg d) s = .next (s.writeP d s.par.curve.gen).complete := rfl

theorem exec_pldo (s : State) (d : PIdx) : exec (.pldo d) s = .next (s.writeP d oCan).complete := rfl

theorem exec_pset {x y z : FIdx} (hx : s.readableF x) (hy : s.readableF y) (hz : s.readableF z) (d : PIdx) :
    exec (.pset d x y z) s = .next (s.writeP d (s.par.curve.red3 ⟨s.fVal x, s.fVal y, s.fVal z⟩)).complete :=
  needs_of_readable (readable_both (readable_both hx hy) hz)

theorem exec_pget {a : PIdx} (ha : s.readableP a) (x y z : FIdx) :
    exec (.pget x y z a) s
      = .next (((s.writeF x (s.pRaw a).x).writeF y (s.pRaw a).y).writeF z (s.pRaw a).z).complete :=
  needs_of_readable ha

theorem exec_pneg {a : PIdx} (ha : s.readableP a) (d : PIdx) :
    exec (.pneg d a) s = .next (s.writeP d (s.par.curve.neg (s.pVal a))).complete :=
  needs_of_readable ha

theorem exec_padd {a b : PIdx} (ha : s.readableP a) (hb : s.readableP b) (d : PIdx) :
    exec (.padd d a b) s = .next (s.writeP d (s.par.curve.add (s.pVal a) (s.pVal b))).complete :=
  needs_of_readable (readable_both ha hb)

theorem exec_pdbl {a : PIdx} (ha : s.readableP a) (d : PIdx) :
    exec (.pdbl d a) s = .next (s.writeP d (s.par.curve.dbl (s.pVal a))).complete :=
  needs_of_readable ha

theorem exec_peq {a b : PIdx} (ha : s.readableP a) (hb : s.readableP b) :
    exec (.peq a b) s = .next (s.writeEq (s.par.curve.eqPt (s.pVal a) (s.pVal b))).complete :=
  needs_of_readable (readable_both ha hb)

theorem exec_ptst {a : PIdx} (ha : s.readableP a) :
    exec (.ptst a) s = .next (s.writeEq (s.par.curve.isId (s.pRaw a))).complete :=
  needs_of_readable ha

theorem exec_pval {a : PIdx} (ha : s.readableP a) :
    exec (.pval a) s = if s.par.curve.onCurve (s.pVal a) then .next s.complete else .next (s.raise .offCurve) :=
  needs_of_readable ha

theorem exec_toaff {a : PIdx} (ha : s.readableP a) (d : PIdx) :
    exec (.toaff d a) s = if s.par.curve.isId (s.pVal a) then .next (s.raise .identityGiven)
      else .next (s.writeP d ⟨(s.par.curve.affine (s.pVal a)).1, (s.par.curve.affine (s.pVal a)).2, 1⟩).complete :=
  needs_of_readable ha

/-- What SMUL and VSMUL share, with readable sources. -/
theorem scalarCommon_of_readable {k : SIdx} {a : PIdx} (hk : s.readableS k) (ha : s.readableP a) (mul : Nat → Triple → Out)
    (d : PIdx) :
    scalarCommon mul d k a s = if s.par.curve.onCurve (s.pVal a) = false then .next (s.raise .offCurve)
      else if s.scalar k = 0 ∨ s.par.curve.isId (s.pVal a) = true then .next (s.writeP d oCan).complete
      else mul (s.scalar k) (s.pVal a) :=
  needs_of_readable (readable_both hk ha)

/-- SMUL with the VERIFY sample 0. -/
theorem exec_smul_plain {k : SIdx} {a : PIdx} (hk : s.readableS k) (ha : s.readableP a) (hv : s.verifySample = false) (d : PIdx) :
    exec (.smul d k a) s = if s.par.curve.onCurve (s.pVal a) = false then .next (s.raise .offCurve)
      else if s.scalar k = 0 ∨ s.par.curve.isId (s.pVal a) = true then .next (s.writeP d oCan).complete
      else .next (s.writeP d (s.par.curve.mulLtr (s.scalar k) (s.pVal a))).complete := by
  simp only [exec, execSmul, hv, plainMultiply]
  rw [scalarCommon_of_readable hk ha]
  rfl

theorem exec_vsmul {k : SIdx} {a : PIdx} (hk : s.readableS k) (ha : s.readableP a) (d : PIdx) :
    exec (.vsmul d k a) s = if s.par.curve.onCurve (s.pVal a) = false then .next (s.raise .offCurve)
      else if s.scalar k = 0 ∨ s.par.curve.isId (s.pVal a) = true then .next (s.writeP d oCan).complete
      else if s.faultDetected (s.par.curve.mulLtr (s.scalar k) (s.pVal a)) (s.par.curve.mulRtl (s.scalar k) (s.pVal a))
        then .next (s.afterDetect.raise .integrityCheckFailed)
      else .next (s.afterDetect.writeP d (s.par.curve.mulLtr (s.scalar k) (s.pVal a))).complete := by
  simp only [exec, execVsmul, verifiedMultiply]
  rw [scalarCommon_of_readable hk ha]
  rfl

theorem exec_cbit {a : PIdx} (ha : s.readableP a) (d : FIdx) :
    exec (.cbit d a) s = if s.par.curve.isId (s.pVal a) then .next (s.raise .identityGiven)
      else .next (s.writeF d ((s.par.curve.affine (s.pVal a)).2 % 2)).complete :=
  needs_of_readable ha

theorem exec_decomp {x b : FIdx} (hx : s.readableF x) (hb : s.readableF b) (d : PIdx) :
    exec (.decomp d x b) s = match s.par.curve.sqrtP (s.par.curve.rhs (s.par.curve.red (s.fVal x))) with
      | some r => .next (s.writeP d ⟨s.par.curve.red (s.fVal x), s.par.curve.pickRoot r (s.fBit0 b), 1⟩).complete
      | none => .next (s.raise .noSquareRoot) :=
  needs_of_readable (readable_both hx hb)

/-! ### All a command can do -/

/-- The errors of each command, `verify` being its VERIFY sample (60_exceptions.md R271). -/
def errorsOf (verify : Bool) : Instr → List CmdError
  | .finv _ _ => [.divisionByZero]
  | .fsqrt _ _ => [.noSquareRoot]
  | .decomp _ _ _ => [.noSquareRoot]
  | .pval _ => [.offCurve]
  | .toaff _ _ => [.identityGiven]
  | .cbit _ _ => [.identityGiven]
  | .smul _ _ _ => if verify then [.offCurve, .integrityCheckFailed] else [.offCurve]
  | .vsmul _ _ _ => [.offCurve, .integrityCheckFailed]
  | .nop => []
  | .fadd _ _ _ => []
  | .fsub _ _ _ => []
  | .fmul _ _ _ => []
  | .fmont _ _ _ => []
  | .pldg _ => []
  | .pldo _ => []
  | .pset _ _ _ _ => []
  | .pget _ _ _ _ => []
  | .pneg _ _ => []
  | .padd _ _ _ => []
  | .pdbl _ _ => []
  | .peq _ _ => []
  | .ptst _ => []

/-- The command writes STATUS.EQ (10_state.md R50). -/
def writesEq : Instr → Prop
  | .peq _ _ => True
  | .ptst _ => True
  | _ => False

/-- What the writes of a command leave as it was: everything but its destinations, EQ for PEQ and PTST, and the draw counter; and
what its point destinations then hold. -/
structure Wrote (i : Instr) (s u : State) : Prop where
  par     : u.par = s.par
  sc      : u.sc = s.sc
  ctrl    : u.ctrl = s.ctrl
  cmd     : u.cmd = s.cmd
  inbox   : u.inbox = s.inbox
  replies : u.replies = s.replies
  latch   : u.latch = s.latch
  status  : u.status = { s.status with eqFlag := u.status.eqFlag }
  eqFlag  : ¬ writesEq i → u.status.eqFlag = s.status.eqFlag
  fOther  : ∀ j, .f j ∉ destsOf i → u.f[j] = s.f[j]
  pOther  : ∀ j, .p j ∉ destsOf i → u.p[j] = s.p[j]

/-- A command that ends in a next state either ends with one of its errors, or completes with its writes. -/
def Ended (i : Instr) (s t : State) : Prop :=
  (∃ e ∈ errorsOf s.verifySample i, ∃ n, t = State.raise { s with draws := n } e) ∨ ∃ u, t = u.complete ∧ Wrote i s u

theorem wrote_writeF {i : Instr} {d : FIdx} (h : .f d ∈ destsOf i) (v : Int) : Wrote i s (s.writeF d v) := by
  refine ⟨rfl, rfl, rfl, rfl, rfl, rfl, rfl, rfl, fun _ => rfl, ?_, fun _ _ => rfl⟩
  intro j hj
  have hne : d ≠ j := by rintro rfl; exact hj h
  rw [writeF_get, if_neg hne]

theorem wrote_writeP {i : Instr} {d : PIdx} (h : .p d ∈ destsOf i) (T : Triple) (n : Nat) :
    Wrote i s (State.writeP { s with draws := n } d T) := by
  refine ⟨rfl, rfl, rfl, rfl, rfl, rfl, rfl, rfl, fun _ => rfl, fun _ _ => rfl, ?_⟩
  intro j hj
  have hne : d ≠ j := by rintro rfl; exact hj h
  rw [writeP_get, if_neg hne]

theorem wrote_writeEq {i : Instr} (h : writesEq i) (b : Bool) : Wrote i s (s.writeEq b) :=
  ⟨rfl, rfl, rfl, rfl, rfl, rfl, rfl, rfl, fun hn => absurd h hn, fun _ _ => rfl, fun _ _ => rfl⟩

theorem wrote_self (i : Instr) (s : State) : Wrote i s s :=
  ⟨rfl, rfl, rfl, rfl, rfl, rfl, rfl, rfl, fun _ => rfl, fun _ _ => rfl, fun _ _ => rfl⟩

theorem ended_finish {i : Instr} {u : State} (hu : Wrote i s u) (h : finish u = .next t) : Ended i s t :=
  .inr ⟨u, ((finish_next u t).1 h).symm, hu⟩

theorem ended_fail {i : Instr} {e : CmdError} (he : e ∈ errorsOf s.verifySample i) (h : fail s e = .next t) : Ended i s t :=
  .inl ⟨e, he, s.draws, ((fail_next s t e).1 h).symm⟩

theorem afterDetect_eq (s : State) : ∃ n, s.afterDetect = { s with draws := n } := by
  unfold State.afterDetect
  split
  · exact ⟨s.draws, rfl⟩
  · exact ⟨_, rfl⟩

/-- The ends of the shared part of the scalar commands. -/
theorem ended_scalarCommon {i : Instr} {mul : Nat → Triple → Out} {d : PIdx} {k : SIdx} {a : PIdx}
    (hd : .p d ∈ destsOf i) (he : .offCurve ∈ errorsOf s.verifySample i) (hmul : ∀ n T, mul n T = .next t → Ended i s t)
    (h : scalarCommon mul d k a s = .next t) : Ended i s t := by
  replace h := needs_next h
  split at h
  · exact ended_fail he h
  · split at h
    · exact ended_finish (wrote_writeP hd oCan s.draws) h
    · exact hmul _ _ h

theorem ended_verified {i : Instr} {d : PIdx} {k : SIdx} {a : PIdx} (hd : .p d ∈ destsOf i)
    (he : .offCurve ∈ errorsOf s.verifySample i) (hi : .integrityCheckFailed ∈ errorsOf s.verifySample i)
    (h : verifiedMultiply d k a s = .next t) : Ended i s t := by
  refine ended_scalarCommon hd he ?_ h
  intro n T h
  obtain ⟨m, hm⟩ := afterDetect_eq s
  rw [hm] at h
  split at h
  · exact .inl ⟨_, hi, m, ((fail_next _ t _).1 h).symm⟩
  · exact ended_finish (wrote_writeP hd _ m) h

/-- All a command can do, in one lemma: callers take it apart and never unfold a meaning (60_exceptions.md R272, R284). -/
theorem exec_next_cases {i : Instr} (h : exec i s = .next t) : Ended i s t := by
  cases i with
  | nop => exact ended_finish (wrote_self _ s) h
  | fadd d a b => exact ended_finish (wrote_writeF (by simp [destsOf]) _) (needs_next h)
  | fsub d a b => exact ended_finish (wrote_writeF (by simp [destsOf]) _) (needs_next h)
  | fmul d a b => exact ended_finish (wrote_writeF (by simp [destsOf]) _) (needs_next h)
  | fmont d a b => exact ended_finish (wrote_writeF (by simp [destsOf]) _) (needs_next h)
  | finv d a =>
    replace h := needs_next h
    split at h
    · exact ended_fail (by simp [errorsOf]) h
    · exact ended_finish (wrote_writeF (by simp [destsOf]) _) h
  | fsqrt d a =>
    replace h := needs_next h
    split at h
    · exact ended_finish (wrote_writeF (by simp [destsOf]) _) h
    · exact ended_fail (by simp [errorsOf]) h
  | pldg d => exact ended_finish (wrote_writeP (by simp [destsOf]) _ s.draws) h
  | pldo d => exact ended_finish (wrote_writeP (by simp [destsOf]) _ s.draws) h
  | pset d x y z => exact ended_finish (wrote_writeP (by simp [destsOf]) _ s.draws) (needs_next h)
  | pget x y z a =>
    replace h := needs_next h
    refine ended_finish (u := ((s.writeF x (s.pRaw a).x).writeF y (s.pRaw a).y).writeF z (s.pRaw a).z)
      ⟨rfl, rfl, rfl, rfl, rfl, rfl, rfl, rfl, fun _ => rfl, ?_, fun _ _ => rfl⟩ h
    intro j hj
    simp only [destsOf, List.mem_cons, Dest.f.injEq, List.not_mem_nil, or_false, not_or] at hj
    rw [writeF_get, if_neg (Ne.symm hj.2.2), writeF_get, if_neg (Ne.symm hj.2.1), writeF_get, if_neg (Ne.symm hj.1)]
  | pneg d a => exact ended_finish (wrote_writeP (by simp [destsOf]) _ s.draws) (needs_next h)
  | padd d a b => exact ended_finish (wrote_writeP (by simp [destsOf]) _ s.draws) (needs_next h)
  | pdbl d a => exact ended_finish (wrote_writeP (by simp [destsOf]) _ s.draws) (needs_next h)
  | peq a b => exact ended_finish (wrote_writeEq (by simp [writesEq]) _) (needs_next h)
  | ptst a => exact ended_finish (wrote_writeEq (by simp [writesEq]) _) (needs_next h)
  | pval a =>
    replace h := needs_next h
    split at h
    · exact ended_finish (wrote_self _ s) h
    · exact ended_fail (by simp [errorsOf]) h
  | toaff d a =>
    replace h := needs_next h
    split at h
    · exact ended_fail (by simp [errorsOf]) h
    · exact ended_finish (wrote_writeP (by simp [destsOf]) _ s.draws) h
  | smul d k a =>
    simp only [exec, execSmul] at h
    split at h
    · next hv => exact ended_verified (by simp [destsOf]) (by simp [errorsOf, hv]) (by simp [errorsOf, hv]) h
    · next hv =>
      refine ended_scalarCommon (by simp [destsOf]) (by simp [errorsOf, hv]) ?_ h
      intro n T h
      exact ended_finish (wrote_writeP (by simp [destsOf]) _ s.draws) h
  | vsmul d k a => exact ended_verified (by simp [destsOf]) (by simp [errorsOf]) (by simp [errorsOf]) h
  | cbit d a =>
    replace h := needs_next h
    split at h
    · exact ended_fail (by simp [errorsOf]) h
    · exact ended_finish (wrote_writeF (by simp [destsOf]) _) h
  | decomp d x b =>
    replace h := needs_next h
    split at h
    · exact ended_finish (wrote_writeP (by simp [destsOf]) _ s.draws) h
    · exact ended_fail (by simp [errorsOf]) h

/-- No command is refused: a command ends in a next state, or in the fault of 10_state.md R62. -/
theorem exec_ne_refused (i : Instr) (s : State) (r : Refusal) : exec i s ≠ .refused r := by
  have hn (ok : Bool) (k : Out) (hk : k ≠ .refused r) : needs ok k ≠ .refused r := by
    cases ok with
    | true => exact hk
    | false => intro h; cases h
  have hsc (mul : Nat → Triple → Out) (hm : ∀ n T, mul n T ≠ .refused r) (d k a) : scalarCommon mul d k a s ≠ .refused r := by
    refine hn _ _ ?_
    split
    · intro h; cases h
    · split
      · intro h; cases h
      · exact hm _ _
  have hv (d k a) : verifiedMultiply d k a s ≠ .refused r := hsc _ (fun n T => by split <;> (intro h; cases h)) d k a
  have hp (d k a) : plainMultiply d k a s ≠ .refused r := hsc _ (fun n T => by intro h; cases h) d k a
  cases i with
  | smul d k a =>
    show (if s.verifySample then _ else _) ≠ _
    split
    · exact hv d k a
    · exact hp d k a
  | vsmul d k a => exact hv d k a
  | nop => intro h; cases h
  | pldg => intro h; cases h
  | pldo => intro h; cases h
  | finv d a => refine hn _ _ ?_; split <;> (intro h; cases h)
  | fsqrt d a => refine hn _ _ ?_; split <;> (intro h; cases h)
  | pval a => refine hn _ _ ?_; split <;> (intro h; cases h)
  | toaff d a => refine hn _ _ ?_; split <;> (intro h; cases h)
  | cbit d a => refine hn _ _ ?_; split <;> (intro h; cases h)
  | decomp d x b => refine hn _ _ ?_; split <;> (intro h; cases h)
  | _ => refine hn _ _ ?_; intro h; cases h

end Sys2Proof.Laws
end

