-- ==== Sys2Proof/Laws/GroupLaw.lean ====
section
/-! SUPPORT. The Jacobian formulas of Machine/GroupLaw.lean compute the group law of the curve: each operation takes
representatives to a representative (`Curve.Rep` in Safety.lean). -/

namespace Sys2Proof.Laws

open WeierstrassCurve

variable {c : Curve}

theorem isId_iff (c : Curve) (T : Triple) : c.isId T = true ↔ (T.z : ZMod c.p.toNat) = 0 := by
  rw [Curve.isId, decide_eq_true_iff, cast_eq_zero_iff]

theorem isId_false_iff (c : Curve) (T : Triple) : c.isId T = false ↔ (T.z : ZMod c.p.toNat) ≠ 0 := by
  rw [← Bool.not_eq_true, isId_iff]

@[simp] theorem isId_oCan (c : Curve) : c.isId oCan = true := by rw [isId_iff]; simp [oCan]

@[simp] theorem rep_zero_iff (T : Triple) : c.Rep T 0 ↔ c.isId T = true := (isId_iff c T).symm

theorem rep_some_iff (T : Triple) (x y : ZMod c.p.toNat) (h : c.weier.Nonsingular x y) :
    c.Rep T (.some x y h) ↔ (T.z : ZMod c.p.toNat) ≠ 0 ∧ (T.x : ZMod c.p.toNat) = x * (T.z : ZMod c.p.toNat) ^ 2
      ∧ (T.y : ZMod c.p.toNat) = y * (T.z : ZMod c.p.toNat) ^ 3 := Iff.rfl

/-- Which triples of coordinates mod p agree represent the same points. -/
theorem rep_congr {T U : Triple} (hx : (T.x : ZMod c.p.toNat) = U.x) (hy : (T.y : ZMod c.p.toNat) = U.y)
    (hz : (T.z : ZMod c.p.toNat) = U.z) (Q : c.weier.Point) : c.Rep T Q ↔ c.Rep U Q := by
  cases Q <;> simp [Curve.Rep, hx, hy, hz]

theorem rep_red3 (T : Triple) (Q : c.weier.Point) : c.Rep (c.red3 T) Q ↔ c.Rep T Q := by
  unfold Curve.red3
  split
  · next h =>
    rw [isId_iff] at h
    cases Q with
    | zero => simp [Curve.Rep, h, oCan]
    | some x y hn => simp [Curve.Rep, h, oCan]
  · exact rep_congr (by simp) (by simp) (by simp) Q

/-- Weierstrass equation and negation of this curve. -/
theorem weier_negY (x y : ZMod c.p.toNat) : c.weier.negY x y = -y := by simp [Affine.negY, Curve.weier]

theorem weier_equation (x y : ZMod c.p.toNat) :
    c.weier.Equation x y ↔ y ^ 2 = x ^ 3 + (c.aI : ZMod c.p.toNat) * x + (c.bI : ZMod c.p.toNat) := by
  rw [Affine.equation_iff]; simp [Curve.weier]

/-- The on-curve test is the affine equation times `Z⁶` (43_point.md R178). -/
theorem onCurve_iff (T : Triple) : c.onCurve T = true ↔ (T.z : ZMod c.p.toNat) = 0 ∨
    (T.y : ZMod c.p.toNat) ^ 2 = (T.x : ZMod c.p.toNat) ^ 3 + (c.aI : ZMod c.p.toNat) * T.x * (T.z : ZMod c.p.toNat) ^ 4
      + (c.bI : ZMod c.p.toNat) * (T.z : ZMod c.p.toNat) ^ 6 := by
  unfold Curve.onCurve
  by_cases h : c.isId T = true
  · simp [h, (isId_iff c T).1 h]
  · have hz := (isId_false_iff c T).1 (by simpa using h)
    rw [if_neg h]
    simp only [decide_eq_true_iff, ← cast_eq_zero_iff, hz, false_or]
    push_cast
    rw [sub_eq_zero]
    constructor <;> intro h' <;> linear_combination h'

section Prime

variable [hp : Fact c.p.toNat.Prime]

/-- An admitted curve is an elliptic curve: every solution of its equation is a nonsingular point. -/
theorem nonsingular_of_equation (hc : c.Admitted) {x y : ZMod c.p.toNat} (h : c.weier.Equation x y) :
    c.weier.Nonsingular x y := by
  rw [← Affine.equation_iff_nonsingular_of_Δ_ne_zero]
  · exact h
  · have hd := hc.nonsingular
    rw [Ne, ← cast_eq_zero_iff] at hd
    have h2 : (2 : ZMod c.p.toNat) ≠ 0 := by
      have : ((2 : Nat) : ZMod c.p.toNat) ≠ 0 := by
        rw [Ne, ZMod.natCast_eq_zero_iff]
        exact fun hdv => absurd (Nat.le_of_dvd (by norm_num) hdv) (by have := hc.pAboveThree; omega)
      exact_mod_cast this
    intro h0
    apply hd
    have : c.weier.Δ = -2 ^ 4 * (4 * (c.aI : ZMod c.p.toNat) ^ 3 + 27 * (c.bI : ZMod c.p.toNat) ^ 2) := by
      simp [WeierstrassCurve.Δ, WeierstrassCurve.b₂, WeierstrassCurve.b₄, WeierstrassCurve.b₆, WeierstrassCurve.b₈, Curve.weier]
      ring
    rw [this] at h0
    have h16 : (-2 ^ 4 : ZMod c.p.toNat) ≠ 0 := neg_ne_zero.2 (pow_ne_zero _ h2)
    have := (mul_eq_zero.1 h0).resolve_left h16
    push_cast
    linear_combination this

/-- The finite triples on the curve are those that represent a point. -/
theorem exists_rep_iff (hc : c.Admitted) (T : Triple) : (∃ Q, c.Rep T Q) ↔ c.onCurve T = true := by
  rw [onCurve_iff]
  constructor
  · rintro ⟨Q, hQ⟩
    cases Q with
    | zero => exact .inl hQ
    | some x y h =>
      obtain ⟨hz, hx, hy⟩ := hQ
      right
      have he := (weier_equation x y).1 h.1
      rw [hx, hy]
      linear_combination (T.z : ZMod c.p.toNat) ^ 6 * he
  · by_cases hz : (T.z : ZMod c.p.toNat) = 0
    · exact fun _ => ⟨0, hz⟩
    · intro h
      replace h := h.resolve_left hz
      have he : c.weier.Equation ((T.x : ZMod c.p.toNat) / (T.z : ZMod c.p.toNat) ^ 2) ((T.y : ZMod c.p.toNat) / (T.z : ZMod c.p.toNat) ^ 3) := by
        rw [weier_equation]
        field_simp
        linear_combination h
      exact ⟨.some _ _ (nonsingular_of_equation hc he), hz, by field_simp, by field_simp⟩

omit hp in
/-- A triple represents at most one point. -/
theorem rep_unique [Fact c.p.toNat.Prime] {T : Triple} {Q R : c.weier.Point} (hQ : c.Rep T Q) (hR : c.Rep T R) : Q = R := by
  cases Q with
  | zero =>
    cases R with
    | zero => rfl
    | some x y h => exact absurd hQ hR.1
  | some x y h =>
    cases R with
    | zero => exact absurd hR hQ.1
    | some x' y' h' =>
      obtain ⟨hz, hx, hy⟩ := hQ
      obtain ⟨-, hx', hy'⟩ := hR
      have e1 : x = x' := mul_right_cancel₀ (pow_ne_zero 2 hz) (hx.symm.trans hx')
      have e2 : y = y' := mul_right_cancel₀ (pow_ne_zero 3 hz) (hy.symm.trans hy')
      subst e1 e2
      rfl

/-- `eq` is equality of the points (43_point.md R177, R189). -/
theorem eqPt_iff {T U : Triple} {Q R : c.weier.Point} (hT : c.Rep T Q) (hU : c.Rep U R) : c.eqPt T U = true ↔ Q = R := by
  unfold Curve.eqPt
  cases Q with
  | zero =>
    have h1 : c.isId T = true := (isId_iff c T).2 hT
    cases R with
    | zero => simp [h1, (isId_iff c U).2 hU]
    | some x y h => simp [h1, (isId_false_iff c U).2 hU.1]
  | some x y h =>
    have h1 := (isId_false_iff c T).2 hT.1
    cases R with
    | zero => simp [h1, (isId_iff c U).2 hU]
    | some x' y' h' =>
      obtain ⟨hz, hx, hy⟩ := hT
      obtain ⟨hz', hx', hy'⟩ := hU
      simp only [h1, (isId_false_iff c U).2 hz', Bool.or_self, Bool.false_eq_true, if_false, Bool.and_eq_true,
        decide_eq_true_iff, ← cast_eq_zero_iff]
      push_cast
      rw [hx, hy, hx', hy', Affine.Point.some.injEq]
      constructor
      · rintro ⟨e1, e2⟩
        refine ⟨mul_right_cancel₀ (mul_ne_zero (pow_ne_zero 2 hz) (pow_ne_zero 2 hz')) ?_,
          mul_right_cancel₀ (mul_ne_zero (pow_ne_zero 3 hz) (pow_ne_zero 3 hz')) ?_⟩
        · linear_combination e1
        · linear_combination e2
      · rintro ⟨rfl, rfl⟩
        exact ⟨by ring, by ring⟩

omit hp in
/-- `neg` represents the negative (43_point.md R174). -/
theorem rep_neg {T : Triple} {Q : c.weier.Point} (hT : c.Rep T Q) : c.Rep (c.neg T) (-Q) := by
  unfold Curve.neg
  cases Q with
  | zero => rw [if_pos ((isId_iff c T).2 hT)]; exact (rep_zero_iff _).2 (isId_oCan c)
  | some x y h =>
    obtain ⟨hz, hx, hy⟩ := hT
    rw [if_neg (by simp [(isId_false_iff c T).2 hz]), Affine.Point.neg_some]
    refine ⟨hz, hx, ?_⟩
    simp only [cast_emod_pI]
    push_cast
    rw [hy, weier_negY, pI_eq]
    simp

theorem two_ne_zero_of (hc : c.Admitted) : (2 : ZMod c.p.toNat) ≠ 0 := by
  have : ((2 : Nat) : ZMod c.p.toNat) ≠ 0 := by
    rw [Ne, ZMod.natCast_eq_zero_iff]
    exact fun hdv => absurd (Nat.le_of_dvd (by norm_num) hdv) (by have := hc.pAboveThree; omega)
  exact_mod_cast this

/-- `dbl` represents the double (43_point.md R175). -/
theorem rep_dbl (hc : c.Admitted) {T : Triple} {Q : c.weier.Point} (hT : c.Rep T Q) : c.Rep (c.dbl T) (Q + Q) := by
  unfold Curve.dbl
  cases Q with
  | zero =>
    rw [if_pos ((isId_iff c T).2 hT)]
    exact (rep_zero_iff (c := c) oCan).2 (isId_oCan c)
  | some x y h =>
    obtain ⟨hz, hx, hy⟩ := hT
    have h2 := two_ne_zero_of hc
    rw [if_neg (by simp [(isId_false_iff c T).2 hz])]
    simp only
    by_cases hy0 : y = 0
    · have hz3 : 2 * T.y * T.z % c.pI = 0 := by
        rw [← cast_eq_zero_iff]; push_cast; rw [hy, hy0]; ring
      rw [if_pos hz3, Affine.Point.add_self_of_Y_eq (by rw [weier_negY, hy0, neg_zero])]
      exact (rep_zero_iff (c := c) oCan).2 (isId_oCan c)
    · have hne : y ≠ c.weier.negY x y := by
        rw [weier_negY]
        intro e
        exact (mul_ne_zero h2 hy0) (by linear_combination e)
      have hz3 : ¬ 2 * T.y * T.z % c.pI = 0 := by
        rw [← cast_eq_zero_iff]; push_cast; rw [hy]
        exact mul_ne_zero (mul_ne_zero h2 (mul_ne_zero hy0 (pow_ne_zero 3 hz))) hz
      rw [if_neg hz3, Affine.Point.add_self_of_Y_ne hne]
      have hs : c.weier.slope x x y y = (3 * x ^ 2 + (c.aI : ZMod c.p.toNat)) / (2 * y) := by
        rw [Affine.slope_of_Y_ne rfl hne, weier_negY]
        simp only [Curve.weier]
        congr 1 <;> ring
      refine ⟨?_, ?_, ?_⟩
      · rw [Ne, cast_emod_pI]
        push_cast; rw [hy]
        exact mul_ne_zero (mul_ne_zero h2 (mul_ne_zero hy0 (pow_ne_zero 3 hz))) hz
      · simp only [cast_emod_pI, Int.cast_sub, Int.cast_mul, Int.cast_add, Int.cast_ofNat]
        rw [hs, Affine.addX, hx, hy]
        simp only [Curve.weier]
        field_simp
        ring
      · simp only [cast_emod_pI, Int.cast_sub, Int.cast_mul, Int.cast_add, Int.cast_ofNat]
        rw [hs, Affine.addY, Affine.negAddY, Affine.addX, weier_negY, hx, hy]
        simp only [Curve.weier]
        field_simp
        ring

/-- The general addition represents the sum of points with different `x` (43_point.md R176, step 4). -/
theorem rep_addGeneral {T U : Triple} {x y x' y' : ZMod c.p.toNat} {h : c.weier.Nonsingular x y} {h' : c.weier.Nonsingular x' y'}
    (hT : c.Rep T (.some x y h)) (hU : c.Rep U (.some x' y' h')) (hne : x ≠ x') :
    c.Rep (c.addGeneral T U) (.some x y h + .some x' y' h') := by
  obtain ⟨hz, hx, hy⟩ := hT
  obtain ⟨hz', hx', hy'⟩ := hU
  have hd : x - x' ≠ 0 := sub_ne_zero.2 hne
  rw [Affine.Point.add_of_X_ne hne]
  unfold Curve.addGeneral
  simp only
  have hz3 : (((U.x * (T.z * T.z) % c.pI - T.x * (U.z * U.z) % c.pI) % c.pI * T.z * U.z : Int) : ZMod c.p.toNat)
      = (x' - x) * ((T.z : ZMod c.p.toNat) * U.z) ^ 3 := by
    simp only [cast_emod_pI, Int.cast_sub, Int.cast_mul]
    rw [hx, hx']; ring
  have hz3' : ((x' - x) * ((T.z : ZMod c.p.toNat) * U.z) ^ 3) ≠ 0 :=
    mul_ne_zero (sub_ne_zero.2 hne.symm) (pow_ne_zero _ (mul_ne_zero hz hz'))
  rw [if_neg (by rw [← cast_eq_zero_iff, hz3]; exact hz3')]
  have hs := Affine.slope_of_X_ne (W := c.weier) (y₁ := y) (y₂ := y') hne
  refine ⟨?_, ?_, ?_⟩
  · simp only [cast_emod_pI]; rw [hz3]; exact hz3'
  · simp only [cast_emod_pI, hz3]
    simp only [cast_emod_pI, Int.cast_sub, Int.cast_mul, Int.cast_ofNat]
    rw [hs, Affine.addX, hx, hy, hx', hy']
    simp only [Curve.weier]
    field_simp
    ring
  · simp only [cast_emod_pI, hz3]
    simp only [cast_emod_pI, Int.cast_sub, Int.cast_mul, Int.cast_ofNat]
    rw [hs, Affine.addY, Affine.negAddY, Affine.addX, weier_negY, hx, hy, hx', hy']
    simp only [Curve.weier]
    field_simp
    ring

/-- `add` represents the sum (43_point.md R176). -/
theorem rep_add (hc : c.Admitted) {T U : Triple} {Q R : c.weier.Point} (hT : c.Rep T Q) (hU : c.Rep U R) :
    c.Rep (c.add T U) (Q + R) := by
  unfold Curve.add
  by_cases h1 : c.isId T = true
  · have : Q = 0 := rep_unique hT ((rep_zero_iff T).2 h1)
    rw [if_pos h1, this, zero_add]; exact hU
  by_cases h2 : c.isId U = true
  · have : R = 0 := rep_unique hU ((rep_zero_iff U).2 h2)
    rw [if_neg h1, if_pos h2, this, add_zero]; exact hT
  rw [if_neg h1, if_neg h2]
  by_cases h3 : c.eqPt T U = true
  · have : Q = R := (eqPt_iff hT hU).1 h3
    rw [if_pos h3, ← this]; exact rep_dbl hc hT
  rw [if_neg h3]
  by_cases h4 : c.eqPt T (c.neg U) = true
  · have : Q = -R := (eqPt_iff hT (rep_neg hU)).1 h4
    rw [if_pos h4, this, neg_add_cancel]; exact (rep_zero_iff (c := c) oCan).2 (isId_oCan c)
  rw [if_neg h4]
  have hne : Q ≠ R := fun e => h3 ((eqPt_iff hT hU).2 e)
  have hne' : Q ≠ -R := fun e => h4 ((eqPt_iff hT (rep_neg hU)).2 e)
  cases Q with
  | zero => exact absurd ((rep_zero_iff T).1 hT) h1
  | some x y h =>
    cases R with
    | zero => exact absurd ((rep_zero_iff U).1 hU) h2
    | some x' y' h' =>
      refine rep_addGeneral hT hU fun e => ?_
      rcases Affine.Point.X_eq_iff.1 e with e | e
      · exact hne e
      · exact hne' e

end Prime

end Sys2Proof.Laws
end

