-- ==== Sys2Proof/Laws/Multiply.lean ====
section
/-! SUPPORT. Both double-and-add paths of Machine/Multiply.lean compute the multiple `k • Q` of the point their operand
represents. -/

namespace Sys2Proof.Laws

variable {c : Curve} [hp : Fact c.p.toNat.Prime]

/-- The bits down to 0 are added to `2^i` times what the accumulator holds (44_scalar.md R213). -/
theorem rep_ltrLoop (hc : c.Admitted) {k : Nat} {T : Triple} {Q : c.weier.Point} (hT : c.Rep T Q) (i : Nat) {A : Triple} {m : Nat}
    (hA : c.Rep A (m • Q)) : c.Rep (c.ltrLoop k T i A) ((2 ^ i * m + k % 2 ^ i) • Q) := by
  induction i generalizing A m with
  | zero => simpa [Curve.ltrLoop, Nat.mod_one] using hA
  | succ i ih =>
    have hD : c.Rep (c.dbl A) ((2 * m) • Q) := by
      rw [two_mul, add_nsmul]; exact rep_dbl hc hA
    have hk : k % 2 ^ (i + 1) = 2 ^ i * (k.testBit i).toNat + k % 2 ^ i := by
      rw [pow_succ, Nat.mod_mul, Nat.testBit_eq_decide_div_mod_eq]
      rcases Nat.mod_two_eq_zero_or_one (k / 2 ^ i) with h | h <;> simp [h, Nat.add_comm]
    rw [Curve.ltrLoop, hk]
    cases k.testBit i with
    | false =>
      have := ih hD
      rw [if_neg (by simp)]
      convert this using 2
      simp [pow_succ]; ring
    | true =>
      have hS : c.Rep (c.add (c.dbl A) T) ((2 * m + 1) • Q) := by
        rw [add_nsmul, one_nsmul]; exact rep_add hc hD hT
      have := ih hS
      rw [if_pos rfl]
      convert this using 2
      simp [pow_succ]; ring

/-- `mul_ltr(k, T)` represents `k • Q` (44_scalar.md R213). -/
theorem rep_mulLtr (hc : c.Admitted) {T : Triple} {Q : c.weier.Point} (hT : c.Rep T Q) (k : Nat) :
    c.Rep (c.mulLtr k T) (k • Q) := by
  have h0 : c.Rep oCan ((0 : Nat) • Q) := by
    rw [zero_nsmul]; exact (rep_zero_iff (c := c) oCan).2 (isId_oCan c)
  have := rep_ltrLoop (k := k) hc hT (bitlen k) h0
  rwa [Nat.mod_eq_of_lt (lt_two_pow_bitlen k), Nat.mul_zero, Nat.zero_add] at this

/-- The bits from `i` up are added, `Q` doubled each time (45_verified.md R231). -/
theorem rep_rtlLoop (hc : c.Admitted) {k : Nat} {Q : c.weier.Point} (m i : Nat) {A B : Triple} {a : Nat}
    (hA : c.Rep A (a • Q)) (hB : c.Rep B ((2 ^ i) • Q)) :
    c.Rep (c.rtlLoop k m i A B) ((a + 2 ^ i * (k / 2 ^ i % 2 ^ m)) • Q) := by
  induction m generalizing A B a i with
  | zero => simpa [Curve.rtlLoop, Nat.mod_one] using hA
  | succ m ih =>
    have hD : c.Rep (c.dbl B) ((2 ^ (i + 1)) • Q) := by
      rw [pow_succ, mul_two, add_nsmul]; exact rep_dbl hc hB
    have hk : k / 2 ^ i % 2 ^ (m + 1) = (k.testBit i).toNat + 2 * (k / 2 ^ (i + 1) % 2 ^ m) := by
      rw [pow_succ, Nat.mul_comm (2 ^ m) 2, Nat.mod_mul, Nat.div_div_eq_div_mul, ← pow_succ,
        Nat.testBit_eq_decide_div_mod_eq]
      rcases Nat.mod_two_eq_zero_or_one (k / 2 ^ i) with h | h <;> simp [h]
    rw [Curve.rtlLoop, hk]
    cases k.testBit i with
    | false =>
      have := ih (i + 1) hA hD
      rw [if_neg (by simp)]
      convert this using 2
      simp [pow_succ]; ring
    | true =>
      have hS : c.Rep (c.add A B) ((a + 2 ^ i) • Q) := by
        rw [add_nsmul]; exact rep_add hc hA hB
      have := ih (i + 1) hS hD
      rw [if_pos rfl]
      convert this using 2
      simp [pow_succ]; ring

/-- `mul_rtl(k, T)` represents `k • Q` (45_verified.md R231). -/
theorem rep_mulRtl (hc : c.Admitted) {T : Triple} {Q : c.weier.Point} (hT : c.Rep T Q) (k : Nat) :
    c.Rep (c.mulRtl k T) (k • Q) := by
  have h0 : c.Rep oCan ((0 : Nat) • Q) := by
    rw [zero_nsmul]; exact (rep_zero_iff (c := c) oCan).2 (isId_oCan c)
  have h1 : c.Rep T ((2 ^ 0) • Q) := by simpa using hT
  have := rep_rtlLoop (k := k) hc (bitlen k) 0 h0 h1
  rw [Curve.mulRtl]
  simpa [Nat.mod_eq_of_lt (lt_two_pow_bitlen k)] using this

/-- The two paths agree on every on-curve operand (45_verified.md R231, R233). -/
theorem paths_agree (hc : c.Admitted) {T : Triple} (hT : c.onCurve T = true) (k : Nat) :
    c.eqPt (c.mulLtr k T) (c.mulRtl k T) = true := by
  obtain ⟨Q, hQ⟩ := (exists_rep_iff hc T).2 hT
  exact (eqPt_iff (rep_mulLtr hc hQ k) (rep_mulRtl hc hQ k)).2 rfl

/-- The generator has order `n` (42_curve.md R152). -/
theorem gen_order (hc : c.Admitted) {G : c.weier.Point} (hG : c.Rep c.gen G) : c.n.toNat • G = 0 :=
  rep_unique (rep_mulLtr hc hG c.n.toNat) ((rep_zero_iff _).2 hc.genOrder)

omit hp in
/-- A loop over the bits of `2m + b` above bit 0 is the loop over the bits of `m`. -/
theorem ltrLoop_bit (m : Nat) (b : Bool) (T : Triple) (i : Nat) (A : Triple) :
    c.ltrLoop (2 * m + b.toNat) T (i + 1) A =
      let D := c.dbl (c.ltrLoop m T i A)
      if b then c.add D T else D := by
  have h0 : (2 * m + b.toNat).testBit 0 = b := by cases b <;> simp
  have hs (j : Nat) : (2 * m + b.toNat).testBit (j + 1) = m.testBit j := by
    rw [Nat.testBit_succ]; congr 1; (cases b <;> (simp; try omega))
  induction i generalizing A with
  | zero => simp only [Curve.ltrLoop, h0]
  | succ i ih => rw [Curve.ltrLoop, hs, ih]; rfl

omit hp in
/-- The exact triples of `mul_ltr` by one more bit: a doubling, and the addition of the operand where the bit is 1
(44_scalar.md R213). -/
theorem mulLtr_bit (m : Nat) (hm : 1 ≤ m) (b : Bool) (T : Triple) :
    c.mulLtr (2 * m + b.toNat) T =
      let D := c.dbl (c.mulLtr m T)
      if b then c.add D T else D := by
  have hb : bitlen (2 * m + b.toNat) = bitlen m + 1 := by
    have h1 : m ≠ 0 := by omega
    have h2 : 2 * m + b.toNat ≠ 0 := by omega
    rw [bitlen, bitlen, if_neg h1, if_neg h2, Nat.log2_def, if_pos (by omega)]
    have : (2 * m + b.toNat) / 2 = m := by (cases b <;> (simp; try omega))
    rw [this]
  rw [Curve.mulLtr, hb, ltrLoop_bit, ← Curve.mulLtr]

end Sys2Proof.Laws
end

