-- ==== Sys2Proof/Laws/PerInstr.lean ====
section
/-! SUPPORT. One fact for each command: its word carries its opcode, its operand fields and a zero byte (30_encoding.md R101,
R104, R109). -/

namespace Sys2Proof.Laws.EncodeFields

/-- The word of `i` holds the opcode of its row, its operand fields, and 0 in its low byte. -/
def Statement (i : Instr) : Prop :=
  opcodeField (encode i) = i.op.code ∧ fieldsOf (encode i) = i.fields ∧ zeroField (encode i) = 0

theorem of_fields_small (i : Instr) : Statement i :=
  ⟨opcodeField_pack (code_lt _) (instr_fields_small i), fieldsOf_pack (code_lt _) (instr_fields_small i),
    zeroField_pack (code_lt _) (instr_fields_small i)⟩

theorem nop : Statement .nop := of_fields_small _
theorem fadd (a : FIdx) (b : FIdx) (c : FIdx) : Statement (.fadd a b c) := of_fields_small _
theorem fsub (a : FIdx) (b : FIdx) (c : FIdx) : Statement (.fsub a b c) := of_fields_small _
theorem fmul (a : FIdx) (b : FIdx) (c : FIdx) : Statement (.fmul a b c) := of_fields_small _
theorem fmont (a : FIdx) (b : FIdx) (c : FIdx) : Statement (.fmont a b c) := of_fields_small _
theorem finv (a : FIdx) (b : FIdx) : Statement (.finv a b) := of_fields_small _
theorem fsqrt (a : FIdx) (b : FIdx) : Statement (.fsqrt a b) := of_fields_small _
theorem pldg (a : PIdx) : Statement (.pldg a) := of_fields_small _
theorem pldo (a : PIdx) : Statement (.pldo a) := of_fields_small _
theorem pset (a : PIdx) (b : FIdx) (c : FIdx) (d : FIdx) : Statement (.pset a b c d) := of_fields_small _
theorem pget (a : FIdx) (b : FIdx) (c : FIdx) (d : PIdx) : Statement (.pget a b c d) := of_fields_small _
theorem pneg (a : PIdx) (b : PIdx) : Statement (.pneg a b) := of_fields_small _
theorem padd (a : PIdx) (b : PIdx) (c : PIdx) : Statement (.padd a b c) := of_fields_small _
theorem pdbl (a : PIdx) (b : PIdx) : Statement (.pdbl a b) := of_fields_small _
theorem peq (a : PIdx) (b : PIdx) : Statement (.peq a b) := of_fields_small _
theorem ptst (a : PIdx) : Statement (.ptst a) := of_fields_small _
theorem pval (a : PIdx) : Statement (.pval a) := of_fields_small _
theorem toaff (a : PIdx) (b : PIdx) : Statement (.toaff a b) := of_fields_small _
theorem smul (a : PIdx) (b : SIdx) (c : PIdx) : Statement (.smul a b c) := of_fields_small _
theorem vsmul (a : PIdx) (b : SIdx) (c : PIdx) : Statement (.vsmul a b c) := of_fields_small _
theorem cbit (a : FIdx) (b : PIdx) : Statement (.cbit a b) := of_fields_small _
theorem decomp (a : PIdx) (b : FIdx) (c : FIdx) : Statement (.decomp a b c) := of_fields_small _

end Sys2Proof.Laws.EncodeFields
end

