-- ==== Sys2Proof/Laws/Points.lean ====
section
/-! SUPPORT. Point registers in the terms of the claims: what `red3` of a register is mod p, and which point a written register
holds. -/

namespace Sys2Proof.Laws

open Sys2Proof.Machine

theorem Admitted.pos {c : Curve} (hc : c.Admitted) : 0 < c.p.toNat := by have := hc.pAboveThree; omega

theorem Admitted.one_lt {c : Curve} (hc : c.Admitted) : 1 < c.p.toNat := by have := hc.pAboveThree; omega

variable (s : State)

theorem cast_fVal (a : FIdx) : ((s.fVal a : Int) : ZMod s.modulus) = (s.fNat a : ZMod s.modulus) := by
  simp [State.fVal, State.fNat]

theorem cast_x (a : PIdx) : (((s.pRaw a).x : Int) : ZMod s.par.curve.p.toNat) = s.xMod a := by
  simp [State.pRaw, State.xMod]

theorem cast_y (a : PIdx) : (((s.pRaw a).y : Int) : ZMod s.par.curve.p.toNat) = s.yMod a := by
  simp [State.pRaw, State.yMod]

theorem cast_z (a : PIdx) : (((s.pRaw a).z : Int) : ZMod s.par.curve.p.toNat) = s.zMod a := by
  simp [State.pRaw, State.zMod]

theorem isId_pRaw (a : PIdx) : s.par.curve.isId (s.pRaw a) = true ↔ s.zMod a = 0 := by rw [isId_iff, cast_z]

/-- Z is 0 mod p. -/
theorem zMod_eq_zero_iff (a : PIdx) : s.zMod a = 0 ↔ s.p[a].z.val.toNat % s.modulus = 0 := by
  rw [State.zMod, ZMod.natCast_eq_zero_iff, Nat.dvd_iff_mod_eq_zero]

theorem isId_pVal (a : PIdx) : s.par.curve.isId (s.pVal a) = true ↔ s.zMod a = 0 := by
  rw [← isId_pRaw, State.pVal, Curve.red3]
  split
  · next h => simp [h]
  · next h => rw [isId_iff, cast_emod_pI, ← isId_iff]

/-- A finite point register, as the commands read it, mod p. -/
theorem cast_pVal {a : PIdx} (h : s.zMod a ≠ 0) :
    (((s.pVal a).x : Int) : ZMod s.par.curve.p.toNat) = s.xMod a ∧ (((s.pVal a).y : Int) : ZMod s.par.curve.p.toNat) = s.yMod a
      ∧ (((s.pVal a).z : Int) : ZMod s.par.curve.p.toNat) = s.zMod a := by
  have : ¬ s.par.curve.isId (s.pRaw a) = true := fun h' => h ((isId_pRaw s a).1 h')
  rw [State.pVal, Curve.red3, if_neg this]
  simp only [cast_emod_pI]
  exact ⟨cast_x s a, cast_y s a, cast_z s a⟩

theorem canonical_pVal (hp : 0 < s.par.curve.p.toNat) (a : PIdx) : s.par.curve.Canonical (s.pVal a) := canonical_red3 hp _

/-- Reading a point register reduces its triple and keeps its point (43_point.md R172). -/
theorem rep_pVal (a : PIdx) (Q : s.par.curve.weier.Point) : s.par.curve.Rep (s.pVal a) Q ↔ s.holdsPoint s a Q := rep_red3 _ _

/-- The point a command has written. -/
theorem holdsPoint_writeP (d : PIdx) {T : Triple} (hT : s.par.curve.Canonical T) (Q : s.par.curve.weier.Point) :
    s.holdsPoint (s.writeP d T).complete d Q ↔ s.par.curve.Rep T Q := by
  rw [State.holdsPoint, writeP_complete_pRaw s d T (fits_of_canonical hT)]

/-- The three coordinate values of a register a command has written. -/
theorem writeP_complete_vals (d : PIdx) {T : Triple} (hT : Fits T) :
    ((s.writeP d T).complete.p[d].x.val.toNat : Int) = T.x ∧ ((s.writeP d T).complete.p[d].y.val.toNat : Int) = T.y
      ∧ ((s.writeP d T).complete.p[d].z.val.toNat : Int) = T.z := by
  rw [writeP_complete_get]
  exact ⟨written_toNat hT.1.1 hT.1.2, written_toNat hT.2.1.1 hT.2.1.2, written_toNat hT.2.2.1 hT.2.2.2⟩

/-- The same, mod p. -/
theorem cast_writeP_vals (d : PIdx) {T : Triple} (hT : s.par.curve.Canonical T) :
    ((s.writeP d T).complete.p[d].x.val.toNat : ZMod s.modulus) = ((T.x : Int) : ZMod s.modulus)
      ∧ ((s.writeP d T).complete.p[d].y.val.toNat : ZMod s.modulus) = ((T.y : Int) : ZMod s.modulus)
      ∧ ((s.writeP d T).complete.p[d].z.val.toNat : ZMod s.modulus) = ((T.z : Int) : ZMod s.modulus) := by
  obtain ⟨h1, h2, h3⟩ := writeP_complete_vals s d (fits_of_canonical hT)
  rw [← h1, ← h2, ← h3]
  exact ⟨(Int.cast_natCast _).symm, (Int.cast_natCast _).symm, (Int.cast_natCast _).symm⟩

theorem cast_aI : ((s.par.curve.aI : Int) : ZMod s.modulus) = (s.par.curve.a.toNat : ZMod s.modulus) := by simp [Curve.aI]

theorem cast_bI : ((s.par.curve.bI : Int) : ZMod s.modulus) = (s.par.curve.b.toNat : ZMod s.modulus) := by simp [Curve.bI]

/-- The affine coordinates of a finite register, with no inverse in the statement (43_point.md R179). -/
theorem cast_affine (hc : s.par.curve.Admitted) {a : PIdx} (hz : s.zMod a ≠ 0) :
    ((s.par.curve.affine (s.pVal a)).1 : ZMod s.modulus) * s.zMod a ^ 2 = s.xMod a
      ∧ ((s.par.curve.affine (s.pVal a)).2 : ZMod s.modulus) * s.zMod a ^ 3 = s.yMod a := by
  have hF : Fact s.par.curve.p.toNat.Prime := ⟨hc.pPrime⟩
  obtain ⟨x1, y1, z1⟩ := cast_pVal s hz
  have hzi := cast_invP_of_ne hF (x := (s.pVal a).z) (by rw [z1]; exact hz)
  simp only [Curve.affine, cast_emod_pI, Int.cast_mul, hzi, x1, y1, z1]
  constructor
  · field_simp
  · field_simp

/-- The right side of the curve equation at a field register's x (46_codec.md R248). -/
theorem cast_rhs (x : FIdx) : ((s.par.curve.rhs (s.par.curve.red (s.fVal x)) : Int) : ZMod s.modulus) =
    (s.fNat x : ZMod s.modulus) ^ 3 + (s.par.curve.a.toNat : ZMod s.modulus) * (s.fNat x : ZMod s.modulus)
      + (s.par.curve.b.toNat : ZMod s.modulus) := by
  rw [Curve.rhs, cast_emod_pI, Int.cast_add, Int.cast_add, Int.cast_mul, Int.cast_mul, Int.cast_mul, Curve.red, cast_emod_pI,
    cast_fVal, cast_aI, cast_bI]
  ring

/-- The equality of points by cross-multiplication, in the integers mod p (43_point.md R177). -/
theorem eqPt_iff_cast (c : Curve) (T U : Triple) : c.eqPt T U = true ↔
    ((c.isId T = true ∧ c.isId U = true) ∨ (¬ c.isId T = true ∧ ¬ c.isId U = true
      ∧ (T.x : ZMod c.p.toNat) * (U.z : ZMod c.p.toNat) ^ 2 = U.x * (T.z : ZMod c.p.toNat) ^ 2
      ∧ (T.y : ZMod c.p.toNat) * (U.z : ZMod c.p.toNat) ^ 3 = U.y * (T.z : ZMod c.p.toNat) ^ 3)) := by
  have sub (v w : Int) : (v - w) % c.pI = 0 ↔ (v : ZMod c.p.toNat) = w := by
    rw [← cast_eq_zero_iff, Int.cast_sub, sub_eq_zero]
  rw [Curve.eqPt]
  split
  · next h => simp only [Bool.or_eq_true, Bool.and_eq_true] at h ⊢; tauto
  · next h =>
    simp only [Bool.or_eq_true, not_or] at h
    rw [Bool.and_eq_true, decide_eq_true_iff, decide_eq_true_iff, sub, sub]
    push_cast
    simp only [pow_two, pow_three, mul_assoc]
    tauto

/-- Reading a register that a command has written gives the triple that was written (43_point.md R172, R173). -/
theorem red3_of_canonical {c : Curve} (hc : c.Admitted) {T : Triple} (h : c.Canonical T) : c.red3 T = T := by
  have hp1 := Admitted.one_lt hc
  rcases h with rfl | ⟨h1, h2, h3, h4, h5, h6⟩
  · simp [Curve.red3, Curve.isId, oCan]
  · have : c.isId T = false := by
      simp only [Curve.isId, decide_eq_false_iff_not]
      rw [Int.emod_eq_of_lt h5.le h6]; omega
    rw [Curve.red3, if_neg (by simp [this]), Int.emod_eq_of_lt h1 h2, Int.emod_eq_of_lt h3 h4, Int.emod_eq_of_lt h5.le h6]

end Sys2Proof.Laws
end

