-- ==== Sys2Proof/Laws/Port.lean ====
section
/-! SUPPORT. The offset map and the accesses of the window: each aligned offset has its slot, two offsets of the windows share
none, and an access is what `look` and `writeSlot` say of the slot. -/

namespace Sys2Proof.Laws

open Sys2Proof.Machine

variable {s : State} {off : Nat}

theorem accessSlot_window (h : off < 0x800) (h4 : off % 4 = 0) : s.accessSlot (s.par.base + off) 4 = .ok (slotAt off) := by
  simp [State.accessSlot, State.windowOffset, Config.windowBytes, h, h4]

theorem hostRead_window (h : off < 0x800) (h4 : off % 4 = 0) :
    hostRead (s.par.base + off) 4 s = .next (s.readSlot (slotAt off)) := by
  simp only [hostRead, accessSlot_window h h4]

theorem hostWrite_window (h : off < 0x800) (h4 : off % 4 = 0) (v : Word) :
    hostWrite (s.par.base + off) 4 v s = .next (s.writeSlot (slotAt off) v) := by
  simp only [hostWrite, accessSlot_window h h4]

/-- Why an access is refused (20_memory.md R74, R77). -/
theorem accessSlot_error {addr width : Nat} {r : Refusal} (h : s.accessSlot addr width = .error r) :
    r = .outsideWindow ∨ r = .busError := by
  unfold State.accessSlot at h
  split at h
  · cases h; exact .inl rfl
  · split at h
    · cases h
    · cases h; exact .inr rfl

/-- An access goes through only as an aligned 32-bit word of the window (20_memory.md R77). -/
theorem accessSlot_ok {addr width : Nat} {t : Slot} (h : s.accessSlot addr width = .ok t) :
    ∃ off, addr = s.par.base + off ∧ off < 0x800 ∧ width = 4 ∧ off % 4 = 0 ∧ t = slotAt off := by
  unfold State.accessSlot State.windowOffset at h
  split at h
  · cases h
  · next off ho =>
    split at ho
    · next hr =>
      cases ho
      split at h
      · next hw =>
        cases h
        exact ⟨addr - s.par.base, by omega, by simp only [Config.windowBytes] at hr; omega, hw.1, hw.2, rfl⟩
      · cases h
    · cases ho

theorem hostRead_next {addr width : Nat} {t : State} (h : hostRead addr width s = .next t) :
    ∃ off, addr = s.par.base + off ∧ off < 0x800 ∧ width = 4 ∧ off % 4 = 0 ∧ t = s.readSlot (slotAt off) := by
  unfold hostRead at h
  split at h
  · next t' ht =>
    cases h
    obtain ⟨off, h1, h2, h3, h4, rfl⟩ := accessSlot_ok ht
    exact ⟨off, h1, h2, h3, h4, rfl⟩
  · cases h

theorem hostWrite_next {addr width : Nat} {v : Word} {t : State} (h : hostWrite addr width v s = .next t) :
    ∃ off, addr = s.par.base + off ∧ off < 0x800 ∧ width = 4 ∧ off % 4 = 0 ∧ t = s.writeSlot (slotAt off) v := by
  unfold hostWrite at h
  split at h
  · next t' ht =>
    cases h
    obtain ⟨off, h1, h2, h3, h4, rfl⟩ := accessSlot_ok ht
    exact ⟨off, h1, h2, h3, h4, rfl⟩
  · cases h

/-! ### The offset map -/

@[simp] theorem slotAt_id : slotAt 0x000 = .id := rfl
@[simp] theorem slotAt_ctrl : slotAt 0x004 = .ctrl := rfl
@[simp] theorem slotAt_cmd : slotAt 0x008 = .cmd := rfl
@[simp] theorem slotAt_status : slotAt 0x00C = .status := rfl

theorem slotAt_reserved (h : (0x010 ≤ off ∧ off < 0x100) ∨ 0x7E0 ≤ off) : slotAt off = .reserved := by
  unfold slotAt
  rcases h with h | h
  · simp [show off ≠ 0 by omega, show off ≠ 4 by omega, show off ≠ 8 by omega, show off ≠ 12 by omega, h.2]
  · simp [show off ≠ 0 by omega, show off ≠ 4 by omega, show off ≠ 8 by omega, show off ≠ 12 by omega,
      show ¬ off < 0x100 by omega, show ¬ off < 0x300 by omega, show ¬ off < 0x600 by omega, show ¬ off < 0x700 by omega,
      show ¬ off < 0x7E0 by omega]

/-- The slot of an offset in the F windows. -/
theorem slotAt_f (h : 0x100 ≤ off ∧ off < 0x300) :
    slotAt off = .f (Fin.ofNat 16 ((off - 0x100) / 0x20)) (Fin.ofNat 8 ((off - 0x100) % 0x20 / 4)) := by
  unfold slotAt
  simp [show off ≠ 0 by omega, show off ≠ 4 by omega, show off ≠ 8 by omega, show off ≠ 12 by omega,
    show ¬ off < 0x100 by omega, h.2]

/-- The slot of an offset in the P windows. -/
theorem slotAt_p (h : 0x300 ≤ off ∧ off < 0x600) :
    slotAt off = .p (Fin.ofNat 8 ((off - 0x300) / 0x60)) (coordAt ((off - 0x300) % 0x60 / 0x20))
      (Fin.ofNat 8 ((off - 0x300) % 0x20 / 4)) := by
  unfold slotAt
  simp [show off ≠ 0 by omega, show off ≠ 4 by omega, show off ≠ 8 by omega, show off ≠ 12 by omega,
    show ¬ off < 0x100 by omega, show ¬ off < 0x300 by omega, h.2]

/-- The slot of an offset in the S windows. -/
theorem slotAt_s (h : 0x600 ≤ off ∧ off < 0x700) :
    slotAt off = .s (Fin.ofNat 4 ((off - 0x600) / 0x40)) (Fin.ofNat 16 ((off - 0x600) % 0x40 / 4)) := by
  unfold slotAt
  simp [show off ≠ 0 by omega, show off ≠ 4 by omega, show off ≠ 8 by omega, show off ≠ 12 by omega,
    show ¬ off < 0x100 by omega, show ¬ off < 0x300 by omega, show ¬ off < 0x600 by omega, h.2]

/-- The slot of an offset in the curve-parameter registers. -/
theorem slotAt_cp (h : 0x700 ≤ off ∧ off < 0x7E0) :
    slotAt off = .cp (cpAt ((off - 0x700) / 0x20)) (Fin.ofNat 8 ((off - 0x700) % 0x20 / 4)) := by
  unfold slotAt
  simp [show off ≠ 0 by omega, show off ≠ 4 by omega, show off ≠ 8 by omega, show off ≠ 12 by omega,
    show ¬ off < 0x100 by omega, show ¬ off < 0x300 by omega, show ¬ off < 0x600 by omega, show ¬ off < 0x700 by omega, h.2]

/-- A slot is an operand word: a word of an F, P or S register. -/
def operandSlot : Slot → Bool
  | .f _ _ => true
  | .p _ _ _ => true
  | .s _ _ => true
  | .id => false
  | .ctrl => false
  | .cmd => false
  | .status => false
  | .reserved => false
  | .cp _ _ => false

/-- The F, P and S windows are the offsets from 0x100 up to 0x700. -/
theorem operandSlot_slotAt (off : Nat) : operandSlot (slotAt off) = decide (0x100 ≤ off ∧ off < 0x700) := by
  by_cases h1 : off < 0x100
  · by_cases h2 : 0x010 ≤ off
    · rw [slotAt_reserved (.inl ⟨h2, h1⟩)]; simp [operandSlot]; omega
    · rw [decide_eq_false (by omega)]
      unfold slotAt
      simp only [h1, if_true]
      split_ifs <;> rfl
  · by_cases h3 : off < 0x300
    · rw [slotAt_f (by omega)]; simp [operandSlot]; omega
    · by_cases h4 : off < 0x600
      · rw [slotAt_p (by omega)]; simp [operandSlot]; omega
      · by_cases h5 : off < 0x700
        · rw [slotAt_s (by omega)]; simp [operandSlot]; omega
        · by_cases h6 : off < 0x7E0
          · rw [slotAt_cp (by omega)]; simp [operandSlot]; omega
          · rw [slotAt_reserved (.inr (by omega))]; simp [operandSlot]; omega

/-- Where a coordinate stands in its point register. -/
def coordOffset : Coord → Nat
  | .X => 0x00
  | .Y => 0x20
  | .Z => 0x40

/-- The offset of an operand word (20_memory.md R72). -/
def slotOffset : Slot → Nat
  | .f i w => 0x100 + 0x20 * i.val + 4 * w.val
  | .p i c w => 0x300 + 0x60 * i.val + coordOffset c + 4 * w.val
  | .s i w => 0x600 + 0x40 * i.val + 4 * w.val
  | .id => 0
  | .ctrl => 4
  | .cmd => 8
  | .status => 12
  | .reserved => 0
  | .cp _ _ => 0

theorem coordOffset_coordAt (n : Nat) (h : n < 3) : coordOffset (coordAt n) = 0x20 * n := by
  have : n = 0 ∨ n = 1 ∨ n = 2 := by omega
  rcases this with rfl | rfl | rfl <;> rfl

/-- The offset map and its inverse agree: two offsets of the F, P and S windows never share a slot. -/
theorem slotOffset_slotAt (h : 0x100 ≤ off ∧ off < 0x700) (h4 : off % 4 = 0) : slotOffset (slotAt off) = off := by
  by_cases h3 : off < 0x300
  · rw [slotAt_f (by omega)]
    simp only [slotOffset, Fin.ofNat]
    omega
  · by_cases h6 : off < 0x600
    · rw [slotAt_p (by omega)]
      simp only [slotOffset, Fin.ofNat]
      rw [coordOffset_coordAt _ (by omega)]
      omega
    · rw [slotAt_s (by omega)]
      simp only [slotOffset, Fin.ofNat]
      omega

/-- Two aligned offsets, one of them in the F, P and S windows, have different slots. -/
theorem slotAt_ne {off' : Nat} (h : 0x100 ≤ off ∧ off < 0x700) (h4 : off % 4 = 0) (h4' : off' % 4 = 0) (hne : off' ≠ off) :
    slotAt off' ≠ slotAt off := by
  intro he
  have hop := operandSlot_slotAt off'
  rw [he, operandSlot_slotAt off, decide_eq_decide] at hop
  have h' := hop.1 h
  exact hne (by rw [← slotOffset_slotAt h' h4', he, slotOffset_slotAt h h4])

/-! ### Looking after writing -/

theorem coord_putWord_same (r : PReg) (c : Coord) (w : Nat) (v : Word) : (r.putWord c w v).coord c = (r.coord c).putWord w v := by
  cases c <;> rfl

theorem coord_putWord_other (r : PReg) (c c' : Coord) (w : Nat) (v : Word) (h : c' ≠ c) :
    (r.putWord c w v).coord c' = r.coord c' := by
  cases c <;> cases c' <;> first | rfl | exact absurd rfl h

theorem look_f (hb : s.busy = false) (i : FIdx) (w : Fin 8) : s.look (.f i w) = s.f[i].hostWord w := by
  simp only [State.look, hb, Bool.false_eq_true, if_false]

theorem look_p (hb : s.busy = false) (i : PIdx) (c : Coord) (w : Fin 8) : s.look (.p i c w) = (s.p[i].coord c).hostWord w := by
  simp only [State.look, hb, Bool.false_eq_true, if_false]

theorem look_s (hb : s.busy = false) (i : SIdx) (w : Fin 16) : s.look (.s i w) = s.sc[i].hostWord w := by
  simp only [State.look, hb, Bool.false_eq_true, if_false]

theorem writeSlot_f (hb : s.busy = false) (i : FIdx) (w : Fin 8) (v : Word) :
    s.writeSlot (.f i w) v = { s with f := s.f.set i (s.f[i].putWord w v) } := by
  simp only [State.writeSlot, hb, Bool.false_eq_true, if_false]

theorem writeSlot_p (hb : s.busy = false) (i : PIdx) (c : Coord) (w : Fin 8) (v : Word) :
    s.writeSlot (.p i c w) v = { s with p := s.p.set i (s.p[i].putWord c w v) } := by
  simp only [State.writeSlot, hb, Bool.false_eq_true, if_false]

theorem writeSlot_s (hb : s.busy = false) (i : SIdx) (w : Fin 16) (v : Word) :
    s.writeSlot (.s i w) v = { s with sc := s.sc.set i (s.sc[i].putWord w v) } := by
  simp only [State.writeSlot, hb, Bool.false_eq_true, if_false]

/-- An operand write keeps the block idle. -/
theorem busy_writeSlot (hb : s.busy = false) {t : Slot} (ht : operandSlot t = true) (v : Word) : (s.writeSlot t v).busy = false := by
  cases t with
  | f i w => rw [writeSlot_f hb]; exact hb
  | p i c w => rw [writeSlot_p hb]; exact hb
  | s i w => rw [writeSlot_s hb]; exact hb
  | _ => cases ht

/-- A written operand word is read back when idle (20_memory.md R80). -/
theorem look_writeSlot_same (hb : s.busy = false) {t : Slot} (ht : operandSlot t = true) (v : Word) :
    (s.writeSlot t v).look t = some v := by
  have hb' := busy_writeSlot hb ht v
  cases t with
  | f i w =>
    rw [look_f hb', writeSlot_f hb]
    simp only [Fin.getElem_fin, Vector.getElem_set_self]
    exact hostWord_putWord_same _ _ _ w.isLt (by omega)
  | p i c w =>
    rw [look_p hb', writeSlot_p hb]
    simp only [Fin.getElem_fin, Vector.getElem_set_self, coord_putWord_same]
    exact hostWord_putWord_same _ _ _ w.isLt (by omega)
  | s i w =>
    rw [look_s hb', writeSlot_s hb]
    simp only [Fin.getElem_fin, Vector.getElem_set_self]
    exact hostWord_putWord_same _ _ _ w.isLt (by omega)
  | _ => cases ht

/-- Writing an operand word changes what is read at no other slot. -/
theorem look_writeSlot_other (hb : s.busy = false) {t t' : Slot} (ht : operandSlot t = true) (hne : t' ≠ t) (v : Word) :
    (s.writeSlot t v).look t' = s.look t' := by
  have hb' := busy_writeSlot hb ht v
  cases t with
  | f i w =>
    cases t' with
    | f i' w' =>
      rw [look_f hb', writeSlot_f hb, look_f hb]
      simp only [Fin.getElem_fin, Vector.getElem_set]
      split
      · next hi =>
        have hw : w'.val ≠ w.val := by
          intro h; apply hne; rw [Fin.ext h, Fin.ext hi]
        rw [hostWord_putWord_other _ _ _ _ w'.isLt hw]
        simp only [hi]
      · rfl
    | _ => rw [writeSlot_f hb]; rfl
  | p i c w =>
    cases t' with
    | p i' c' w' =>
      rw [look_p hb', writeSlot_p hb, look_p hb]
      simp only [Fin.getElem_fin, Vector.getElem_set]
      split
      · next hi =>
        by_cases hc : c' = c
        · subst hc
          have hw : w'.val ≠ w.val := by
            intro h; apply hne; rw [Fin.ext h, Fin.ext hi]
          rw [coord_putWord_same, hostWord_putWord_other _ _ _ _ w'.isLt hw]
          simp only [hi]
        · rw [coord_putWord_other _ _ _ _ _ hc]
          simp only [hi]
      · rfl
    | _ => rw [writeSlot_p hb]; rfl
  | s i w =>
    cases t' with
    | s i' w' =>
      rw [look_s hb', writeSlot_s hb, look_s hb]
      simp only [Fin.getElem_fin, Vector.getElem_set]
      split
      · next hi =>
        have hw : w'.val ≠ w.val := by
          intro h; apply hne; rw [Fin.ext h, Fin.ext hi]
        rw [hostWord_putWord_other _ _ _ _ w'.isLt hw]
        simp only [hi]
      · rfl
    | _ => rw [writeSlot_s hb]; rfl
  | _ => cases ht

end Sys2Proof.Laws
end

