-- ==== Sys2Proof/Laws/Scalar.lean ====
section
/-! SUPPORT. The scalar commands in the terms of the claims: the reduced scalar, what `mul_ltr` of the operands represents, and the
comparison of the two paths. -/

namespace Sys2Proof.Laws

open Sys2Proof.Machine

set_option exponentiation.threshold 1000

variable {s : State}

/-- The reduced scalar is `sval_512(S[k]) mod n` (44_scalar.md R211). -/
theorem natCast_scalar (hc : s.par.curve.Admitted) (k : SIdx) :
    ((s.scalar k : Nat) : Int) = s.sc[k].val.toInt % (s.par.curve.n.toNat : Int) := by
  have hn := hc.nPrime.pos
  rw [State.scalar, Curve.redScalar]
  exact Int.toNat_of_nonneg (Int.emod_nonneg _ (by simp [Curve.nI]; omega))

theorem scalar_eq_iff (hc : s.par.curve.Admitted) (k : SIdx) (v : Nat) :
    s.scalar k = v ↔ s.sc[k].val.toInt % (s.par.curve.n.toNat : Int) = v := by
  rw [← natCast_scalar hc]; norm_cast

variable [Fact s.par.curve.p.toNat.Prime]

/-- A register that holds a point of the curve passes the check of R212, and one that holds none fails it. -/
theorem onCurve_of_holdsPoint (hc : s.par.curve.Admitted) {a : PIdx} {Q : s.par.curve.weier.Point} (hQ : s.holdsPoint s a Q) :
    s.par.curve.onCurve (s.pVal a) = true :=
  (exists_rep_iff hc _).1 ⟨Q, (rep_pVal s a Q).2 hQ⟩

theorem onCurve_of_not_holdsPoint (hc : s.par.curve.Admitted) {a : PIdx}
    (h : ∀ Q : s.par.curve.weier.Point, ¬ s.holdsPoint s a Q) : s.par.curve.onCurve (s.pVal a) = false := by
  by_contra hx
  obtain ⟨Q, hQ⟩ := (exists_rep_iff hc _).2 (by simpa using hx)
  exact h Q ((rep_pVal s a Q).1 hQ)

/-- `mul_ltr` of the operands represents the multiple (44_scalar.md R213). -/
theorem rep_mulLtr_scalar (hc : s.par.curve.Admitted) (k : SIdx) {a : PIdx} {Q : s.par.curve.weier.Point} (hQ : s.holdsPoint s a Q) :
    s.par.curve.Rep (s.par.curve.mulLtr (s.scalar k) (s.pVal a)) ((s.sc[k].val.toInt % (s.par.curve.n.toNat : Int)) • Q) := by
  have := rep_mulLtr hc ((rep_pVal s a Q).2 hQ) (s.scalar k)
  rw [← natCast_scalar hc, natCast_zsmul]
  exact this

/-- Where the shortcut of R214 is taken, the multiple is the identity. -/
theorem scalar_zsmul_eq_zero (hc : s.par.curve.Admitted) {k : SIdx} {a : PIdx} {Q : s.par.curve.weier.Point} (hQ : s.holdsPoint s a Q)
    (h : s.scalar k = 0 ∨ s.par.curve.isId (s.pVal a) = true) :
    (s.sc[k].val.toInt % (s.par.curve.n.toNat : Int)) • Q = 0 := by
  rcases h with h | h
  · rw [← natCast_scalar hc, h, Nat.cast_zero, zero_zsmul]
  · rw [rep_unique ((rep_pVal s a Q).2 hQ) ((rep_zero_iff _).2 h), zsmul_zero]

omit [Fact s.par.curve.p.toNat.Prime] in
/-- The comparison of the two paths under `FAULT_MODEL = none` (45_verified.md R233). -/
theorem faultDetected_none (hf : s.par.faultModel = .none) (A B : Triple) : s.faultDetected A B = !s.par.curve.eqPt A B := by
  rw [State.faultDetected, hf]

omit [Fact s.par.curve.p.toNat.Prime] in
theorem afterDetect_none (hf : s.par.faultModel = .none) : s.afterDetect = s := by rw [State.afterDetect, hf]

omit [Fact s.par.curve.p.toNat.Prime] in
theorem afterDetect_any (hf : s.par.faultModel = .detectAny) : s.afterDetect = { s with draws := s.draws + 1 } := by
  rw [State.afterDetect, hf]

/-- SMUL of a finite operand by a scalar that is not 0 mod n writes the triple of `mul_ltr`, where no fault can be detected
(44_scalar.md R213, R215; 45_verified.md R232). -/
theorem exec_smul_finite (hc : s.par.curve.Admitted) {k : SIdx} {a : PIdx} (hk : s.readableS k) (ha : s.readableP a)
    (hv : s.verifySample = false ∨ s.par.faultModel = .none) (hQ : ∃ Q, s.holdsPoint s a Q) (hz : s.zMod a ≠ 0)
    (h0 : s.scalar k ≠ 0) (d : PIdx) :
    exec (.smul d k a) s = .next (s.writeP d (s.par.curve.mulLtr (s.scalar k) (s.pVal a))).complete := by
  obtain ⟨Q, hQ⟩ := hQ
  have hon := onCurve_of_holdsPoint hc hQ
  have hid : ¬ (s.scalar k = 0 ∨ s.par.curve.isId (s.pVal a) = true) := by
    rintro (h | h)
    · exact h0 h
    · exact hz ((isId_pVal s a).1 h)
  cases hs : s.verifySample with
  | false => rw [exec_smul_plain hk ha hs, if_neg (by simp [hon]), if_neg hid]
  | true =>
    have hf : s.par.faultModel = .none := hv.resolve_left (by simp [hs])
    have : exec (.smul d k a) s = exec (.vsmul d k a) s := by simp [exec, execSmul, execVsmul, hs]
    rw [this, exec_vsmul hk ha, if_neg (by simp [hon]), if_neg hid, faultDetected_none hf, afterDetect_none hf,
      paths_agree hc hon]
    rfl

end Sys2Proof.Laws
end

