-- ==== Sys2Proof/Laws/Step.lean ====
section
/-! SUPPORT. All a step can do, and what the resets do. -/

namespace Sys2Proof.Laws

open Sys2Proof.Machine

variable {s t : State}

/-- Every error a command can end with is a pair of the table (60_exceptions.md R273). -/
theorem legalStatus_error (e : CmdError) : legalStatus e.code e.info = true := by
  cases e with
  | illegalCommand c => cases c <;> decide
  | _ => decide

/-- The engine's step: nothing with no command in flight, else the command, or IllegalCommand. -/
theorem engineStep_next (h : engineStep s = .next t) :
    (s.latch = none ∧ t = s) ∨ ∃ l, s.latch = some l ∧
      ((∃ i, decode l.word = .ok i ∧ exec i s = .next t) ∨ ∃ c, decode l.word = .error c ∧ t = s.raise (.illegalCommand c)) := by
  unfold engineStep at h
  split at h
  · next l hl =>
    unfold runWord at h
    split at h
    · next i hi => exact .inr ⟨l, hl, .inl ⟨i, hi, h⟩⟩
    · next c hc => exact .inr ⟨l, hl, .inr ⟨c, hc, ((fail_next _ _ _).1 h).symm⟩⟩
  · next hl => cases h; exact .inl ⟨hl, rfl⟩

/-- A step of an instance of the hardware takes the next event. -/
theorem step_of_admitted (h : s.par.Admitted) : step s = takeEvent s := if_pos ((admitted_iff _).2 h)

/-- Any other configuration is refused (00_scope.md R13). -/
theorem step_of_not_admitted (h : ¬ s.par.Admitted) : step s = .refused .configuration :=
  if_neg (fun ha => h ((admitted_iff _).1 ha))

/-- A step that goes on is a step of an instance. -/
theorem admitted_of_step_next (h : step s = .next t) : s.par.Admitted := by
  by_contra ha
  rw [step_of_not_admitted ha] at h
  cases h

/-- A step that goes on, in one lemma: the engine, or the event it took. -/
theorem step_next_cases (h : step s = .next t) :
    ((s.inbox = [] ∨ s.inbox.head? = some .engine) ∧ engineStep { s with inbox := s.inbox.tail } = .next t)
    ∨ (∃ off, s.inbox.head? = some (.read (s.par.base + off) 4) ∧ off < 0x800 ∧ off % 4 = 0
        ∧ t = State.readSlot { s with inbox := s.inbox.tail } (slotAt off))
    ∨ (∃ off v, s.inbox.head? = some (.write (s.par.base + off) 4 v) ∧ off < 0x800 ∧ off % 4 = 0
        ∧ t = State.writeSlot { s with inbox := s.inbox.tail } (slotAt off) v)
    ∨ (s.inbox.head? = some .hardReset ∧ t = State.hardReset { s with inbox := s.inbox.tail }) := by
  rw [step_of_admitted (admitted_of_step_next h)] at h
  unfold takeEvent at h
  split at h
  · next hi =>
    refine .inl ⟨.inl hi, ?_⟩
    have : ({ s with inbox := s.inbox.tail } : State) = s := by rw [hi, List.tail_nil, ← hi]
    rw [this]; exact h
  · next e rest hi =>
    rw [hi]
    cases e with
    | read addr width =>
      obtain ⟨off, rfl, h1, rfl, h4, rfl⟩ := hostRead_next h
      exact .inr (.inl ⟨off, rfl, h1, h4, rfl⟩)
    | write addr width v =>
      obtain ⟨off, rfl, h1, rfl, h4, rfl⟩ := hostWrite_next h
      exact .inr (.inr (.inl ⟨off, v, rfl, h1, h4, rfl⟩))
    | engine => exact .inl ⟨.inr rfl, h⟩
    | hardReset => cases h; exact .inr (.inr (.inr ⟨rfl, rfl⟩))

/-- The step at an engine point, and with no event left. -/
theorem step_engine (ha : s.par.Admitted) (h : s.inbox = [] ∨ ∃ rest, s.inbox = .engine :: rest) :
    step s = engineStep { s with inbox := s.inbox.tail } := by
  rw [step_of_admitted ha]
  unfold takeEvent
  rcases h with h | ⟨rest, h⟩
  · rw [h]
    have : ({ s with inbox := ([] : List Event).tail } : State) = s := by rw [List.tail_nil, ← h]
    rw [this]
  · rw [h]; rfl

/-- A run of no steps. -/
theorem run_zero (s : State) : Host.Core.run core 0 s = (.next s : Out) := rfl

/-- A run whose first step goes on. -/
theorem run_succ_of_next {k : Nat} (h : step s = .next t) : Host.Core.run core (k + 1) s = (Host.Core.run core k t : Out) := by
  refine (Host.Core.run.eq_2 core s k).trans ?_
  have h' : core.step s = .next t := h
  rw [h']

/-- A run of one step is the step. -/
theorem run_one (s : State) : Host.Core.run core 1 s = (step s : Out) := by
  cases h : step s with
  | next t => exact (run_succ_of_next (k := 0) h)
  | fault r =>
    refine (Host.Core.run.eq_2 core s 0).trans ?_
    have h' : core.step s = .fault r := h
    rw [h']; rfl
  | refused r =>
    refine (Host.Core.run.eq_2 core s 0).trans ?_
    have h' : core.step s = .refused r := h
    rw [h']; rfl

/-- A read leaves all but the replies and the draw counter. -/
theorem readSlot_eq (s : State) (t : Slot) :
    ∃ v n, s.readSlot t = { s with replies := v :: s.replies, draws := n } := by
  unfold State.readSlot
  split
  · next v _ => exact ⟨v, s.draws, rfl⟩
  · exact ⟨_, _, rfl⟩

/-! ### Abort and soft reset (70_reset_and_hazards.md R313, R314) -/

/-- What an abort may change. -/
structure AbortFrame (ds : List Dest) (s t : State) : Prop where
  par     : t.par = s.par
  sc      : t.sc = s.sc
  ctrl    : t.ctrl = s.ctrl
  cmd     : t.cmd = s.cmd
  status  : t.status = s.status
  latch   : t.latch = s.latch
  inbox   : t.inbox = s.inbox
  replies : t.replies = s.replies
  fDest   : ∀ j, .f j ∈ ds → ∃ v, t.f[j] = Reg.atAbort v
  pDest   : ∀ j, .p j ∈ ds → ∃ x y z, t.p[j] = ⟨Reg.atAbort x, Reg.atAbort y, Reg.atAbort z⟩
  fOther  : ∀ j, .f j ∉ ds → t.f[j] = s.f[j]
  pOther  : ∀ j, .p j ∉ ds → t.p[j] = s.p[j]

theorem abortDest_f_get (s : State) (i j : FIdx) :
    (s.abortDest (.f i)).f[j] = if i = j then Reg.atAbort (Config.freeField s.draws) else s.f[j] := by
  simp only [State.abortDest, Fin.getElem_fin, Vector.getElem_set, Fin.ext_iff]

theorem abortDest_p_get (s : State) (i j : PIdx) :
    (s.abortDest (.p i)).p[j] = if i = j then ⟨Reg.atAbort (Config.freeField s.draws), Reg.atAbort (Config.freeField (s.draws + 1)),
        Reg.atAbort (Config.freeField (s.draws + 2))⟩ else s.p[j] := by
  simp only [State.abortDest, Fin.getElem_fin, Vector.getElem_set, Fin.ext_iff]

theorem abortFrame_foldl (ds : List Dest) (s : State) : AbortFrame ds s (ds.foldl State.abortDest s) := by
  induction ds generalizing s with
  | nil =>
    exact ⟨rfl, rfl, rfl, rfl, rfl, rfl, rfl, rfl, fun _ h => (List.not_mem_nil h).elim, fun _ h => (List.not_mem_nil h).elim,
      fun _ _ => rfl, fun _ _ => rfl⟩
  | cons d ds ih =>
    have h := ih (s.abortDest d)
    rw [List.foldl_cons]
    refine ⟨h.par.trans ?_, h.sc.trans ?_, h.ctrl.trans ?_, h.cmd.trans ?_, h.status.trans ?_, h.latch.trans ?_, h.inbox.trans ?_,
      h.replies.trans ?_, ?_, ?_, ?_, ?_⟩
    any_goals (cases d <;> rfl)
    · intro j hj
      by_cases hm : Dest.f j ∈ ds
      · exact h.fDest j hm
      · rw [h.fOther j hm]
        rcases List.mem_cons.1 hj with rfl | hj
        · exact ⟨_, by rw [abortDest_f_get, if_pos rfl]⟩
        · exact absurd hj hm
    · intro j hj
      by_cases hm : Dest.p j ∈ ds
      · exact h.pDest j hm
      · rw [h.pOther j hm]
        rcases List.mem_cons.1 hj with rfl | hj
        · exact ⟨_, _, _, by rw [abortDest_p_get, if_pos rfl]⟩
        · exact absurd hj hm
    · intro j hj
      obtain ⟨hd, hm⟩ := not_or.1 (fun h' => hj (List.mem_cons.2 h'))
      rw [h.fOther j hm]
      cases d with
      | f i =>
        have hne : i ≠ j := by rintro rfl; exact hd rfl
        rw [abortDest_f_get, if_neg hne]
      | p i => rfl
    · intro j hj
      obtain ⟨hd, hm⟩ := not_or.1 (fun h' => hj (List.mem_cons.2 h'))
      rw [h.pOther j hm]
      cases d with
      | f i => rfl
      | p i =>
        have hne : i ≠ j := by rintro rfl; exact hd rfl
        rw [abortDest_p_get, if_neg hne]

/-- The destinations of the command in flight, none where there is none (70_reset_and_hazards.md R314). -/
def inFlightDests (s : State) : List Dest :=
  match s.latch with
  | some l => wordDests l.word
  | none => []

theorem abort_eq (s : State) : s.abort = (inFlightDests s).foldl State.abortDest s := by
  unfold State.abort inFlightDests
  cases s.latch <;> rfl

theorem abort_frame (s : State) : AbortFrame (inFlightDests s) s s.abort := by
  rw [abort_eq]; exact abortFrame_foldl _ s

theorem mem_inFlightDests {d : Dest} :
    d ∈ inFlightDests s ↔ ∃ l i, s.latch = some l ∧ decode l.word = .ok i ∧ d ∈ destsOf i := by
  unfold inFlightDests
  cases hl : s.latch with
  | none => simp
  | some l =>
    simp only [wordDests, Option.some.injEq]
    cases hd : decode l.word with
    | ok i =>
      constructor
      · intro h; exact ⟨l, i, rfl, hd, h⟩
      · rintro ⟨l', i', rfl, hi, h⟩; rw [hd] at hi; cases hi; exact h
    | error c =>
      constructor
      · intro h; exact (List.not_mem_nil h).elim
      · rintro ⟨l', i', rfl, hi, h⟩; rw [hd] at hi; cases hi

/-- A write to CTRL is a soft reset or sets the two enables. -/
theorem writeCtrl_cases (s : State) (v : Word) :
    (v.getLsbD 31 = true ∧ s.writeCtrl v = s.softReset)
    ∨ (v.getLsbD 31 = false ∧ s.writeCtrl v = { s with ctrl := ⟨v.getLsbD 0, v.getLsbD 1⟩ }) := by
  unfold State.writeCtrl
  cases hv : v.getLsbD 31
  · exact .inr ⟨rfl, by simp⟩
  · exact .inl ⟨rfl, by simp⟩

/-- Every write of the port: dropped, accepted, acknowledged, a CTRL write, ignored, or an operand word of an idle block. -/
theorem writeSlot_cases (s : State) (u : Slot) (v : Word) :
    (u = .ctrl ∧ s.writeSlot u v = s.writeCtrl v)
    ∨ (u = .status ∧ s.writeSlot u v = s.acknowledge v)
    ∨ (u = .cmd ∧ s.busy = false ∧ s.writeSlot u v = s.latchCommand v)
    ∨ ((u = .cmd ∨ operandSlot u = true) ∧ s.busy = true ∧ s.writeSlot u v = s.dropWrite)
    ∨ (operandSlot u = true ∧ s.busy = false ∧ ∃ f p c, s.writeSlot u v = { s with f := f, p := p, sc := c })
    ∨ s.writeSlot u v = s := by
  cases hb : s.busy
  · cases u with
    | id => simp [State.writeSlot]
    | ctrl => simp [State.writeSlot]
    | cmd => simp [State.writeSlot, State.accept, hb]
    | status => simp [State.writeSlot]
    | reserved => simp [State.writeSlot]
    | cp r w => simp [State.writeSlot]
    | f i w => rw [writeSlot_f hb]; exact .inr (.inr (.inr (.inr (.inl ⟨rfl, rfl, _, s.p, s.sc, rfl⟩))))
    | p i c w => rw [writeSlot_p hb]; exact .inr (.inr (.inr (.inr (.inl ⟨rfl, rfl, s.f, _, s.sc, rfl⟩))))
    | s i w => rw [writeSlot_s hb]; exact .inr (.inr (.inr (.inr (.inl ⟨rfl, rfl, s.f, s.p, _, rfl⟩))))
  · cases u <;> simp [State.writeSlot, State.accept, hb, operandSlot]

end Sys2Proof.Laws
end

