-- ==== Sys2Proof/Tests/Slice0.lean ====
section
/-! SUPPORT. Tests of the model on the vectors of 95_test_vectors.md, each about one step, and a witness for the hypotheses of
every obligation. -/

namespace Sys2Proof.Tests

open Sys2Proof.Machine Sys2Proof.Laws

-- One theorem after another: the many kernel evaluations below would else wait for each other in as many threads.
set_option Elab.async false

/-! ### Small states -/

/-- `F[i]` written whole by the host. -/
def setF (s : State) (i : FIdx) (v : Nat) : State := { s with f := s.f.set i ⟨BitVec.ofNat 256 v, BitVec.allOnes 8, 0#8⟩ }

/-- `P[i]` written whole by the host. -/
def setP (s : State) (i : PIdx) (x y z : Nat) : State :=
  { s with p := s.p.set i ⟨⟨BitVec.ofNat 256 x, BitVec.allOnes 8, 0#8⟩, ⟨BitVec.ofNat 256 y, BitVec.allOnes 8, 0#8⟩,
      ⟨BitVec.ofNat 256 z, BitVec.allOnes 8, 0#8⟩⟩ }

/-- `S[i]` written whole by the host. -/
def setS (s : State) (i : SIdx) (v : Int) : State := { s with sc := s.sc.set i ⟨BitVec.ofInt 512 v, BitVec.allOnes 16, 0#16⟩ }

/-- The word `w` in flight, with the VERIFY sample `v`. -/
def inFlight (s : State) (w : Word) (v : Bool) : State := { s with latch := some ⟨w, v⟩, cmd := w }

def outF (o : Out) (j : FIdx) : Option Nat :=
  match o with
  | .next t => some t.f[j].val.toNat
  | .fault _ => none
  | .refused _ => none

def outP (o : Out) (j : PIdx) : Option (Nat × Nat × Nat) :=
  match o with
  | .next t => some (t.p[j].x.val.toNat, t.p[j].y.val.toNat, t.p[j].z.val.toNat)
  | .fault _ => none
  | .refused _ => none

def outStatus (o : Out) : Option Word :=
  match o with
  | .next t => some t.statusWord
  | .fault _ => none
  | .refused _ => none

def outReply (o : Out) : Option Word :=
  match o with
  | .next t => t.replies.head?
  | .fault _ => none
  | .refused _ => none

def prime : Nat := 0xFFFFFFFF00000001000000000000000000000000FFFFFFFFFFFFFFFFFFFFFFFF
def order : Nat := 0xFFFFFFFF00000000FFFFFFFFFFFFFFFFBCE6FAADA7179E84F3B9CAC2FC632551
def gx : Nat := 0x6B17D1F2E12C4247F8BCE6E563A440F277037D812DEB33A0F4A13945D898C296
def gy : Nat := 0x4FE342E2FE1A7F9B8EE7EB4A7C0F9E162BCE33576B315ECECBB6406837BF51F5
def rMod : Nat := 0x00000000FFFFFFFEFFFFFFFFFFFFFFFFFFFFFFFF000000000000000000000001

/-- The instance under the spec's model rule for invalid words. -/
def strict : State := State.powerOn Config.referenceUnderModelRule

/-- The reference instance that detects faults. -/
def detecting : State := State.powerOn { Config.reference with faultModel := .detectAny }

/-- Two field sources. -/
def ff (a b : Nat) : State := setF (setF State.reset 1 a) 2 b

/-- `P0 = G`. -/
def g0 : State := setP State.reset 0 gx gy 1

/-- `P0 = G`, `S0 = k`. -/
def gk (k : Int) : State := setS g0 0 k

/-- `P1 = (Gx, Gy + 1, 1)`, off the curve, and `S0 = k`. -/
def off1 (k : Int) : State := setS (setP State.reset 1 gx (gy + 1) 1) 0 k

/-! ### Well-formedness and encoding -/

theorem test_wf_refuses_pget_x_y : (Instr.pget 3 3 5 0).wf = false := by decide
theorem test_wf_refuses_pget_x_z : (Instr.pget 3 4 3 0).wf = false := by decide
theorem test_wf_refuses_pget_y_z : (Instr.pget 3 5 5 0).wf = false := by decide
theorem test_wf_accepts_pget : (Instr.pget 3 4 5 0).wf = true := by decide

-- Words of 95_test_vectors.md, L2-E1 to L2-E12.
theorem test_decode_nop : decode 0x00000000#32 = .ok .nop := rfl
theorem test_decode_fadd : decode 0x10312000#32 = .ok (.fadd 3 1 2) := rfl
theorem test_decode_fsub : decode 0x11312000#32 = .ok (.fsub 3 1 2) := rfl
theorem test_decode_fmul : decode 0x12312000#32 = .ok (.fmul 3 1 2) := rfl
theorem test_decode_fmont : decode 0x13312000#32 = .ok (.fmont 3 1 2) := rfl
theorem test_decode_finv : decode 0x14210000#32 = .ok (.finv 2 1) := rfl
theorem test_decode_fsqrt : decode 0x15210000#32 = .ok (.fsqrt 2 1) := rfl
theorem test_decode_pldg : decode 0x20000000#32 = .ok (.pldg 0) := rfl
theorem test_decode_pldo : decode 0x21300000#32 = .ok (.pldo 3) := rfl
theorem test_decode_pset : decode 0x30101200#32 = .ok (.pset 1 0 1 2) := rfl
theorem test_decode_pget : decode 0x31245600#32 = .ok (.pget 4 5 6 2) := rfl
theorem test_decode_pneg : decode 0x32100000#32 = .ok (.pneg 1 0) := rfl
theorem test_decode_padd : decode 0x33210000#32 = .ok (.padd 2 1 0) := rfl
theorem test_decode_pdbl : decode 0x34100000#32 = .ok (.pdbl 1 0) := rfl
theorem test_decode_peq : decode 0x35001000#32 = .ok (.peq 0 1) := rfl
theorem test_decode_ptst : decode 0x36030000#32 = .ok (.ptst 3) := rfl
theorem test_decode_pval : decode 0x37000000#32 = .ok (.pval 0) := rfl
theorem test_decode_toaff : decode 0x38210000#32 = .ok (.toaff 2 1) := rfl
theorem test_decode_smul : decode 0x40514000#32 = .ok (.smul 5 1 4) := rfl
theorem test_decode_vsmul : decode 0x41100000#32 = .ok (.vsmul 1 0 0) := rfl
theorem test_decode_cbit : decode 0x50010000#32 = .ok (.cbit 0 1) := rfl
theorem test_decode_decomp : decode 0x51310000#32 = .ok (.decomp 3 1 0) := rfl

-- L2-E13 to L2-E20.
theorem test_illegal_unassigned_first : decode 0x608F0001#32 = .error .unassigned := rfl
theorem test_illegal_reserved_before_range : decode 0x40140001#32 = .error .reservedBits := rfl
theorem test_illegal_unused_field : decode 0x14210300#32 = .error .reservedBits := rfl
theorem test_illegal_p_index : decode 0x33F00000#32 = .error .indexRange := rfl
theorem test_illegal_s_index : decode 0x40140000#32 = .error .indexRange := rfl
theorem test_illegal_duplicate : decode 0x31012100#32 = .error .duplicate := rfl

-- Program L3-3 writes these words in its comments.
theorem test_encode_pset : encode (.pset 4 0 1 2) = 0x30401200#32 := by decide
theorem test_encode_pget : encode (.pget 0 1 2 3) = 0x31301200#32 := by decide

/-! ### Field commands (L2-F) -/

theorem test_fadd_wraps : outF (exec (.fadd 3 1 2) (ff (prime - 1) 2)) 3 = some 1 := by decide +kernel
theorem test_fadd_reduces_inputs : outF (exec (.fadd 3 1 2) (ff (2 ^ 256 - 1) 1)) 3 = some rMod := by decide +kernel
theorem test_fsub_negative : outF (exec (.fsub 3 1 2) (ff 0 1)) 3 = some (prime - 1) := by decide +kernel
theorem test_fsub_order_and_reduction : outF (exec (.fsub 1 1 2) (ff 5 (prime + 7))) 1 = some (prime - 2) := by decide +kernel
theorem test_fmul_squares : outF (exec (.fmul 3 1 2) (ff (2 ^ 128) (2 ^ 128))) 3 = some rMod := by decide +kernel
theorem test_fmont_two_three : outF (exec (.fmont 3 1 2) (ff 2 3)) 3
    = some 0xFFFFFFF900000012FFFFFFEE0000000C00000006FFFFFFF40000001200000005 := by decide +kernel
theorem test_fmont_radix : outF (exec (.fmont 3 1 2) (ff rMod 5)) 3 = some 5 := by decide +kernel
theorem test_finv_three : outF (exec (.finv 2 1) (ff 3 0)) 2
    = some 0xAAAAAAAA00000000AAAAAAAAAAAAAAAAAAAAAAAB555555555555555555555555 := by decide +kernel
theorem test_finv_of_p : outStatus (exec (.finv 2 1) (ff prime 9)) = some 0x00000202#32
    ∧ outF (exec (.finv 2 1) (ff prime 9)) 2 = some 9 := by decide +kernel
theorem test_fsqrt_nine : outF (exec (.fsqrt 2 1) (ff 9 0)) 2 = some (prime - 3) := by decide +kernel
theorem test_fsqrt_nonresidue : outStatus (exec (.fsqrt 2 1) (ff 3 0)) = some 0x00000302#32 := by decide +kernel

-- A register nothing has written since reset is read at its reset value (log 4).
theorem test_unwritten_register_is_read : outF (exec (.fadd 3 1 2) (setF State.reset 2 7)) 3 = some 7 := by decide +kernel

-- L2-F33: word 3 of the first source never written.
theorem test_unwritten_word_faults_under_model_rule :
    exec (.fadd 3 1 2) { setF strict 2 7 with f := (setF strict 2 7).f.set 1 ⟨5#256, 0xF7#8, 0#8⟩ } = .fault .uninitOperand := rfl
theorem test_written_operands_run_under_model_rule : outF (exec (.fadd 3 1 2) (setF (setF strict 1 5) 2 7)) 3 = some 12 := by
  decide +kernel

/-! ### Curve and point commands (L2-C, L2-P) -/

theorem test_pldg : outP (exec (.pldg 0) State.reset) 0 = some (gx, gy, 1) := by decide +kernel
theorem test_pldo : outP (exec (.pldo 3) State.reset) 3 = some (1, 1, 0) := by decide +kernel
theorem test_pset_identity : outP (exec (.pset 2 0 1 2) (setF (ff 7 prime) 0 5)) 2 = some (1, 1, 0) := by decide +kernel
theorem test_pset_operand_order : outP (exec (.pset 1 0 1 2) (setF (ff gy 1) 0 gx)) 1 = some (gx, gy, 1) := by decide +kernel
theorem test_pget_raw : outF (exec (.pget 4 5 6 1) (setP State.reset 1 5 7 prime)) 6 = some prime
    ∧ outF (exec (.pget 4 5 6 1) (setP State.reset 1 5 7 prime)) 4 = some 5 := by decide +kernel
theorem test_pneg : outP (exec (.pneg 1 0) g0) 1
    = some (gx, 0xB01CBD1C01E58065711814B583F061E9D431CCA994CEA1313449BF97C840AE0A, 1) := by decide +kernel

/-- 2G of L2-P1. -/
def twoG : Nat × Nat × Nat :=
  (0x9A978F59ACD1B5AD570E7D52DCFCDE43804B42274F61DDCF1E7D848391D6C70F,
    0x4126885E7F786AF905338238E5346D5FE77FC46388668BD0FD59BE3190D2F5D1,
    0x9FC685C5FC34FF371DCFD694F81F3C2C579C66AED662BD9D976C80D06F7EA3EA)

/-- `P0 = G`, `P1 = 2G`. -/
def g2g : State := setP g0 1 twoG.1 twoG.2.1 twoG.2.2

theorem test_pdbl : outP (exec (.pdbl 1 0) g0) 1 = some twoG := by decide +kernel
theorem test_pdbl_order_two : outP (exec (.pdbl 2 1) (setP State.reset 1 5 0 1)) 2 = some (1, 1, 0) := by decide +kernel
theorem test_padd_2g_g : outP (exec (.padd 2 1 0) g2g) 2
    = some (0x0EC88440C8B00A9E572BF1BCEB7D0C5906BD65990A9B7081130BD72E2C136CA0,
      0xC0BC77E1339E899101F8E8ECCF79C3F7F4BBDD1BF96F6446199BD423026A60D6,
      0xDD27CB52A31D1F6E041ACCF1103DE05BA0A5EDD74B738D51FE3397DE0E3FC306) := by decide +kernel
theorem test_padd_g_2g : outP (exec (.padd 0 0 1) g2g) 0
    = some (0x0EC88440C8B00A9E572BF1BCEB7D0C5906BD65990A9B7081130BD72E2C136CA0,
      0x3F43881DCC61766FFE07171330863C080B4422E506909BB9E6642BDCFD959F29,
      0x22D834AC5CE2E092FBE5330EEFC21FA45F5A1229B48C72AE01CC6821F1C03CF9) := by decide +kernel
theorem test_peq_other_triple :
    outStatus (exec (.peq 0 1) (setP g0 1 (4 * gx % prime) (8 * gy % prime) 2)) = some 0x00000006#32 := by decide +kernel
theorem test_peq_identity_and_finite : outStatus (exec (.peq 0 1) (setP g0 1 1 1 0)) = some 0x00000002#32 := by decide +kernel
theorem test_ptst_z_is_p : outStatus (exec (.ptst 1) (setP State.reset 1 5 7 prime)) = some 0x00000006#32 := by decide +kernel
theorem test_pval_off_curve : outStatus (exec (.pval 1) (off1 0)) = some 0x00001102#32 := by decide +kernel
theorem test_pval_unreduced : outStatus (exec (.pval 1) (setP State.reset 1 gx gy (prime + 1))) = some 0x00000002#32 := by
  decide +kernel
theorem test_toaff_2g : outP (exec (.toaff 2 1) g2g) 2
    = some (0x7CF27B188D034F7E8A52380304B51AC3C08969E277F21B35A60B48FC47669978,
      0x07775510DB8ED040293D9AC69F7430DBBA7DADE63CE982299E04B79D227873D1, 1) := by decide +kernel
theorem test_toaff_identity : outStatus (exec (.toaff 2 1) (setP State.reset 1 1 1 0)) = some 0x00002102#32 := by decide +kernel

/-! ### Scalar multiplication and codec (L2-S, L2-V, L2-K) -/

theorem test_smul_minus_one : outP (exec (.smul 1 0 0) (gk (-1))) 1
    = some (0x45318B1A864A922062C539FA26EAAF4F4CFB387B5DCAD47ECD4315B77BA92DFF,
      0x2FFAC199942C77C21D1CE70D9B770ADAD1AEBC11C4495667EB7FF3B9295EEE4C,
      0xBA53691477F7CE7ABCAEA93B68B911436BFAECB1B29425ECBE031E316BF77D4A) := by decide +kernel
theorem test_smul_zero_validates_first : outStatus (exec (.smul 2 0 1) (off1 0)) = some 0x00001102#32 := by decide +kernel
theorem test_vsmul_three : outP (exec (.vsmul 1 0 0) (gk 3)) 1
    = some (0x0EC88440C8B00A9E572BF1BCEB7D0C5906BD65990A9B7081130BD72E2C136CA0,
      0xC0BC77E1339E899101F8E8ECCF79C3F7F4BBDD1BF96F6446199BD423026A60D6,
      0xDD27CB52A31D1F6E041ACCF1103DE05BA0A5EDD74B738D51FE3397DE0E3FC306) := by decide +kernel
-- L2-V5 and L2-V6: under `detect_any` the scalar 0 and the operand off the curve have one outcome.
theorem test_vsmul_zero_never_detects :
    outP (exec (.vsmul 3 1 0) (setP detecting 0 gx gy 1)) 3 = some (1, 1, 0) := by decide +kernel
theorem test_vsmul_off_curve_before_the_draw :
    outStatus (exec (.vsmul 1 0 2) (setS (setP detecting 2 gx (gy + 1) 1) 0 3)) = some 0x00001102#32 := by decide +kernel
theorem test_vsmul_in_place : outP (exec (.vsmul 0 0 0) (gk 2)) 0 = some twoG := by decide +kernel
theorem test_cbit_affine_parity :
    outF (exec (.cbit 0 3) (setP State.reset 3 (4 * gx % prime) (8 * gy % prime) 2)) 0 = some 1 := by decide +kernel
theorem test_decomp_opposite : outP (exec (.decomp 1 1 2) (ff gx 2)) 1 = some (gx, prime - gy, 1) := by decide +kernel
theorem test_decomp_no_root : outStatus (exec (.decomp 1 1 2) (ff 7 1)) = some 0x00000302#32 := by decide +kernel

/-! ### The port and the resets (L2-H, L2-C) -/

theorem test_step_nop : outStatus (step (State.reset.withFetchWord 32 0)) = some 0x00000002#32 := by decide +kernel
theorem test_step_illegal : outStatus (step (State.reset.withFetchWord 32 0x10000001)) = some 0x00002502#32 := by decide +kernel
theorem test_curve_off_generator_is_refused :
    step (State.powerOn { Config.reference with curve := { Config.p256 with gy := 5#256 } }) = .refused .configuration := by
  rfl
theorem test_unaligned_base_is_refused :
    step (State.powerOn { Config.reference with base := 0x400 }) = .refused .configuration := by rfl
theorem test_read_id : outReply (hostRead 0x000 4 State.reset) = some 0x57430001#32 := by decide +kernel
theorem test_read_cp_p_word_6 : outReply (hostRead 0x718 4 State.reset) = some 0x00000001#32 := by decide +kernel
theorem test_cp_write_ignored : outStatus (hostWrite 0x760 4 0#32 State.reset) = some 0#32 := by decide +kernel
theorem test_read_f1_word : outReply (hostRead 0x120 4 (ff 10 0)) = some 0x0000000A#32 := by decide +kernel
theorem test_cmd_write_while_busy : outStatus (hostWrite 0x008 4 0#32 (inFlight State.reset 0x40100000#32 false))
    = some 0x00000009#32 := by decide +kernel
theorem test_status_write : outStatus (hostWrite 0x00C 4 0xFFFFFFFF#32 { State.reset with status := ⟨true, true, true, 1#4, 1#4⟩ })
    = some 0x00001104#32 := by decide +kernel
theorem test_byte_of_cp_p : State.reset.windowByte 0x718 = some 0x01#8 := by decide +kernel
theorem test_reset_with_integrity_check :
    outReply (hostRead 0x004 4 (State.powerOn Config.referenceWithIntegrityCheck)) = some 0x00000002#32 := by decide +kernel

/-- L2-H10: a soft reset while `SMUL P1, S0, P0` is in flight. -/
def abortedP1 : State := (inFlight (gk 3) 0x40100000#32 false).writeSlot .ctrl 0x80000000#32

-- L2-H10: every word of P1 is invalid, so PTST P1 ends in the model fault, and P0 can still be read.
theorem test_aborted_destination_faults : exec (.ptst 1) abortedP1 = .fault .uninitOperand := rfl
theorem test_abort_keeps_the_source : outStatus (exec (.ptst 0) abortedP1) = some 0x00000002#32 := by decide +kernel

/-! ### Witnesses: for each obligation with hypotheses, a state and operands that meet them -/

/-- `s` with one event to come. -/
def withEvent (s : State) (e : Event) : State := { s with inbox := [e] }

/-- A state with FADD F3, F1, F2 in flight. -/
def faddBusy : State := inFlight (ff 1 2) 0x10312000#32 false

/-- The step went on, to a state with the property. -/
def ranTo (P : State → Bool) (o : Out) : Bool :=
  match o with
  | .next t => P t
  | .fault _ => false
  | .refused _ => false

theorem next_of_ranTo {P : State → Bool} {o : Out} (h : ranTo P o = true) : ∃ t, o = .next t ∧ P t = true := by
  cases o with
  | next t => exact ⟨t, rfl, h⟩
  | fault _ => cases h
  | refused _ => cases h

theorem next_of_ran {o : Out} (h : ranTo (fun _ => true) o = true) : ∃ t, o = .next t :=
  (next_of_ranTo h).imp fun _ h => h.1

theorem witness_DecodeOfEncode_top : (Instr.pget 15 14 13 7).wf = true := by decide
theorem witness_LegalWord : decode 0x317FED00#32 = .ok (.pget 15 14 13 7) := rfl
theorem witness_PgetWithEqualDestinations : ((15 : FIdx) = 0 ∨ (15 : FIdx) = 15 ∨ (0 : FIdx) = 15) := by decide

/-- The host writes FADD F3, F1, F2 to CMD of an idle block. -/
def commanded : State :=
  { ff 1 2 with inbox := [.write 0x008 4 0x10312000#32, .engine, .read 0x00C 4] }

theorem witness_OnlyAdmitted_curve : ¬ ({ Config.p256 with p := 4#256 } : Curve).Admitted :=
  fun h => absurd h.pPrime (by decide)
theorem witness_OnlyAdmitted_base : (1 : Nat) % 0x800 ≠ 0 := by decide

/-- Every state of the reference instance is one of an admitted configuration, the premise of the statements about a step. -/
theorem witness_admitted (s : State) (h : s.par = Config.reference) : s.par.Admitted := h ▸ reference_admitted.1

theorem witness_StepRuns_admitted : faddBusy.par.Admitted ∧ commanded.par.Admitted ∧ State.reset.par.Admitted :=
  ⟨witness_admitted _ rfl, witness_admitted _ rfl, witness_admitted _ rfl⟩

theorem witness_StepRuns_no_event : faddBusy.latch = some ⟨0x10312000#32, false⟩ ∧ decode 0x10312000#32 = .ok (.fadd 3 1 2)
    ∧ faddBusy.inbox = [] := by decide
theorem witness_StepRuns_engine_event : (withEvent faddBusy .engine).latch = some ⟨0x10312000#32, false⟩
    ∧ (withEvent faddBusy .engine).inbox = .engine :: [] := by decide
theorem witness_IdleBlock : State.reset.busy = false ∧ State.reset.inbox = []
    ∧ (withEvent State.reset .engine).inbox = .engine :: [] := by decide

theorem witness_CommandWritten : commanded.busy = false ∧ (Instr.fadd 3 1 2).wf = true
    ∧ commanded.inbox = .write (commanded.par.base + 0x008) 4 (encode (.fadd 3 1 2)) :: .engine :: [.read 0x00C 4] := by
  decide

theorem witness_IllegalWord_unassigned : (inFlight State.reset 0xFF000000#32 false).latch = some ⟨0xFF000000#32, false⟩
    ∧ decode 0xFF000000#32 = .error .unassigned ∧ (inFlight State.reset 0xFF000000#32 false).inbox = [] := by decide
theorem witness_IllegalWord_reserved : (inFlight State.reset 0x00000001#32 false).latch = some ⟨0x00000001#32, false⟩
    ∧ decode 0x00000001#32 = .error .reservedBits ∧ (inFlight State.reset 0x00000001#32 false).inbox = [] := by decide
theorem witness_IllegalWord_range : (inFlight State.reset 0x20800000#32 false).latch = some ⟨0x20800000#32, false⟩
    ∧ decode 0x20800000#32 = .error .indexRange ∧ (inFlight State.reset 0x20800000#32 false).inbox = [] := by decide
theorem witness_IllegalWord_duplicate : (inFlight State.reset 0x31000000#32 false).latch = some ⟨0x31000000#32, false⟩
    ∧ decode 0x31000000#32 = .error .duplicate ∧ (inFlight State.reset 0x31000000#32 false).inbox = [] := by decide

theorem witness_IllegalWord_engine_event : (withEvent (inFlight State.reset 0x00000001#32 false) .engine).par.Admitted
    ∧ (withEvent (inFlight State.reset 0x00000001#32 false) .engine).latch = some ⟨0x00000001#32, false⟩
    ∧ ∃ rest, (withEvent (inFlight State.reset 0x00000001#32 false) .engine).inbox = .engine :: rest :=
  ⟨witness_admitted _ rfl, rfl, [], rfl⟩

theorem witness_CmdWrite_idle : commanded.inbox = .write (commanded.par.base + 0x008) 4 0x10312000#32 :: commanded.inbox.tail
    ∧ commanded.busy = false := by decide
theorem witness_CmdWrite_busy : (withEvent faddBusy (.write 0x008 4 7#32)).inbox
      = .write ((withEvent faddBusy (.write 0x008 4 7#32)).par.base + 0x008) 4 7#32 :: []
    ∧ (withEvent faddBusy (.write 0x008 4 7#32)).busy = true := by decide

theorem faddBusy_inv : faddBusy.Inv where
  legal := by decide
  inFlight := by decide
  latched := by rintro l h; cases h; rfl

theorem witness_EveryStepKeepsInvariant : faddBusy.Inv ∧ ∃ t, step faddBusy = .next t :=
  ⟨faddBusy_inv, next_of_ran (by decide +kernel)⟩
theorem witness_ParametersNeverChange : ∃ t, step (withEvent State.reset (.write 0x760 4 0#32)) = .next t :=
  next_of_ran (by decide +kernel)
theorem witness_Polling : ({ faddBusy with inbox := List.replicate 2 (.read 0x00C 4) } : State).busy = true
    ∧ ({ faddBusy with inbox := List.replicate 2 (.read 0x00C 4) } : State).inbox
      = List.replicate 2 (.read (faddBusy.par.base + 0x00C) 4) := by decide
theorem witness_Polling_last_read :
    ({ faddBusy with inbox := List.replicate 2 (.read 0x00C 4) ++ [.engine, .read 0x00C 4] } : State).par.Admitted
    ∧ ({ faddBusy with inbox := List.replicate 2 (.read 0x00C 4) ++ [.engine, .read 0x00C 4] } : State).busy = true
    ∧ ({ faddBusy with inbox := List.replicate 2 (.read 0x00C 4) ++ [.engine, .read 0x00C 4] } : State).inbox
      = List.replicate 2 (.read (faddBusy.par.base + 0x00C) 4) ++ [.engine, .read (faddBusy.par.base + 0x00C) 4] :=
  ⟨witness_admitted _ rfl, rfl, rfl⟩
theorem witness_Polling_sources : ∀ l i, faddBusy.latch = some l → decode l.word = .ok i → Sys2Proof.Claims.sourcesReadable faddBusy i := by
  intro l i hl hi
  cases hl
  cases hi
  exact ⟨rfl, rfl⟩

/-- Every command has a state of the reference instance where all its sources are readable: the one right after reset. -/
theorem witness_EveryCommandCompletes (i : Instr) : Sys2Proof.Claims.sourcesReadable State.reset i := by
  have hf : ∀ j : FIdx, State.reset.fReads j = true := by decide +kernel
  have hp : ∀ j : PIdx, State.reset.pReads j = true := by decide +kernel
  have hs : ∀ j : SIdx, State.reset.sReads j = true := by decide +kernel
  cases i <;> simp only [Sys2Proof.Claims.sourcesReadable, State.readableF, State.readableP, State.readableS, hf, hp, hs, and_self]

theorem witness_CommandFaults_modelFault : strict.par.uninit = .modelFault ∧ strict.fOk 15 = false ∧ strict.pOk 7 = false
    ∧ strict.sOk 3 = false ∧ (setF strict 1 5).fOk 1 = true := by decide +kernel
theorem witness_CommandFaults_aborted : ¬ Sys2Proof.Claims.sourcesReadable abortedP1 (.ptst 1)
    ∧ abortedP1.par.uninit = .resetValues ∧ ¬ Sys2Proof.Claims.wordReadable abortedP1.p[(1 : PIdx)].z 7
    ∧ Sys2Proof.Claims.wordReadable abortedP1.p[(0 : PIdx)].z 7 := by
  have hr : ¬ abortedP1.readableP 1 := by decide +kernel
  have ha : abortedP1.p[(1 : PIdx)].z.valid.getLsbD 7 = false ∧ abortedP1.p[(1 : PIdx)].z.aborted.getLsbD 7 = true := by decide +kernel
  have hv : abortedP1.p[(0 : PIdx)].z.valid.getLsbD 7 = true := by decide +kernel
  exact ⟨hr, rfl, by rw [Sys2Proof.Claims.wordReadable, ha.1, ha.2]; decide, .inl hv⟩
theorem witness_OneInvalidWord :
    (strict.writeSlot (.f 1 7) 5#32).par.uninit = .modelFault ∧ (strict.writeSlot (.f 1 7) 5#32).fOk 1 = false := by
  decide +kernel

/-- FINV of 0. -/
def finvZero : State := inFlight (ff 0 0) 0x14210000#32 false

theorem witness_ErrorWritesNothingElse_error : finvZero.status.err = 0#4 ∧ finvZero.status.errInfo = 0#4
    ∧ ∃ t, exec (.finv 2 1) finvZero = .next t :=
  ⟨rfl, rfl, next_of_ran (by decide +kernel)⟩
theorem witness_ErrorWritesNothingElse_none : faddBusy.status.err = 0#4 ∧ faddBusy.status.errInfo = 0#4
    ∧ ∃ t, exec (.fadd 3 1 2) faddBusy = .next t :=
  ⟨rfl, rfl, next_of_ran (by decide +kernel)⟩
theorem witness_EachCommandReports_off_curve : (off1 0).status.err = 0#4 ∧ (off1 0).status.errInfo = 0#4
    ∧ ∃ t, exec (.smul 2 0 1) (off1 0) = .next t :=
  ⟨rfl, rfl, next_of_ran (by decide +kernel)⟩
theorem witness_CommandsWriteOnly_field : ∃ t, exec (.fadd 3 1 2) faddBusy = .next t ∧ t.f[(3 : FIdx)] ≠ faddBusy.f[(3 : FIdx)] :=
  ⟨_, rfl, by decide +kernel⟩
theorem witness_CommandsWriteOnly_point : ∃ t, exec (.pldo 7) State.reset = .next t ∧ t.p[(7 : PIdx)] ≠ State.reset.p[(7 : PIdx)] :=
  ⟨_, rfl, by decide +kernel⟩

/-- EQ set, nothing in flight. -/
def eqSet : State := { g0 with status := ⟨false, true, false, 0#4, 0#4⟩ }

theorem eq_changes {s t : State} (h : step s = .next t) {b : Bool} (hs : s.status.eqFlag = !b) (ht : (t.status.eqFlag == b) = true) :
    step s = .next t ∧ t.status.eqFlag ≠ s.status.eqFlag := by
  refine ⟨h, ?_⟩
  rw [hs, eq_of_beq ht]
  cases b <;> decide

theorem witness_EqChanges_peq : ∃ t, step (inFlight g0 0x35000000#32 false) = .next t
    ∧ t.status.eqFlag ≠ (inFlight g0 0x35000000#32 false).status.eqFlag :=
  (next_of_ranTo (P := fun t => t.status.eqFlag == true) (by decide +kernel)).imp fun _ h => eq_changes h.1 rfl h.2
theorem witness_EqChanges_ptst : ∃ t, step (inFlight eqSet 0x36000000#32 false) = .next t
    ∧ t.status.eqFlag ≠ (inFlight eqSet 0x36000000#32 false).status.eqFlag :=
  (next_of_ranTo (P := fun t => t.status.eqFlag == false) (by decide +kernel)).imp fun _ h => eq_changes h.1 rfl h.2
theorem witness_EqChanges_soft_reset : ∃ t, step (withEvent eqSet (.write 0x004 4 0x80000000#32)) = .next t
    ∧ t.status.eqFlag ≠ (withEvent eqSet (.write 0x004 4 0x80000000#32)).status.eqFlag :=
  (next_of_ranTo (P := fun t => t.status.eqFlag == false) (by decide +kernel)).imp fun _ h => eq_changes h.1 rfl h.2
theorem witness_EqChanges_hard_reset : ∃ t, step (withEvent eqSet .hardReset) = .next t
    ∧ t.status.eqFlag ≠ (withEvent eqSet .hardReset).status.eqFlag :=
  (next_of_ranTo (P := fun t => t.status.eqFlag == false) (by decide +kernel)).imp fun _ h => eq_changes h.1 rfl h.2

theorem witness_VerifySample : (inFlight (gk 3) 0x40100000#32 true).latch = some ⟨0x40100000#32, true⟩ := rfl

/-! #### Field commands -/

theorem witness_FieldSum : 0 < (ff (2 ^ 256 - 1) prime).modulus ∧ (ff (2 ^ 256 - 1) prime).readableF 1
    ∧ (ff (2 ^ 256 - 1) prime).readableF 2 :=
  ⟨by decide +kernel, rfl, rfl⟩
theorem witness_FieldSum_strict : 0 < (setF strict 1 5).modulus ∧ (setF strict 1 5).readableF 1 :=
  ⟨by decide +kernel, by decide +kernel⟩
theorem witness_Fmont : (ff 2 3).par.curve.Admitted ∧ (ff 2 3).readableF 1 ∧ (ff 2 3).readableF 2 :=
  ⟨p256_admitted, rfl, rfl⟩

/-- F4 = R² mod p. -/
def withR2 : State := setF (ff 2 3) 4 (rMod * rMod % prime)

theorem witness_FmulIsTwoMontgomery : withR2.par.curve.Admitted ∧ withR2.readableF 1 ∧ withR2.readableF 2 ∧ withR2.readableF 4
    ∧ (3 : FIdx) ≠ 4 ∧ withR2.fNat 4 % withR2.modulus = (2 ^ 256 * 2 ^ 256) % withR2.modulus :=
  ⟨p256_admitted, rfl, rfl, rfl, by decide, by decide +kernel⟩
theorem witness_Finv_inverts : (ff 3 0).par.curve.Admitted ∧ (ff 3 0).readableF 1 ∧ (ff 3 0).fNat 1 % (ff 3 0).modulus ≠ 0 :=
  ⟨p256_admitted, rfl, by decide +kernel⟩
theorem witness_Finv_zero : (ff prime 0).par.curve.Admitted ∧ (ff prime 0).readableF 1
    ∧ (ff prime 0).fNat 1 % (ff prime 0).modulus = 0 :=
  ⟨p256_admitted, rfl, by decide +kernel⟩

/-- Squares mod the prime of P-256, decided by the candidate of R137. -/
theorem isSquare_p256 {x : Int} (h0 : 0 ≤ x) (h1 : x < Config.p256.pI) :
    (Config.p256.sqrtP x).isSome = true ↔ IsSquare (x : ZMod Config.p256.p.toNat) :=
  sqrtP_isSome_iff ⟨p256_admitted.pPrime⟩ p256_admitted.pMod4 h0 h1

theorem witness_Fsqrt_square : (ff 4 0).par.curve.Admitted ∧ (ff 4 0).readableF 1
    ∧ IsSquare ((ff 4 0).fNat 1 : ZMod (ff 4 0).modulus) :=
  ⟨p256_admitted, rfl, 2, by
    have : (ff 4 0).fNat 1 = 4 := by decide +kernel
    rw [this]; norm_num⟩
theorem witness_Fsqrt_zero : (ff prime 0).readableF 1 ∧ IsSquare ((ff prime 0).fNat 1 : ZMod (ff prime 0).modulus) :=
  ⟨rfl, 0, by
    have : (ff prime 0).fNat 1 = (ff prime 0).modulus := by decide +kernel
    rw [this]; simp⟩
theorem witness_Fsqrt_nonsquare : (ff 3 0).par.curve.Admitted ∧ (ff 3 0).readableF 1
    ∧ ¬ IsSquare ((ff 3 0).fNat 1 : ZMod (ff 3 0).modulus) := by
  refine ⟨p256_admitted, rfl, ?_⟩
  have h : (ff 3 0).fNat 1 = 3 := by decide +kernel
  have := (isSquare_p256 (x := 3) (by decide) (by decide +kernel)).not.1 (by decide +kernel)
  rw [h]
  exact_mod_cast this

/-! #### Point commands -/

theorem prime_fact : Fact Config.p256.p.toNat.Prime := ⟨p256_admitted.pPrime⟩

/-- A register of the reference instance whose triple passes `on_curve` holds a point. -/
theorem holds_of_onCurve {s : State} (hs : s.par.curve = Config.p256) {i : PIdx} (h : s.par.curve.onCurve (s.pRaw i) = true) :
    ∃ Q : s.par.curve.weier.Point, s.holdsPoint s i Q :=
  have : Fact s.par.curve.p.toNat.Prime := by rw [hs]; exact prime_fact
  (exists_rep_iff (by rw [hs]; exact p256_admitted) _).2 h

theorem witness_PointLoads : Fact State.reset.par.curve.p.toNat.Prime ∧ State.reset.par.curve.Admitted :=
  ⟨prime_fact, p256_admitted⟩
theorem witness_Pset_finite : 1 < (setF (ff gy 1) 0 gx).modulus ∧ (setF (ff gy 1) 0 gx).readableF 0
    ∧ (setF (ff gy 1) 0 gx).readableF 1 ∧ (setF (ff gy 1) 0 gx).readableF 2
    ∧ (setF (ff gy 1) 0 gx).fNat 2 % (setF (ff gy 1) 0 gx).modulus ≠ 0 :=
  ⟨by decide +kernel, rfl, rfl, rfl, by decide +kernel⟩
theorem witness_Pset_identity : 1 < (ff 7 prime).modulus ∧ (ff 7 prime).readableF 0 ∧ (ff 7 prime).readableF 1
    ∧ (ff 7 prime).readableF 2 ∧ (ff 7 prime).fNat 2 % (ff 7 prime).modulus = 0 :=
  ⟨by decide +kernel, rfl, rfl, rfl, by decide +kernel⟩
theorem witness_Pget : (Instr.pget 15 14 13 7).wf = true ∧ State.reset.readableP 7 := ⟨by decide, rfl⟩
theorem witness_WrittenPoints : State.reset.par.curve.Admitted ∧ State.reset.status.err = 0#4 ∧ (∃ t, exec (.pldo 7) State.reset = .next t
    ∧ t.status.err = 0#4) ∧ Dest.p 7 ∈ destsOf (.pldo 7) ∧ Dest.p 0 ∉ destsOf (.pldo 7) :=
  ⟨p256_admitted, rfl, ⟨_, rfl, by decide +kernel⟩, by decide, by decide⟩
theorem witness_GroupLaw : g2g.par.curve.Admitted ∧ g2g.readableP 0 ∧ g2g.readableP 1
    ∧ (∃ Q : g2g.par.curve.weier.Point, g2g.holdsPoint g2g 0 Q) ∧ (∃ R : g2g.par.curve.weier.Point, g2g.holdsPoint g2g 1 R) :=
  ⟨p256_admitted, rfl, rfl, holds_of_onCurve rfl (by decide +kernel),
    holds_of_onCurve rfl (by decide +kernel)⟩
theorem witness_GroupLaw_identity : ∃ Q : State.reset.par.curve.weier.Point, State.reset.holdsPoint State.reset 0 Q :=
  ⟨.zero, (zMod_eq_zero_iff State.reset 0).2 (by decide +kernel)⟩
theorem witness_DoubleAndNegate : 1 < (off1 0).modulus ∧ (off1 0).readableP 1 := ⟨by decide +kernel, rfl⟩

/-- Z is 0, or not 0, mod p in a register of the reference instance. -/
theorem zMod_zero {s : State} {i : PIdx} (h : s.p[i].z.val.toNat % s.modulus = 0) : s.zMod i = 0 := (zMod_eq_zero_iff s i).2 h
theorem zMod_ne {s : State} {i : PIdx} (h : s.p[i].z.val.toNat % s.modulus ≠ 0) : s.zMod i ≠ 0 :=
  fun hz => h ((zMod_eq_zero_iff s i).1 hz)

theorem witness_Double_identity : (setP State.reset 1 5 7 prime).zMod 1 = 0 := zMod_zero (by decide +kernel)
theorem witness_Double_order_two :
    2 * (setP State.reset 1 5 0 1).yMod 1 * (setP State.reset 1 5 0 1).zMod 1 = 0 := by
  have : (setP State.reset 1 5 0 1).p[(1 : PIdx)].y.val.toNat = 0 := by decide +kernel
  rw [State.yMod, this]
  simp
theorem witness_Double_finite : 2 * g0.yMod 0 * g0.zMod 0 ≠ 0 := by
  have hy : g0.p[(0 : PIdx)].y.val.toNat = gy := by decide +kernel
  have hz : g0.p[(0 : PIdx)].z.val.toNat = 1 := by decide +kernel
  rw [State.yMod, State.zMod, hy, hz]
  have : ((2 * gy * 1 : Nat) : ZMod g0.modulus) ≠ 0 := by
    rw [Ne, ZMod.natCast_eq_zero_iff, Nat.dvd_iff_mod_eq_zero]
    decide +kernel
  simpa using this
theorem witness_Add : 1 < g2g.modulus ∧ g2g.readableP 0 ∧ g2g.readableP 1 ∧ g2g.zMod 0 ≠ 0 ∧ g2g.zMod 1 ≠ 0 :=
  ⟨by decide +kernel, rfl, rfl, zMod_ne (by decide +kernel), zMod_ne (by decide +kernel)⟩
theorem witness_Add_opposite :
    (setP g0 1 gx (prime - gy) 1).xMod 0 * (setP g0 1 gx (prime - gy) 1).zMod 1 ^ 2
        = (setP g0 1 gx (prime - gy) 1).xMod 1 * (setP g0 1 gx (prime - gy) 1).zMod 0 ^ 2
      ∧ (setP g0 1 gx (prime - gy) 1).yMod 0 * (setP g0 1 gx (prime - gy) 1).zMod 1 ^ 3
        = -((setP g0 1 gx (prime - gy) 1).yMod 1 * (setP g0 1 gx (prime - gy) 1).zMod 0 ^ 3) := by
  have e (v : Nat) (h : v % Config.p256.p.toNat = gx) : (v : ZMod Config.p256.p.toNat) = gx := by rw [← h]; simp
  have hx0 : (setP g0 1 gx (prime - gy) 1).p[(0 : PIdx)].x.val.toNat = gx := by decide +kernel
  have hx1 : (setP g0 1 gx (prime - gy) 1).p[(1 : PIdx)].x.val.toNat = gx := by decide +kernel
  have hz0 : (setP g0 1 gx (prime - gy) 1).p[(0 : PIdx)].z.val.toNat = 1 := by decide +kernel
  have hz1 : (setP g0 1 gx (prime - gy) 1).p[(1 : PIdx)].z.val.toNat = 1 := by decide +kernel
  have hy0 : (setP g0 1 gx (prime - gy) 1).p[(0 : PIdx)].y.val.toNat = gy := by decide +kernel
  have hy1 : (setP g0 1 gx (prime - gy) 1).p[(1 : PIdx)].y.val.toNat = prime - gy := by decide +kernel
  simp only [State.xMod, State.yMod, State.zMod, hx0, hx1, hy0, hy1, hz0, hz1, Nat.cast_one, one_pow, mul_one, true_and]
  rw [← add_eq_zero_iff_eq_neg, ← Nat.cast_add, ZMod.natCast_eq_zero_iff, Nat.dvd_iff_mod_eq_zero]
  decide +kernel
theorem witness_EqualityAndIdentity : 0 < g2g.modulus ∧ g2g.readableP 0 ∧ g2g.readableP 1 :=
  ⟨by decide +kernel, rfl, rfl⟩

/-- `(4·Gx, 8·Gy, 2)`, another triple of G. -/
def gTwo : Triple := ⟨4 * gx % prime, 8 * gy % prime, 2⟩

theorem witness_PointEquality_finite : Fact Config.p256.p.toNat.Prime ∧ Config.p256.eqPt Config.p256.gen gTwo = true
    ∧ Config.p256.eqPt gTwo Config.p256.gen = true ∧ Config.p256.isId gTwo = false ∧ Config.p256.isId Config.p256.gen = false :=
  ⟨prime_fact, by decide +kernel⟩
theorem witness_PointEquality_identity : Config.p256.isId ⟨5, 7, (prime : Int)⟩ = true ∧ Config.p256.isId oCan = true := by
  decide +kernel
theorem witness_Pval_identity : Fact State.reset.modulus.Prime ∧ State.reset.readableP 0 ∧ State.reset.zMod 0 = 0 :=
  ⟨prime_fact, rfl, zMod_zero (by decide +kernel)⟩

/-- A finite triple is on the curve exactly where it satisfies the affine equation of R178. -/
theorem onCurve_affine (x y : Nat) (b : Bool) (h : (((y * y : Int) - (x * x * x + Config.p256.aI * x + Config.p256.bI)) % Config.p256.pI == 0) = b) :
    ((y : ZMod Config.p256.p.toNat) ^ 2 = (x : ZMod Config.p256.p.toNat) ^ 3
      + (Config.p256.a.toNat : ZMod Config.p256.p.toNat) * x + (Config.p256.b.toNat : ZMod Config.p256.p.toNat)) ↔ b = true := by
  rw [← h, beq_iff_eq, ← cast_eq_zero_iff, Int.cast_sub, sub_eq_zero]
  simp [Curve.aI, Curve.bI, pow_two, pow_three, mul_assoc]

/-- With Z = 1 the affine coordinates are the coordinates. -/
theorem affine_z_one (s : State) [Fact s.modulus.Prime] (i : PIdx) (h : s.p[i].z.val.toNat = 1) :
    s.xMod i / s.zMod i ^ 2 = s.xMod i ∧ s.yMod i / s.zMod i ^ 3 = s.yMod i := by
  rw [State.zMod, h]
  simp

theorem witness_Pval_on_curve : ∃ _ : Fact g0.modulus.Prime, g0.readableP 0 ∧ (g0.yMod 0 / g0.zMod 0 ^ 3) ^ 2 = (g0.xMod 0 / g0.zMod 0 ^ 2) ^ 3
    + (g0.par.curve.a.toNat : ZMod g0.modulus) * (g0.xMod 0 / g0.zMod 0 ^ 2) + (g0.par.curve.b.toNat : ZMod g0.modulus) := by
  refine ⟨prime_fact, rfl, ?_⟩
  have hF : Fact g0.modulus.Prime := prime_fact
  obtain ⟨ax, ay⟩ := affine_z_one g0 0 (by decide +kernel)
  rw [ax, ay, State.xMod, State.yMod]
  have hx : g0.p[(0 : PIdx)].x.val.toNat = gx := by decide +kernel
  have hy : g0.p[(0 : PIdx)].y.val.toNat = gy := by decide +kernel
  rw [hx, hy]
  exact (onCurve_affine gx gy true (by decide +kernel)).2 rfl
theorem witness_Pval_off_curve : ∃ _ : Fact (off1 0).modulus.Prime, (off1 0).readableP 1 ∧ (off1 0).zMod 1 ≠ 0 ∧
    ¬ ((off1 0).yMod 1 / (off1 0).zMod 1 ^ 3) ^ 2 = ((off1 0).xMod 1 / (off1 0).zMod 1 ^ 2) ^ 3
      + ((off1 0).par.curve.a.toNat : ZMod (off1 0).modulus) * ((off1 0).xMod 1 / (off1 0).zMod 1 ^ 2)
      + ((off1 0).par.curve.b.toNat : ZMod (off1 0).modulus) := by
  refine ⟨prime_fact, rfl, zMod_ne (by decide +kernel), ?_⟩
  have hF : Fact (off1 0).modulus.Prime := prime_fact
  obtain ⟨ax, ay⟩ := affine_z_one (off1 0) 1 (by decide +kernel)
  rw [ax, ay, State.xMod, State.yMod]
  have hx : (off1 0).p[(1 : PIdx)].x.val.toNat = gx := by decide +kernel
  have hy : (off1 0).p[(1 : PIdx)].y.val.toNat = gy + 1 := by decide +kernel
  rw [hx, hy]
  exact fun h => by cases (onCurve_affine gx (gy + 1) false (by decide +kernel)).1 h
theorem witness_Toaff_finite : g2g.par.curve.Admitted ∧ g2g.readableP 1 ∧ g2g.zMod 1 ≠ 0 :=
  ⟨p256_admitted, rfl, zMod_ne (by decide +kernel)⟩
theorem witness_Toaff_identity : State.reset.par.curve.Admitted ∧ State.reset.readableP 7 ∧ State.reset.zMod 7 = 0 :=
  ⟨p256_admitted, rfl, zMod_zero (by decide +kernel)⟩

/-! #### Scalar multiplication and codec -/

theorem p256_gen_onCurve : Config.p256.onCurve Config.p256.gen = true := by decide +kernel

/-- The register `P0 = G` holds a point of order dividing `n`. -/
theorem gk_holds (k : Int) : ∃ (_ : Fact (gk k).par.curve.p.toNat.Prime) (Q : (gk k).par.curve.weier.Point),
    (gk k).holdsPoint (gk k) 0 Q ∧ (gk k).par.curve.n.toNat • Q = 0 := by
  have hF : Fact (gk k).par.curve.p.toNat.Prime := prime_fact
  have hg : (gk k).pRaw 0 = (gk k).par.curve.gen := by
    have : g0.pRaw 0 = Config.p256.gen := by decide +kernel
    exact this
  obtain ⟨Q, hQ⟩ := holds_of_onCurve (s := gk k) (i := 0) rfl (by rw [hg]; exact p256_gen_onCurve)
  refine ⟨hF, Q, hQ, gen_order (c := (gk k).par.curve) p256_admitted ?_⟩
  rw [← hg]
  exact hQ

/-- No point stands off the curve. -/
theorem off1_holds_none (k : Int) (Q : (off1 k).par.curve.weier.Point) : ¬ (off1 k).holdsPoint (off1 k) 1 Q := by
  intro h
  have hF : Fact (off1 k).par.curve.p.toNat.Prime := prime_fact
  have h1 : (off1 k).par.curve.onCurve ((off1 k).pRaw 1) = true := (exists_rep_iff (c := (off1 k).par.curve) p256_admitted _).1 ⟨Q, h⟩
  have h2 : Config.p256.onCurve ((setP State.reset 1 gx (gy + 1) 1).pRaw 1) = false := by decide +kernel
  exact Bool.false_ne_true (h2.symm.trans h1)

theorem g0_readable : g0.readableP 0 := by decide +kernel
theorem gk_readable (k : Int) : (gk k).readableS 0 := readableS_of_sOk (by simp [State.sOk, gk, setS, Reg.allValid])

theorem witness_Smul (k : Int) : (gk k).par.curve.Admitted ∧ (gk k).readableS 0 ∧ (gk k).readableP 0 ∧ (gk k).verifySample = false
    ∧ ∃ (_ : Fact (gk k).par.curve.p.toNat.Prime) (Q : (gk k).par.curve.weier.Point),
      (gk k).holdsPoint (gk k) 0 Q ∧ (gk k).par.curve.n.toNat • Q = 0 :=
  ⟨p256_admitted, gk_readable k, g0_readable, rfl, gk_holds k⟩
theorem witness_Smul_off_curve : (off1 0).par.curve.Admitted ∧ (off1 0).readableS 0 ∧ (off1 0).readableP 1
    ∧ (off1 0).verifySample = false ∧ ∀ Q : (off1 0).par.curve.weier.Point, ¬ (off1 0).holdsPoint (off1 0) 1 Q :=
  ⟨p256_admitted, rfl, rfl, rfl, off1_holds_none 0⟩

/-- `P0 = G`, `S0 = a`, `S1 = b`, `S2 = c`. -/
def gk3 (a b c : Int) : State := setS (setS (gk a) 1 b) 2 c

theorem gk3_holds (a b c : Int) : ∃ (_ : Fact (gk3 a b c).par.curve.p.toNat.Prime) (Q : (gk3 a b c).par.curve.weier.Point),
    (gk3 a b c).holdsPoint (gk3 a b c) 0 Q ∧ (gk3 a b c).par.curve.n.toNat • Q = 0 := gk_holds a

theorem witness_SmulExact_zero : (gk3 order 0 1).readableS 0 ∧ (gk3 order 0 1).readableP 0 ∧ (gk3 order 0 1).verifySample = false
    ∧ (gk3 order 0 1).sc[(0 : SIdx)].val.toInt % ((gk3 order 0 1).par.curve.n.toNat : Int) = 0
    ∧ (gk3 order 0 1).sc[(1 : SIdx)].val.toInt % ((gk3 order 0 1).par.curve.n.toNat : Int)
      = (gk3 order 0 1).sc[(0 : SIdx)].val.toInt % ((gk3 order 0 1).par.curve.n.toNat : Int) :=
  ⟨rfl, rfl, rfl, by decide +kernel, by decide +kernel⟩
theorem witness_SmulExact_one : (gk (1 - order)).sc[(0 : SIdx)].val.toInt % ((gk (1 - order)).par.curve.n.toNat : Int) = 1
    ∧ (gk (1 - order)).zMod 0 ≠ 0 :=
  ⟨by decide +kernel, zMod_ne (by decide +kernel)⟩
theorem witness_SmulExact_even : (gk3 5 10 11).readableS 0 ∧ (gk3 5 10 11).zMod 0 ≠ 0 ∧ (1 : PIdx) ≠ 0 ∧ 1 ≤ 5
    ∧ (gk3 5 10 11).sc[(0 : SIdx)].val.toInt % ((gk3 5 10 11).par.curve.n.toNat : Int) = (5 : Nat)
    ∧ (gk3 5 10 11).sc[(1 : SIdx)].val.toInt % ((gk3 5 10 11).par.curve.n.toNat : Int) = 2 * (5 : Nat) :=
  ⟨rfl, zMod_ne (by decide +kernel), by decide, by decide, by decide +kernel, by decide +kernel⟩
theorem witness_SmulExact_odd :
    (gk3 5 10 11).sc[(2 : SIdx)].val.toInt % ((gk3 5 10 11).par.curve.n.toNat : Int) = 2 * (5 : Nat) + 1 := by decide +kernel
theorem witness_SmulGuarantees_sum : (gk3 (-1) 3 2).par.curve.Admitted ∧ (gk3 (-1) 3 2).readableS 0 ∧ (gk3 (-1) 3 2).readableS 1
    ∧ (gk3 (-1) 3 2).readableS 2 ∧ (gk3 (-1) 3 2).readableP 0 ∧ ((gk3 (-1) 3 2).verifySample = false ∨ (gk3 (-1) 3 2).par.faultModel = .none)
    ∧ (∃ (_ : Fact (gk3 (-1) 3 2).par.curve.p.toNat.Prime) (Q : (gk3 (-1) 3 2).par.curve.weier.Point), (gk3 (-1) 3 2).holdsPoint (gk3 (-1) 3 2) 0 Q
      ∧ (gk3 (-1) 3 2).par.curve.n.toNat • Q = 0)
    ∧ (gk3 (-1) 3 2).sc[(2 : SIdx)].val.toInt = (gk3 (-1) 3 2).sc[(0 : SIdx)].val.toInt + (gk3 (-1) 3 2).sc[(1 : SIdx)].val.toInt :=
  ⟨p256_admitted, rfl, rfl, rfl, rfl, .inl rfl,
    gk3_holds (-1) 3 2, by decide +kernel⟩
theorem witness_SmulGuarantees_verified : (inFlight g0 0x40100000#32 true).verifySample = true
    ∧ (inFlight g0 0x40100000#32 true).par.faultModel = .none := by decide
theorem witness_SmulGuarantees_n : (gk order).sc[(0 : SIdx)].val.toInt = ((gk order).par.curve.n.toNat : Int) := by decide +kernel
theorem witness_SmulGuarantees_one : (gk 1).sc[(0 : SIdx)].val.toInt = 1 := by decide +kernel
theorem witness_Vsmul : (gk 3).par.curve.Admitted ∧ (gk 3).par.faultModel = .none ∧ (gk 3).readableS 0 ∧ (gk 3).readableP 0
    ∧ ∃ Q : (gk 3).par.curve.weier.Point, (gk 3).holdsPoint (gk 3) 0 Q :=
  have ⟨_, Q, hQ, _⟩ := gk_holds 3
  ⟨p256_admitted, rfl, rfl, rfl, Q, hQ⟩
/-- The same off the curve in the instance that detects faults. -/
theorem witness_Vsmul_off_curve_detecting :
    (setP detecting 1 gx (gy + 1) 1).par.faultModel = .detectAny ∧ (setP detecting 1 gx (gy + 1) 1).readableS 0
    ∧ (setP detecting 1 gx (gy + 1) 1).readableP 1
    ∧ ∀ Q : (setP detecting 1 gx (gy + 1) 1).par.curve.weier.Point,
      ¬ (setP detecting 1 gx (gy + 1) 1).holdsPoint (setP detecting 1 gx (gy + 1) 1) 1 Q :=
  ⟨rfl, rfl, rfl, off1_holds_none 0⟩
theorem witness_Vsmul_off_curve : (off1 0).par.faultModel = .none
    ∧ ∀ Q : (off1 0).par.curve.weier.Point, ¬ (off1 0).holdsPoint (off1 0) 1 Q :=
  ⟨rfl, off1_holds_none 0⟩

/-- `P0 = G`, `S0 = 3` in the instance that detects faults. -/
def detectingG : State := setS (setP detecting 0 gx gy 1) 0 3

theorem witness_DetectedFault : detectingG.par.curve.Admitted ∧ detectingG.par.faultModel = .detectAny ∧ detectingG.readableS 0
    ∧ detectingG.readableP 0 ∧ ∃ Q : detectingG.par.curve.weier.Point, detectingG.holdsPoint detectingG 0 Q :=
  ⟨p256_admitted, rfl, rfl, rfl, holds_of_onCurve rfl (by decide +kernel)⟩
theorem witness_Cbit_finite : g0.par.curve.Admitted ∧ g0.readableP 0 ∧ g0.zMod 0 ≠ 0 ∧ gy < g0.modulus
    ∧ (gy : ZMod g0.modulus) * g0.zMod 0 ^ 3 = g0.yMod 0 := by
  refine ⟨p256_admitted, rfl, zMod_ne (by decide +kernel), by decide +kernel, ?_⟩
  have hy : g0.p[(0 : PIdx)].y.val.toNat = gy := by decide +kernel
  have hz : g0.p[(0 : PIdx)].z.val.toNat = 1 := by decide +kernel
  simp only [State.yMod, State.zMod, hy, hz, Nat.cast_one, one_pow, mul_one]
theorem witness_Cbit_identity : State.reset.par.curve.Admitted ∧ State.reset.readableP 0 ∧ State.reset.zMod 0 = 0 :=
  ⟨p256_admitted, rfl, zMod_zero (by decide +kernel)⟩

/-- The right side of the curve equation at x, a square or not. -/
theorem rhs_square (x : Nat) (v : Int) (h : Config.p256.rhs (Config.p256.red x) = v) :
    (x : ZMod Config.p256.p.toNat) ^ 3 + (Config.p256.a.toNat : ZMod Config.p256.p.toNat) * x
      + (Config.p256.b.toNat : ZMod Config.p256.p.toNat) = (v : ZMod Config.p256.p.toNat) := by
  rw [← h, Curve.rhs, cast_emod_pI]
  push_cast
  simp [Curve.red, cast_emod_pI, Curve.aI, Curve.bI, pow_three, mul_assoc]

theorem witness_Decomp_square : (ff gx 1).par.curve.Admitted ∧ (ff gx 1).readableF 1 ∧ (ff gx 1).readableF 2
    ∧ IsSquare (((ff gx 1).fNat 1 : ZMod (ff gx 1).modulus) ^ 3
      + ((ff gx 1).par.curve.a.toNat : ZMod (ff gx 1).modulus) * ((ff gx 1).fNat 1 : ZMod (ff gx 1).modulus)
      + ((ff gx 1).par.curve.b.toNat : ZMod (ff gx 1).modulus)) := by
  refine ⟨p256_admitted, rfl, rfl, ?_⟩
  have h : (ff gx 1).fNat 1 = gx := by decide +kernel
  rw [h]
  exact (rhs_square gx _ rfl) ▸ (isSquare_p256 (by decide +kernel) (by decide +kernel)).1 (by decide +kernel)
theorem witness_Decomp_nonsquare : (ff 7 1).par.curve.Admitted ∧ (ff 7 1).readableF 1 ∧ (ff 7 1).readableF 2
    ∧ ¬ IsSquare (((ff 7 1).fNat 1 : ZMod (ff 7 1).modulus) ^ 3
      + ((ff 7 1).par.curve.a.toNat : ZMod (ff 7 1).modulus) * ((ff 7 1).fNat 1 : ZMod (ff 7 1).modulus)
      + ((ff 7 1).par.curve.b.toNat : ZMod (ff 7 1).modulus)) := by
  refine ⟨p256_admitted, rfl, rfl, ?_⟩
  have h : (ff 7 1).fNat 1 = 7 := by decide +kernel
  rw [h]
  exact (rhs_square 7 _ rfl) ▸ (isSquare_p256 (by decide +kernel) (by decide +kernel)).not.1 (by decide +kernel)

/-- `P0 = G`, `F1 = Gx`. -/
def gCompress : State := setF g0 1 gx

theorem witness_CompressionRoundTrip : gCompress.par.curve.Admitted ∧ gCompress.readableP 0 ∧ gCompress.readableF 1
    ∧ (1 : FIdx) ≠ 2 ∧ ∃ (Y : ZMod gCompress.par.curve.p.toNat)
      (h : gCompress.par.curve.weier.Nonsingular (gx : ZMod gCompress.par.curve.p.toNat) Y),
      gCompress.holdsPoint gCompress 0 (.some _ Y h)
        ∧ (gCompress.fNat 1 : ZMod gCompress.par.curve.p.toNat) = (gx : ZMod gCompress.par.curve.p.toNat) := by
  refine ⟨p256_admitted, rfl, rfl, by decide, ?_⟩
  obtain ⟨Q, hQ⟩ := holds_of_onCurve (s := gCompress) (i := 0) rfl (by decide +kernel)
  have hz : gCompress.pRaw 0 = ⟨gx, gy, 1⟩ := by decide +kernel
  have hf : gCompress.fNat 1 = gx := by decide +kernel
  have hF : Fact gCompress.par.curve.p.toNat.Prime := prime_fact
  cases Q with
  | zero =>
    rw [State.holdsPoint, hz] at hQ
    exact absurd hQ (by simp [Curve.Rep])
  | some x y h =>
    have hx : x = (gx : ZMod gCompress.par.curve.p.toNat) := by
      have := hQ
      rw [State.holdsPoint, hz] at this
      simpa [Curve.Rep] using this.2.1.symm
    subst hx
    exact ⟨y, h, hQ, by rw [hf]⟩

/-- The state after CBIT of G into F2, and the state with the opposite bit. -/
theorem witness_CompressionRoundTrip_opposite : ∃ t, exec (.cbit 2 0) gCompress = .next t
    ∧ (setF t 2 (1 - t.fNat 2)).par = t.par ∧ (setF t 2 (1 - t.fNat 2)).f[(1 : FIdx)] = t.f[(1 : FIdx)]
    ∧ (setF t 2 (1 - t.fNat 2)).fOk 2 = true ∧ (setF t 2 (1 - t.fNat 2)).fNat 2 = 1 - t.fNat 2 := by
  obtain ⟨t, h, ht⟩ := next_of_ranTo (o := exec (.cbit 2 0) gCompress)
    (P := fun t => decide ((setF t 2 (1 - t.fNat 2)).f[(1 : FIdx)] = t.f[(1 : FIdx)] ∧ (setF t 2 (1 - t.fNat 2)).fOk 2 = true
      ∧ (setF t 2 (1 - t.fNat 2)).fNat 2 = 1 - t.fNat 2)) (by decide +kernel)
  exact ⟨t, h, rfl, of_decide_eq_true ht⟩

/-! #### The port and the resets -/

theorem witness_CtrlWrite : (0x7FFFFFFF#32).getLsbD 31 = false := by decide
theorem witness_BusyWrites : faddBusy.busy = true ∧ 0x6FC % 4 = 0 ∧ (0x6FC = 0x008 ∨ (0x100 ≤ 0x6FC ∧ 0x6FC < 0x700)) := by decide
theorem witness_BusyWrites_cmd : faddBusy.busy = true ∧ 0x008 % 4 = 0 ∧ (0x008 = 0x008 ∨ (0x100 ≤ 0x008 ∧ 0x008 < 0x700)) := by decide
theorem witness_BusyReads_operand : faddBusy.busy = true ∧ 0x100 % 4 = 0 ∧ 0x100 < 0x800 ∧ 0x100 < 0x700 := by decide
theorem witness_BusyReads_other : faddBusy.busy = true ∧ 0x0FC < 0x100 ∧ 0x700 ≤ 0x7FC ∧ 0x7FC < 0x800 := by decide
theorem witness_ReadsChangeNoState : ∃ t, hostRead 0x120 4 State.reset = .next t := next_of_ran (by decide +kernel)
theorem witness_Window : State.reset.busy = false ∧ 0x6FC % 4 = 0 ∧ 0x100 ≤ 0x6FC ∧ 0x6FC < 0x700 ∧ 0x7FC % 4 = 0
    ∧ 0x7FC < 0x800 ∧ 0x7FC ≠ 0x6FC := by decide
theorem witness_Window_valid_and_invalid : (ff 1 2).busy = false ∧ (ff 1 2).f[(1 : FIdx)].valid.getLsbD 7 = true
    ∧ (ff 1 2).f[(15 : FIdx)].valid.getLsbD 7 = false ∧ (ff 1 2).p[(7 : PIdx)].z.valid.getLsbD 7 = false
    ∧ (ff 1 2).sc[(3 : SIdx)].valid.getLsbD 15 = false := by decide +kernel
theorem witness_LittleEndian : g2g.busy = false ∧ g2g.pOk 1 = true ∧ (ff 1 2).fOk 1 = true ∧ (gk 1).sOk 0 = true := by decide +kernel
theorem witness_Reserved : 0x0FC % 4 = 0 ∧ 0x010 ≤ 0x0FC ∧ 0x0FC < 0x100 ∧ 0x7FC % 4 = 0 ∧ 0x7E0 ≤ 0x7FC ∧ 0x7FC < 0x800 := by decide
theorem witness_ReadOnly : 0x7DC % 4 = 0 ∧ 0x700 ≤ 0x7DC ∧ 0x7DC < 0x800 := by decide
theorem witness_Unaligned : 0x7FF < 0x800 ∧ (4 ≠ 4 ∨ 0x7FF % 4 ≠ 0) ∧ (1 ≠ 4 ∨ 0x100 % 4 ≠ 0) := by decide
theorem witness_SoftReset : (0x80000003#32).getLsbD 31 = true ∧ faddBusy.latch = some ⟨0x10312000#32, false⟩
    ∧ decode 0x10312000#32 = .ok (.fadd 3 1 2) ∧ Dest.f 3 ∈ destsOf (.fadd 3 1 2) := by decide
theorem witness_HardReset : (withEvent faddBusy .hardReset).inbox = .hardReset :: [] := rfl

/-- Two contents of one register of the strict instance with no valid word. -/
def hidden (v : Nat) : State := { strict with f := strict.f.set 1 ⟨BitVec.ofNat 256 v, 0#8, 0#8⟩ }

/-- Two contents of one aborted register of the reference instance. -/
def hiddenAborted (v : Nat) : State := { State.reset with f := State.reset.f.set 1 ⟨BitVec.ofNat 256 v, 0#8, 0xFF#8⟩ }

theorem sameReadableWords_refl {w k : Nat} (u : UninitRule) (r : Reg w k) : Sys2Proof.Claims.sameReadableWords u r r :=
  ⟨rfl, rfl, fun _ _ _ => rfl⟩

theorem witness_UnspecifiedContents_modelFault : Sys2Proof.Claims.AgreeOnReadable (hidden 5) (hidden 6) ∧ hidden 5 ≠ hidden 6 := by
  refine ⟨⟨?_, fun _ => sameReadableWords_refl _ _, fun _ => sameReadableWords_refl _ _, fun _ => sameReadableWords_refl _ _,
    fun _ => sameReadableWords_refl _ _, rfl⟩, by decide +kernel⟩
  intro j
  have h : ∀ j : FIdx, (hidden 5).f[j].valid = 0#8 ∧ (hidden 6).f[j].valid = 0#8
      ∧ (hidden 5).f[j].aborted = (hidden 6).f[j].aborted := by decide +kernel
  refine ⟨(h j).1.trans (h j).2.1.symm, (h j).2.2, fun i _ hi => ?_⟩
  rw [(h j).1] at hi
  exact absurd hi (by simp [show (hidden 5).par.uninit = .modelFault from rfl])

theorem witness_UnspecifiedContents_aborted :
    Sys2Proof.Claims.AgreeOnReadable (hiddenAborted 5) (hiddenAborted 6) ∧ hiddenAborted 5 ≠ hiddenAborted 6 := by
  refine ⟨⟨?_, fun _ => sameReadableWords_refl _ _, fun _ => sameReadableWords_refl _ _, fun _ => sameReadableWords_refl _ _,
    fun _ => sameReadableWords_refl _ _, rfl⟩, by decide +kernel⟩
  intro j
  by_cases hj : j = 1
  · subst hj
    refine ⟨rfl, rfl, fun i hi h => ?_⟩
    have hv : ∀ i < 8, (0#8).getLsbD i = false ∧ (0xFF#8).getLsbD i = true := by decide
    rcases h with h | ⟨_, h⟩
    · exact absurd ((hv i hi).1.symm.trans h) (by decide)
    · exact absurd ((hv i hi).2.symm.trans h) (by decide)
  · have h : (hiddenAborted 5).f[j] = (hiddenAborted 6).f[j] := by revert hj; revert j; decide +kernel
    rw [h]
    exact sameReadableWords_refl _ _

end Sys2Proof.Tests
end

section
/-! SUPPORT. Why a step is refused, and the proof that only admitted configurations step (00_scope.md R13). -/

namespace Sys2Proof.Proofs.Scope

open Sys2Proof.Machine Sys2Proof.Laws

variable {s : State} {r : Refusal}

/-- A host read is refused only for its address or its width (20_memory.md R74, R77). -/
theorem hostRead_refused {addr width : Nat} (h : hostRead addr width s = .refused r) :
    r = .outsideWindow ∨ r = .busError := by
  unfold hostRead at h
  split at h
  · cases h
  · next r' hr =>
    cases h
    exact accessSlot_error hr

/-- A host write is refused only for its address or its width (20_memory.md R74, R77). -/
theorem hostWrite_refused {addr width : Nat} {v : Word} (h : hostWrite addr width v s = .refused r) :
    r = .outsideWindow ∨ r = .busError := by
  unfold hostWrite at h
  split at h
  · cases h
  · next r' hr =>
    cases h
    exact accessSlot_error hr

/-- The engine refuses nothing: it is idle, runs a command, or completes with IllegalCommand (60_exceptions.md R276, R284). -/
theorem engineStep_ne_refused (s : State) (r : Refusal) : engineStep s ≠ .refused r := by
  unfold engineStep
  split
  · unfold runWord
    split
    · exact exec_ne_refused _ _ _
    · intro h; cases h
  · intro h; cases h

/-- Among the events, only a host access is refused. -/
theorem handle_refused {e : Event} (h : handle e s = .refused r) : r = .outsideWindow ∨ r = .busError := by
  cases e with
  | read addr width => exact hostRead_refused h
  | write addr width v => exact hostWrite_refused h
  | engine => exact absurd h (engineStep_ne_refused s r)
  | hardReset => cases h

/-- A step of an instance of the hardware is refused only for a bad host access. -/
theorem step_refused_of_admitted (ha : s.par.Admitted) (h : step s = .refused r) :
    r = .outsideWindow ∨ r = .busError := by
  rw [step_of_admitted ha] at h
  unfold takeEvent at h
  split at h
  · exact absurd h (engineStep_ne_refused s r)
  · exact handle_refused h

/-- Settles O6: `step` checks the configuration before it takes an event, and no event raises the refusal `configuration`. -/
theorem onlyAdmittedConfigurationsStep : Obligations.OnlyAdmittedConfigurationsStep := by
  unfold Obligations.OnlyAdmittedConfigurationsStep
  intro s
  refine ⟨fun hc => step_of_not_admitted (hc ·.curve), fun hb => step_of_not_admitted (hb ·.aligned), fun ha h => ?_⟩
  rcases step_refused_of_admitted ha h with h' | h' <;> cases h'

end Sys2Proof.Proofs.Scope
end

section
/-! SUPPORT. Commands run on two related states: one case split over the commands, for every relation that fixes what a command
reads and is kept by what it writes. -/

namespace Sys2Proof.Proofs.Relate

open Sys2Proof.Machine Sys2Proof.Laws

/-- Two outcomes stop for the same reason, or go on to related states. -/
inductive OutRel (R : State → State → Prop) : Out → Out → Prop
  | next {s t : State} (h : R s t) : OutRel R (.next s) (.next t)
  | fault (r : Fault) : OutRel R (.fault r) (.fault r)
  | refused (r : Refusal) : OutRel R (.refused r) (.refused r)

/-- Related states look the same to a command: the parameters, the latch, the draws and the sources it may read are equal; and the
writes of a command and its two ends keep them related. -/
structure CommandRel (R : State → State → Prop) : Prop where
  par      : ∀ {s t}, R s t → s.par = t.par
  latch    : ∀ {s t}, R s t → s.latch = t.latch
  draws    : ∀ {s t}, R s t → s.draws = t.draws
  fReads   : ∀ {s t}, R s t → ∀ i, s.fReads i = t.fReads i
  pReads   : ∀ {s t}, R s t → ∀ i, s.pReads i = t.pReads i
  sReads   : ∀ {s t}, R s t → ∀ i, s.sReads i = t.sReads i
  fVal     : ∀ {s t}, R s t → ∀ {i}, s.readableF i → s.f[i].val = t.f[i].val
  pRaw     : ∀ {s t}, R s t → ∀ {i}, s.readableP i → s.pRaw i = t.pRaw i
  sVal     : ∀ {s t}, R s t → ∀ {i}, s.readableS i → s.sVal i = t.sVal i
  writeF   : ∀ {s t}, R s t → ∀ d v, R (s.writeF d v) (t.writeF d v)
  writeP   : ∀ {s t}, R s t → ∀ d T, R (s.writeP d T) (t.writeP d T)
  writeEq  : ∀ {s t}, R s t → ∀ b, R (s.writeEq b) (t.writeEq b)
  draw     : ∀ {s t}, R s t → ∀ n, R { s with draws := n } { t with draws := n }
  complete : ∀ {s t}, R s t → R s.complete t.complete
  raise    : ∀ {s t}, R s t → ∀ e, R (s.raise e) (t.raise e)

variable {R : State → State → Prop} {s t : State}

/-! ### The validity check on both sides -/

theorem needs_rel {a a' : Bool} {k k' : Out} (ha : a = a') (hk : a = true → OutRel R k k') :
    OutRel R (needs a k) (needs a' k') := by
  subst ha
  cases a with
  | true => exact hk rfl
  | false => exact .fault _

/-- Two sources are checked one after the other. -/
theorem needs_and (a b : Bool) (k : Out) : needs (a && b) k = needs a (needs b k) := by
  cases a <;> rfl

theorem needs_and_rel {a b a' b' : Bool} {k k' : Out} (h : OutRel R (needs a (needs b k)) (needs a' (needs b' k'))) :
    OutRel R (needs (a && b) k) (needs (a' && b') k') := by
  rw [needs_and, needs_and]
  exact h

/-- A command that reads `F[i]` goes on with the same contents on both sides. -/
theorem CommandRel.needsF (hc : CommandRel R) (h : R s t) {i : FIdx} {k k' : Out}
    (hk : s.f[i].val = t.f[i].val → OutRel R k k') : OutRel R (needs (s.fReads i) k) (needs (t.fReads i) k') :=
  needs_rel (hc.fReads h i) fun hr => hk (hc.fVal h hr)

/-- A command that reads `P[i]` goes on with the same triple on both sides. -/
theorem CommandRel.needsP (hc : CommandRel R) (h : R s t) {i : PIdx} {k k' : Out}
    (hk : s.pRaw i = t.pRaw i → s.pVal i = t.pVal i → OutRel R k k') :
    OutRel R (needs (s.pReads i) k) (needs (t.pReads i) k') :=
  needs_rel (hc.pReads h i) fun hr =>
    have hraw := hc.pRaw h hr
    hk hraw (by rw [State.pVal, State.pVal, hc.par h, hraw])

/-- A command that reads `S[i]` goes on with the same scalar on both sides. -/
theorem CommandRel.needsS (hc : CommandRel R) (h : R s t) {i : SIdx} {k k' : Out}
    (hk : s.scalar i = t.scalar i → OutRel R k k') : OutRel R (needs (s.sReads i) k) (needs (t.sReads i) k') :=
  needs_rel (hc.sReads h i) fun hr => hk (by rw [State.scalar, State.scalar, hc.par h, hc.sVal h hr])

/-- A command that branches on equal values takes the same branch on both sides. -/
theorem ite_rel {p : Prop} {_ : Decidable p} {k k' l l' : Out} (hk : OutRel R k k') (hl : OutRel R l l') :
    OutRel R (if p then k else l) (if p then k' else l') := by
  by_cases hp : p
  · rwa [if_pos hp, if_pos hp]
  · rwa [if_neg hp, if_neg hp]

/-! ### The two ends of a command on both sides -/

theorem CommandRel.finish (hc : CommandRel R) (h : R s t) : OutRel R (finish s) (finish t) :=
  .next (hc.complete h)

theorem CommandRel.fail (hc : CommandRel R) (h : R s t) (e : CmdError) : OutRel R (fail s e) (fail t e) :=
  .next (hc.raise h e)

theorem CommandRel.verifySample (hc : CommandRel R) (h : R s t) : s.verifySample = t.verifySample := by
  rw [State.verifySample, State.verifySample, hc.latch h]

theorem CommandRel.faultDetected (hc : CommandRel R) (h : R s t) (A B : Triple) :
    s.faultDetected A B = t.faultDetected A B := by
  rw [State.faultDetected, State.faultDetected, hc.par h, hc.draws h]

theorem afterDetect_of_none (hm : s.par.faultModel = .none) : s.afterDetect = s := by
  rw [State.afterDetect, hm]

theorem afterDetect_of_detectAny (hm : s.par.faultModel = .detectAny) : s.afterDetect = { s with draws := s.draws + 1 } := by
  rw [State.afterDetect, hm]

theorem CommandRel.afterDetect (hc : CommandRel R) (h : R s t) : R s.afterDetect t.afterDetect := by
  cases hm : s.par.faultModel with
  | none =>
    rw [afterDetect_of_none hm, afterDetect_of_none (hc.par h ▸ hm)]
    exact h
  | detectAny =>
    rw [afterDetect_of_detectAny hm, afterDetect_of_detectAny (hc.par h ▸ hm), hc.draws h]
    exact hc.draw h _

/-! ### The shapes that commands share -/

theorem CommandRel.fieldBinary (hc : CommandRel R) (h : R s t) (op : Curve → Int → Int → Int) (d a b : FIdx) :
    OutRel R (fieldBinary op d a b s) (fieldBinary op d a b t) := by
  refine needs_and_rel (hc.needsF h fun ha => hc.needsF h fun hb => ?_)
  rw [State.fVal, State.fVal, ha, hb, hc.par h]
  exact hc.finish (hc.writeF h _ _)

theorem CommandRel.scalarCommon (hc : CommandRel R) (h : R s t) {mul mul' : Nat → Triple → Out}
    (hmul : ∀ n T, OutRel R (mul n T) (mul' n T)) (d : PIdx) (k : SIdx) (a : PIdx) :
    OutRel R (scalarCommon mul d k a s) (scalarCommon mul' d k a t) := by
  refine needs_and_rel (hc.needsS h fun hk => hc.needsP h fun _ ha => ?_)
  rw [hk, ha, hc.par h]
  exact ite_rel (hc.fail h _) (ite_rel (hc.finish (hc.writeP h _ _)) (hmul _ _))

theorem CommandRel.plainMultiply (hc : CommandRel R) (h : R s t) (d : PIdx) (k : SIdx) (a : PIdx) :
    OutRel R (plainMultiply d k a s) (plainMultiply d k a t) := by
  refine hc.scalarCommon h (fun n T => ?_) d k a
  rw [hc.par h]
  exact hc.finish (hc.writeP h _ _)

theorem CommandRel.verifiedMultiply (hc : CommandRel R) (h : R s t) (d : PIdx) (k : SIdx) (a : PIdx) :
    OutRel R (verifiedMultiply d k a s) (verifiedMultiply d k a t) := by
  refine hc.scalarCommon h (fun n T => ?_) d k a
  rw [hc.faultDetected h, hc.par h]
  exact ite_rel (hc.fail (hc.afterDetect h) _) (hc.finish (hc.writeP (hc.afterDetect h) _ _))

/-- A command run on two related states stops for the same reason, or goes on to related states. -/
theorem CommandRel.exec (hc : CommandRel R) (h : R s t) (i : Instr) : OutRel R (exec i s) (exec i t) := by
  cases i with
  | nop => exact hc.finish h
  | fadd d a b => exact hc.fieldBinary h _ d a b
  | fsub d a b => exact hc.fieldBinary h _ d a b
  | fmul d a b => exact hc.fieldBinary h _ d a b
  | fmont d a b => exact hc.fieldBinary h _ d a b
  | finv d a =>
    refine hc.needsF h fun ha => ?_
    rw [State.fVal, State.fVal, ha, hc.par h]
    exact ite_rel (hc.fail h _) (hc.finish (hc.writeF h _ _))
  | fsqrt d a =>
    refine hc.needsF h fun ha => ?_
    rw [State.fVal, State.fVal, ha, hc.par h]
    cases t.par.curve.sqrtP (t.par.curve.red t.f[a].val.toNat) with
    | some r => exact hc.finish (hc.writeF h _ _)
    | none => exact hc.fail h _
  | pldg d =>
    show OutRel R (Machine.finish (s.writeP d s.par.curve.gen)) (Machine.finish (t.writeP d t.par.curve.gen))
    rw [hc.par h]
    exact hc.finish (hc.writeP h _ _)
  | pldo d => exact hc.finish (hc.writeP h _ _)
  | pset d x y z =>
    refine needs_and_rel (needs_and_rel (hc.needsF h fun hx => hc.needsF h fun hy => hc.needsF h fun hz => ?_))
    rw [State.fVal, State.fVal, State.fVal, hx, hy, hz, hc.par h]
    exact hc.finish (hc.writeP h _ _)
  | pget x y z a =>
    refine hc.needsP h fun ha _ => ?_
    rw [ha]
    exact hc.finish (hc.writeF (hc.writeF (hc.writeF h _ _) _ _) _ _)
  | pneg d a =>
    refine hc.needsP h fun _ ha => ?_
    rw [ha, hc.par h]
    exact hc.finish (hc.writeP h _ _)
  | padd d a b =>
    refine needs_and_rel (hc.needsP h fun _ ha => hc.needsP h fun _ hb => ?_)
    rw [ha, hb, hc.par h]
    exact hc.finish (hc.writeP h _ _)
  | pdbl d a =>
    refine hc.needsP h fun _ ha => ?_
    rw [ha, hc.par h]
    exact hc.finish (hc.writeP h _ _)
  | peq a b =>
    refine needs_and_rel (hc.needsP h fun _ ha => hc.needsP h fun _ hb => ?_)
    rw [ha, hb, hc.par h]
    exact hc.finish (hc.writeEq h _)
  | ptst a =>
    refine hc.needsP h fun ha _ => ?_
    rw [ha, hc.par h]
    exact hc.finish (hc.writeEq h _)
  | pval a =>
    refine hc.needsP h fun _ ha => ?_
    rw [ha, hc.par h]
    exact ite_rel (hc.finish h) (hc.fail h _)
  | toaff d a =>
    refine hc.needsP h fun _ ha => ?_
    rw [ha, hc.par h]
    exact ite_rel (hc.fail h _) (hc.finish (hc.writeP h _ _))
  | smul d k a =>
    show OutRel R (execSmul d k a s) (execSmul d k a t)
    rw [execSmul, execSmul, hc.verifySample h]
    exact ite_rel (hc.verifiedMultiply h d k a) (hc.plainMultiply h d k a)
  | vsmul d k a => exact hc.verifiedMultiply h d k a
  | cbit d a =>
    refine hc.needsP h fun _ ha => ?_
    rw [ha, hc.par h]
    exact ite_rel (hc.fail h _) (hc.finish (hc.writeF h _ _))
  | decomp d x b =>
    refine needs_and_rel (hc.needsF h fun hx => hc.needsF h fun hb => ?_)
    rw [State.fVal, State.fVal, State.fBit0, State.fBit0, hx, hb, hc.par h]
    cases t.par.curve.sqrtP (t.par.curve.rhs (t.par.curve.red t.f[x].val.toNat)) with
    | some r => exact hc.finish (hc.writeP h _ _)
    | none => exact hc.fail h _

end Sys2Proof.Proofs.Relate
end

section
/-! SUPPORT. The contents of words no command may read make no difference (10_state.md R62; 60_exceptions.md R278;
70_reset_and_hazards.md R314): every operation of the block keeps two states that differ at most in them so. -/

namespace Sys2Proof.Claims

open Sys2Proof.Machine Sys2Proof.Laws Sys2Proof.Proofs.Relate

/-! ### One register -/

section Register

variable {u : UninitRule} {w k : Nat} {r q : Reg w k}

theorem sameReadableWords.refl (r : Reg w k) : sameReadableWords u r r := ⟨rfl, rfl, fun _ _ _ => rfl⟩

theorem sameReadableWords.reads_eq (h : sameReadableWords u r q) : r.reads u = q.reads u := by
  obtain ⟨hv, ha, -⟩ := h
  cases u <;> simp only [Reg.reads, Reg.readMask, hv, ha]

/-- What a command may read in full is the same on both sides. -/
theorem sameReadableWords.val_eq {r q : Reg (32 * k) k} (h : sameReadableWords u r q) (hr : r.reads u = true) : r.val = q.val := by
  obtain ⟨-, -, hw⟩ := h
  refine eq_of_getWord_eq fun i hi => hw i hi ?_
  cases u with
  | modelFault => exact .inl (wordValid_of_allValid hr hi)
  | resetValues => exact ((reads_resetValues r).1 hr i hi).imp_right fun h => ⟨rfl, h⟩

/-- The host reads only valid words, so it finds the same on both sides. -/
theorem sameReadableWords.hostWord_eq (h : sameReadableWords u r q) {i : Nat} (hi : i < k) : r.hostWord i = q.hostWord i := by
  obtain ⟨hv, -, hw⟩ := h
  have hv' : q.wordValid i = r.wordValid i := by rw [Reg.wordValid, Reg.wordValid, hv]
  rw [Reg.hostWord, Reg.hostWord, hv']
  by_cases hr : r.wordValid i = true
  · rw [if_pos hr, if_pos hr, hw i hi (.inl hr)]
  · rw [if_neg hr, if_neg hr]

/-- A word the host writes is the same on both sides, and the other words stay as they are. -/
theorem sameReadableWords.putWord (h : sameReadableWords u r q) (hk : 32 * k ≤ w) {i : Nat} (hi : i < k) (x : Word) :
    sameReadableWords u (r.putWord i x) (q.putWord i x) := by
  obtain ⟨hv, ha, hw⟩ := h
  refine ⟨congrArg (· ||| _) hv, congrArg (· &&& _) ha, fun j hj hr => ?_⟩
  rw [putWord_val, putWord_val]
  by_cases hji : j = i
  · subst hji
    rw [getWord_setWord_same _ _ _ (by omega), getWord_setWord_same _ _ _ (by omega)]
  · rw [getWord_setWord_other _ _ _ _ hji, getWord_setWord_other _ _ _ _ hji]
    refine hw j hj (hr.imp (fun hvalid => ?_) (fun ⟨hu, hab⟩ => ⟨hu, ?_⟩))
    · have := putWord_wordValid r i j x hj
      simpa [Reg.wordValid, hji] using this.symm.trans hvalid
    · simpa [putWord_aborted r i j x hj, hji] using hab

end Register

/-! ### The registers of the state -/

/-- Two point registers that differ at most in words no command may read. -/
def samePoint (u : UninitRule) (r q : PReg) : Prop :=
  sameReadableWords u r.x q.x ∧ sameReadableWords u r.y q.y ∧ sameReadableWords u r.z q.z

theorem samePoint.refl (u : UninitRule) (r : PReg) : samePoint u r r :=
  ⟨sameReadableWords.refl _, sameReadableWords.refl _, sameReadableWords.refl _⟩

theorem samePoint.coord {u : UninitRule} {r q : PReg} (h : samePoint u r q) (c : Coord) :
    sameReadableWords u (r.coord c) (q.coord c) := by
  obtain ⟨hx, hy, hz⟩ := h
  cases c with
  | X => exact hx
  | Y => exact hy
  | Z => exact hz

theorem samePoint.putWord {u : UninitRule} {r q : PReg} (h : samePoint u r q) (c : Coord) (i : Fin 8) (x : Word) :
    samePoint u (r.putWord c i x) (q.putWord c i x) := by
  obtain ⟨hx, hy, hz⟩ := h
  cases c with
  | X => exact ⟨hx.putWord (by decide) i.isLt x, hy, hz⟩
  | Y => exact ⟨hx, hy.putWord (by decide) i.isLt x, hz⟩
  | Z => exact ⟨hx, hy, hz.putWord (by decide) i.isLt x⟩

theorem samePoint.reads_eq {u : UninitRule} {r q : PReg} (h : samePoint u r q) : r.reads u = q.reads u := by
  obtain ⟨hx, hy, hz⟩ := h
  rw [PReg.reads, PReg.reads, hx.reads_eq, hy.reads_eq, hz.reads_eq]

/-- Related registers in every place stay so when related registers are put in one place. -/
theorem forall_get_set {α : Type} {n : Nat} {S : α → α → Prop} {a b : Vector α n} {x y : α} (h : ∀ j : Fin n, S a[j] b[j])
    (hxy : S x y) (i j : Fin n) : S (a.set i x)[j] (b.set i y)[j] := by
  simp only [Fin.getElem_fin, Vector.getElem_set]
  split
  · exact hxy
  · exact h j

variable {s t : State}

section Agree

variable (h : AgreeOnReadable s t)
include h

theorem AgreeOnReadable.par_eq : s.par = t.par := (congrArg State.par h.other :)
theorem AgreeOnReadable.cmd_eq : s.cmd = t.cmd := (congrArg State.cmd h.other :)
theorem AgreeOnReadable.latch_eq : s.latch = t.latch := (congrArg State.latch h.other :)
theorem AgreeOnReadable.inbox_eq : s.inbox = t.inbox := (congrArg State.inbox h.other :)
theorem AgreeOnReadable.draws_eq : s.draws = t.draws := (congrArg State.draws h.other :)
theorem AgreeOnReadable.busy_eq : s.busy = t.busy := (congrArg State.busy h.other :)

theorem AgreeOnReadable.point (j : PIdx) : samePoint s.par.uninit s.p[j] t.p[j] := ⟨h.px j, h.py j, h.pz j⟩

/-- An operation that neither reads nor writes an operand register keeps two states related. -/
theorem AgreeOnReadable.map (g : State → State) (hpar : (g s).par = s.par)
    (hg : ∀ f p c, g { s with f := f, p := p, sc := c } = { g s with f := f, p := p, sc := c }) :
    AgreeOnReadable (g s) (g t) := by
  have hs : { g s with f := s.f, p := s.p, sc := s.sc } = g s := (hg s.f s.p s.sc).symm
  have ht : { g s with f := t.f, p := t.p, sc := t.sc } = g t := by rw [← hg, h.other]
  rw [← ht, ← hs]
  constructor
  case other => rfl
  all_goals simp only [hpar]
  · exact h.f
  · exact h.px
  · exact h.py
  · exact h.pz
  · exact h.sc

theorem AgreeOnReadable.setF {x y : FReg} (hxy : sameReadableWords s.par.uninit x y) (i : FIdx) :
    AgreeOnReadable { s with f := s.f.set i x } { t with f := t.f.set i y } where
  f := forall_get_set h.f hxy i
  px := h.px
  py := h.py
  pz := h.pz
  sc := h.sc
  other := congrArg (fun v : State => { v with f := t.f.set i y }) h.other

theorem AgreeOnReadable.setP {x y : PReg} (hxy : samePoint s.par.uninit x y) (i : PIdx) :
    AgreeOnReadable { s with p := s.p.set i x } { t with p := t.p.set i y } where
  f := h.f
  px j := (forall_get_set h.point hxy i j).1
  py j := (forall_get_set h.point hxy i j).2.1
  pz j := (forall_get_set h.point hxy i j).2.2
  sc := h.sc
  other := congrArg (fun v : State => { v with p := t.p.set i y }) h.other

theorem AgreeOnReadable.setS {x y : SReg} (hxy : sameReadableWords s.par.uninit x y) (i : SIdx) :
    AgreeOnReadable { s with sc := s.sc.set i x } { t with sc := t.sc.set i y } where
  f := h.f
  px := h.px
  py := h.py
  pz := h.pz
  sc := forall_get_set h.sc hxy i
  other := congrArg (fun v : State => { v with sc := t.sc.set i y }) h.other

theorem AgreeOnReadable.setDraws (n : Nat) : AgreeOnReadable { s with draws := n } { t with draws := n } :=
  h.map (fun v : State => { v with draws := n }) rfl fun _ _ _ => rfl

end Agree

/-! ### The commands -/

/-- To a command two states that differ at most in words it may not read look the same. -/
theorem commandRel_agreeOnReadable : CommandRel AgreeOnReadable where
  par h := h.par_eq
  latch h := h.latch_eq
  draws h := h.draws_eq
  fReads h i := by rw [State.fReads, State.fReads, ← h.par_eq, (h.f i).reads_eq]
  pReads h i := by rw [State.pReads, State.pReads, ← h.par_eq, (h.point i).reads_eq]
  sReads h i := by rw [State.sReads, State.sReads, ← h.par_eq, (h.sc i).reads_eq]
  fVal h i hr := (h.f i).val_eq (k := 8) hr
  pRaw h i hr := by
    simp only [State.readableP, State.pReads, PReg.reads, Bool.and_eq_true] at hr
    obtain ⟨⟨hx, hy⟩, hz⟩ := hr
    rw [State.pRaw, State.pRaw, (h.px i).val_eq (k := 8) hx, (h.py i).val_eq (k := 8) hy, (h.pz i).val_eq (k := 8) hz]
  sVal h i hr := by rw [State.sVal, State.sVal, (h.sc i).val_eq (k := 16) hr]
  writeF h d v := h.setF (sameReadableWords.refl _) d
  writeP h d T := h.setP (samePoint.refl _ _) d
  writeEq h b := h.map (·.writeEq b) rfl fun _ _ _ => rfl
  draw h n := h.setDraws n
  complete h := h.map State.complete rfl fun _ _ _ => rfl
  raise h e := h.map (·.raise e) rfl fun _ _ _ => rfl

/-! ### The port and the resets -/

theorem AgreeOnReadable.look_eq (h : AgreeOnReadable s t) (u : Slot) : s.look u = t.look u := by
  cases u with
  | f i w => rw [State.look, State.look, h.busy_eq, (h.f i).hostWord_eq w.isLt]
  | p i c w => rw [State.look, State.look, h.busy_eq, ((h.point i).coord c).hostWord_eq w.isLt]
  | s i w => rw [State.look, State.look, h.busy_eq, (h.sc i).hostWord_eq w.isLt]
  | id => rfl
  | reserved => rfl
  | ctrl => exact congrArg some (congrArg State.ctrlWord h.other :)
  | cmd => exact congrArg some h.cmd_eq
  | status => exact congrArg some (congrArg State.statusWord h.other :)
  | cp r w => rw [State.look, State.look, h.par_eq]

theorem AgreeOnReadable.readSlot (h : AgreeOnReadable s t) (u : Slot) : AgreeOnReadable (s.readSlot u) (t.readSlot u) := by
  rw [State.readSlot, State.readSlot, h.look_eq u]
  cases t.look u with
  | some v => exact h.map (·.reply v) rfl fun _ _ _ => rfl
  | none =>
    exact h.map (fun v : State => { v.reply (Config.freeWord v.draws) with draws := v.draws + 1 }) rfl fun _ _ _ => rfl

/-- An aborted destination holds the same free value on both sides. -/
theorem AgreeOnReadable.abortDest (h : AgreeOnReadable s t) (d : Dest) : AgreeOnReadable (s.abortDest d) (t.abortDest d) := by
  cases d with
  | f i =>
    rw [State.abortDest, State.abortDest, h.draws_eq]
    exact (h.setF (sameReadableWords.refl _) i).setDraws _
  | p i =>
    rw [State.abortDest, State.abortDest, h.draws_eq]
    exact (h.setP (samePoint.refl _ _) i).setDraws _

theorem AgreeOnReadable.abortDests (h : AgreeOnReadable s t) (ds : List Dest) :
    AgreeOnReadable (ds.foldl State.abortDest s) (ds.foldl State.abortDest t) := by
  induction ds generalizing s t with
  | nil => exact h
  | cons d ds ih => exact ih (h.abortDest d)

theorem AgreeOnReadable.abort (h : AgreeOnReadable s t) : AgreeOnReadable s.abort t.abort := by
  have hd : inFlightDests s = inFlightDests t := by rw [inFlightDests, inFlightDests, h.latch_eq]
  rw [abort_eq, abort_eq, hd]
  exact h.abortDests _

theorem AgreeOnReadable.softReset (h : AgreeOnReadable s t) : AgreeOnReadable s.softReset t.softReset := by
  have ha := h.abort
  rw [State.softReset, State.softReset, h.par_eq]
  exact ha.map (fun v : State => { v with
    ctrl := ⟨false, t.par.verifyReset⟩, status := ⟨false, false, false, 0#4, 0#4⟩, cmd := 0#32, latch := none })
    rfl fun _ _ _ => rfl

/-- A hard reset leaves the same registers on both sides. -/
theorem AgreeOnReadable.hardReset (h : AgreeOnReadable s t) : AgreeOnReadable s.hardReset t.hardReset where
  f _ := sameReadableWords.refl _
  px _ := sameReadableWords.refl _
  py _ := sameReadableWords.refl _
  pz _ := sameReadableWords.refl _
  sc _ := sameReadableWords.refl _
  other := congrArg State.hardReset h.other

theorem AgreeOnReadable.writeCtrl (h : AgreeOnReadable s t) (v : Word) : AgreeOnReadable (s.writeCtrl v) (t.writeCtrl v) := by
  unfold State.writeCtrl
  split
  · exact h.softReset
  · exact h.map (fun u : State => { u with ctrl := ⟨v.getLsbD 0, v.getLsbD 1⟩ }) rfl fun _ _ _ => rfl

theorem AgreeOnReadable.dropWrite (h : AgreeOnReadable s t) : AgreeOnReadable s.dropWrite t.dropWrite :=
  h.map State.dropWrite rfl fun _ _ _ => rfl

theorem AgreeOnReadable.accept (h : AgreeOnReadable s t) (w : Word) : AgreeOnReadable (s.accept w) (t.accept w) := by
  rw [State.accept, State.accept, h.busy_eq]
  split
  · exact h.dropWrite
  · exact h.map (·.latchCommand w) rfl fun _ _ _ => rfl

theorem AgreeOnReadable.writeSlot (h : AgreeOnReadable s t) (u : Slot) (v : Word) :
    AgreeOnReadable (s.writeSlot u v) (t.writeSlot u v) := by
  cases u with
  | id => exact h
  | reserved => exact h
  | cp r w => exact h
  | ctrl => exact h.writeCtrl v
  | cmd => exact h.accept v
  | status => exact h.map (·.acknowledge v) rfl fun _ _ _ => rfl
  | f i w =>
    rw [State.writeSlot, State.writeSlot, h.busy_eq]
    split
    · exact h.dropWrite
    · exact h.setF ((h.f i).putWord (by decide) w.isLt v) i
  | p i c w =>
    rw [State.writeSlot, State.writeSlot, h.busy_eq]
    split
    · exact h.dropWrite
    · exact h.setP ((h.point i).putWord c w v) i
  | s i w =>
    rw [State.writeSlot, State.writeSlot, h.busy_eq]
    split
    · exact h.dropWrite
    · exact h.setS ((h.sc i).putWord (by decide) w.isLt v) i

/-! ### The step -/

theorem AgreeOnReadable.accessSlot_eq (h : AgreeOnReadable s t) (addr width : Nat) :
    s.accessSlot addr width = t.accessSlot addr width := congrArg (·.accessSlot addr width) h.other

theorem AgreeOnReadable.engineStep (h : AgreeOnReadable s t) : OutRel AgreeOnReadable (engineStep s) (engineStep t) := by
  rw [Machine.engineStep, Machine.engineStep, h.latch_eq]
  cases t.latch with
  | none => exact .next h
  | some l =>
    show OutRel AgreeOnReadable (runWord l.word s) (runWord l.word t)
    rw [runWord, runWord]
    cases decode l.word with
    | ok i => exact commandRel_agreeOnReadable.exec h i
    | error c => exact commandRel_agreeOnReadable.fail h _

theorem AgreeOnReadable.handle (h : AgreeOnReadable s t) (e : Event) : OutRel AgreeOnReadable (handle e s) (handle e t) := by
  cases e with
  | read addr width =>
    show OutRel AgreeOnReadable (hostRead addr width s) (hostRead addr width t)
    rw [hostRead, hostRead, h.accessSlot_eq]
    cases t.accessSlot addr width with
    | ok u => exact .next (h.readSlot u)
    | error r => exact .refused r
  | write addr width v =>
    show OutRel AgreeOnReadable (hostWrite addr width v s) (hostWrite addr width v t)
    rw [hostWrite, hostWrite, h.accessSlot_eq]
    cases t.accessSlot addr width with
    | ok u => exact .next (h.writeSlot u v)
    | error r => exact .refused r
  | engine => exact h.engineStep
  | hardReset => exact .next h.hardReset

theorem AgreeOnReadable.takeEvent (h : AgreeOnReadable s t) : OutRel AgreeOnReadable (takeEvent s) (takeEvent t) := by
  rw [Machine.takeEvent, Machine.takeEvent, h.inbox_eq]
  cases t.inbox with
  | nil => exact h.engineStep
  | cons e rest =>
    refine AgreeOnReadable.handle ?_ e
    exact h.map (fun v : State => { v with inbox := rest }) rfl fun _ _ _ => rfl

theorem AgreeOnReadable.step (h : AgreeOnReadable s t) : OutRel AgreeOnReadable (step s) (step t) := by
  rw [Machine.step, Machine.step, h.par_eq]
  exact ite_rel h.takeEvent (.refused _)

end Sys2Proof.Claims

namespace Sys2Proof.Proofs.Unspecified

open Sys2Proof.Machine Sys2Proof.Claims

/-- Settles O60: what a step reads of the registers is what a command or the host may read of them, and every write of a step
leaves the same contents on both sides. -/
theorem unspecifiedContentsDoNotMatter : Obligations.UnspecifiedContentsDoNotMatter := by
  unfold Obligations.UnspecifiedContentsDoNotMatter
  intro s t h
  have hst := h.step
  generalize step s = o, step t = o' at hst
  cases hst with
  | next h' => exact h'
  | fault r => exact rfl
  | refused r => exact rfl

end Sys2Proof.Proofs.Unspecified
end

section
/-! SUPPORT. What a command reads and what it leaves as it is (10_state.md, state inventory and R62; 60_exceptions.md R277). -/

namespace Sys2Proof.Proofs.Commands

open Sys2Proof.Machine Sys2Proof.Laws Sys2Proof.Claims Sys2Proof.Proofs.Relate

variable {s t : State}

/-! ### A command faults exactly where it may not read a source -/

/-- The outcome is no fault. -/
def NoFault (o : Out) : Prop := ∀ r, o ≠ .fault r

theorem noFault_finish (s : State) : NoFault (finish s) := fun _ h => by cases h

theorem noFault_fail (s : State) (e : CmdError) : NoFault (fail s e) := fun _ h => by cases h

theorem noFault_ite {p : Prop} {_ : Decidable p} {k l : Out} (hk : NoFault k) (hl : NoFault l) :
    NoFault (if p then k else l) := by
  by_cases hp : p
  · rwa [if_pos hp]
  · rwa [if_neg hp]

/-- The root of FSQRT and DECOMP, or their error NoSquareRoot. -/
theorem noFault_sqrt (r : Option Int) (write : Int → State) :
    NoFault (match r with | some r => finish (write r) | none => fail s .noSquareRoot) := by
  cases r with
  | some r => exact noFault_finish _
  | none => exact noFault_fail _ _

/-- Past the validity check no command faults, so the check alone decides. -/
theorem needs_fault_iff {ok : Bool} {k : Out} {P : Prop} (hk : NoFault k) (hP : ok = true ↔ P) :
    needs ok k = .fault .uninitOperand ↔ ¬ P := by
  rw [needs_fault hk, ← hP, Bool.not_eq_true]

theorem fieldBinary_fault_iff (op : Curve → Int → Int → Int) (d a b : FIdx) :
    fieldBinary op d a b s = .fault .uninitOperand ↔ ¬ (s.readableF a ∧ s.readableF b) :=
  needs_fault_iff (noFault_finish _) Bool.and_eq_true_iff

theorem scalarCommon_fault_iff {mul : Nat → Triple → Out} (hmul : ∀ n T, NoFault (mul n T)) (d : PIdx) (k : SIdx) (a : PIdx) :
    scalarCommon mul d k a s = .fault .uninitOperand ↔ ¬ (s.readableS k ∧ s.readableP a) :=
  needs_fault_iff (noFault_ite (noFault_fail _ _) (noFault_ite (noFault_finish _) (hmul _ _))) Bool.and_eq_true_iff

theorem plainMultiply_fault_iff (d : PIdx) (k : SIdx) (a : PIdx) :
    plainMultiply d k a s = .fault .uninitOperand ↔ ¬ (s.readableS k ∧ s.readableP a) :=
  scalarCommon_fault_iff (fun _ _ => noFault_finish _) d k a

theorem verifiedMultiply_fault_iff (d : PIdx) (k : SIdx) (a : PIdx) :
    verifiedMultiply d k a s = .fault .uninitOperand ↔ ¬ (s.readableS k ∧ s.readableP a) :=
  scalarCommon_fault_iff (fun _ _ => noFault_ite (noFault_fail _ _) (noFault_finish _)) d k a

/-- A command faults exactly where one of its sources may not be read (60_exceptions.md R277, R278). -/
theorem exec_fault_iff (i : Instr) (s : State) : exec i s = .fault .uninitOperand ↔ ¬ sourcesReadable s i := by
  cases i with
  | nop => exact iff_of_false (noFault_finish _ _) (not_not_intro trivial)
  | fadd d a b => exact fieldBinary_fault_iff _ d a b
  | fsub d a b => exact fieldBinary_fault_iff _ d a b
  | fmul d a b => exact fieldBinary_fault_iff _ d a b
  | fmont d a b => exact fieldBinary_fault_iff _ d a b
  | finv d a => exact needs_fault_iff (noFault_ite (noFault_fail _ _) (noFault_finish _)) Iff.rfl
  | fsqrt d a => exact needs_fault_iff (noFault_sqrt _ _) Iff.rfl
  | pldg d => exact iff_of_false (noFault_finish _ _) (not_not_intro trivial)
  | pldo d => exact iff_of_false (noFault_finish _ _) (not_not_intro trivial)
  | pset d x y z =>
    exact needs_fault_iff (noFault_finish _)
      (Bool.and_eq_true_iff.trans ((and_congr_left' Bool.and_eq_true_iff).trans and_assoc))
  | pget x y z a => exact needs_fault_iff (noFault_finish _) Iff.rfl
  | pneg d a => exact needs_fault_iff (noFault_finish _) Iff.rfl
  | padd d a b => exact needs_fault_iff (noFault_finish _) Bool.and_eq_true_iff
  | pdbl d a => exact needs_fault_iff (noFault_finish _) Iff.rfl
  | peq a b => exact needs_fault_iff (noFault_finish _) Bool.and_eq_true_iff
  | ptst a => exact needs_fault_iff (noFault_finish _) Iff.rfl
  | pval a => exact needs_fault_iff (noFault_ite (noFault_finish _) (noFault_fail _ _)) Iff.rfl
  | toaff d a => exact needs_fault_iff (noFault_ite (noFault_fail _ _) (noFault_finish _)) Iff.rfl
  | smul d k a =>
    show (if s.verifySample then verifiedMultiply d k a s else plainMultiply d k a s) = _ ↔ _
    split
    · exact verifiedMultiply_fault_iff d k a
    · exact plainMultiply_fault_iff d k a
  | vsmul d k a => exact verifiedMultiply_fault_iff d k a
  | cbit d a => exact needs_fault_iff (noFault_ite (noFault_fail _ _) (noFault_finish _)) Iff.rfl
  | decomp d x b => exact needs_fault_iff (noFault_sqrt _ _) Bool.and_eq_true_iff

/-! ### Which registers may be read under each rule (log 4) -/

section ModelFault

variable (hu : s.par.uninit = .modelFault)
include hu

theorem readableF_modelFault (j : FIdx) : s.readableF j ↔ s.fOk j = true := by
  rw [State.readableF, State.fReads, hu, reads_modelFault, State.fOk]

theorem readableP_modelFault (j : PIdx) : s.readableP j ↔ s.pOk j = true := by
  rw [State.readableP, State.pReads, hu, PReg.reads, reads_modelFault, reads_modelFault, reads_modelFault, State.pOk, PReg.allValid]

theorem readableS_modelFault (j : SIdx) : s.readableS j ↔ s.sOk j = true := by
  rw [State.readableS, State.sReads, hu, reads_modelFault, State.sOk]

end ModelFault

section ResetValues

variable (hu : s.par.uninit = .resetValues)
include hu

theorem readableF_resetValues (j : FIdx) : s.readableF j ↔ ∀ w < 8, wordReadable s.f[j] w := by
  rw [State.readableF, State.fReads, hu]
  exact reads_resetValues _

theorem readableP_resetValues (j : PIdx) :
    s.readableP j ↔ ∀ w < 8, wordReadable s.p[j].x w ∧ wordReadable s.p[j].y w ∧ wordReadable s.p[j].z w := by
  rw [State.readableP, State.pReads, hu, PReg.reads, Bool.and_eq_true_iff, Bool.and_eq_true_iff, reads_resetValues,
    reads_resetValues, reads_resetValues, and_assoc]
  simp only [forall_and, wordReadable]

theorem readableS_resetValues (j : SIdx) : s.readableS j ↔ ∀ w < 16, wordReadable s.sc[j] w := by
  rw [State.readableS, State.sReads, hu]
  exact reads_resetValues _

end ResetValues

/-- Settles O17: the validity check stands in front of every command's own checks, and past it no command faults. -/
theorem commandFaultsWhereASourceMayNotBeRead : Obligations.CommandFaultsWhereASourceMayNotBeRead := by
  unfold Obligations.CommandFaultsWhereASourceMayNotBeRead
  intro s
  exact ⟨fun i => exec_fault_iff i s,
    fun hu => ⟨readableF_modelFault hu, readableP_modelFault hu, readableS_modelFault hu⟩,
    fun hu => ⟨readableF_resetValues hu, readableP_resetValues hu, readableS_resetValues hu⟩⟩

/-! ### The frame of all commands -/

/-- What every command leaves as it was, however it ends. -/
structure Framed (i : Instr) (s t : State) : Prop where
  par     : t.par = s.par
  sc      : t.sc = s.sc
  ctrl    : t.ctrl = s.ctrl
  cmd     : t.cmd = s.cmd
  inbox   : t.inbox = s.inbox
  replies : t.replies = s.replies
  accErr  : t.status.accErr = s.status.accErr
  eqFlag  : ¬ writesEq i → t.status.eqFlag = s.status.eqFlag
  fOther  : ∀ j, .f j ∉ destsOf i → t.f[j] = s.f[j]
  pOther  : ∀ j, .p j ∉ destsOf i → t.p[j] = s.p[j]

theorem framed_raise (i : Instr) (s : State) (n : Nat) (e : CmdError) : Framed i s (State.raise { s with draws := n } e) :=
  ⟨rfl, rfl, rfl, rfl, rfl, rfl, rfl, fun _ => rfl, fun _ _ => rfl, fun _ _ => rfl⟩

theorem framed_complete {i : Instr} {u : State} (h : Wrote i s u) : Framed i s u.complete :=
  ⟨h.par, h.sc, h.ctrl, h.cmd, h.inbox, h.replies, by rw [complete_status, h.status], h.eqFlag, h.fOther, h.pOther⟩

theorem exec_framed {i : Instr} (h : exec i s = .next t) : Framed i s t := by
  rcases exec_next_cases h with ⟨e, -, n, rfl⟩ | ⟨u, rfl, hu⟩
  · exact framed_raise i s n e
  · exact framed_complete hu

/-- Settles O20: a register that differs afterwards is a destination, and the destinations are those of the command's row. -/
theorem commandsWriteOnlyTheirDestinations : Obligations.CommandsWriteOnlyTheirDestinations := by
  unfold Obligations.CommandsWriteOnlyTheirDestinations
  intro i s t h
  have ht := exec_framed h
  refine ⟨ht.par, ht.sc, ht.ctrl, ht.cmd, ht.inbox, ht.replies, ht.accErr, fun j hj => ?_, fun j hj => ?_⟩
  · have hd : Dest.f j ∈ destsOf i := by_contra fun hn => hj (ht.fOther j hn)
    revert hd
    cases i <;> simp [destsOf]
  · have hd : Dest.p j ∈ destsOf i := by_contra fun hn => hj (ht.pOther j hn)
    revert hd
    cases i <;> simp [destsOf]

/-! ### The control registers -/

/-- A state with other contents of CTRL, CMD and ACCERR. -/
def withControl (k : Ctrl) (w : Word) (b : Bool) (u : State) : State :=
  { u with ctrl := k, cmd := w, status := { u.status with accErr := b } }

/-- To a command a state with other contents of CTRL, CMD and ACCERR looks the same, and the command keeps them. -/
theorem commandRel_withControl (k : Ctrl) (w : Word) (b : Bool) : CommandRel fun s t => t = withControl k w b s where
  par h := by subst h; rfl
  latch h := by subst h; rfl
  draws h := by subst h; rfl
  fReads h _ := by subst h; rfl
  pReads h _ := by subst h; rfl
  sReads h _ := by subst h; rfl
  fVal h _ _ := by subst h; rfl
  pRaw h _ _ := by subst h; rfl
  sVal h _ _ := by subst h; rfl
  writeF h _ _ := by subst h; rfl
  writeP h _ _ := by subst h; rfl
  writeEq h _ := by subst h; rfl
  draw h _ := by subst h; rfl
  complete h := by subst h; rfl
  raise h _ := by subst h; rfl

/-- With the VERIFY sample 1 SMUL is VSMUL (44_scalar.md R215). -/
theorem exec_smul_of_verifySample (hv : s.verifySample = true) (d : PIdx) (k : SIdx) (a : PIdx) :
    exec (.smul d k a) s = exec (.vsmul d k a) s :=
  if_pos hv

/-- Settles O22: the states with and without the other contents are related as `commandRel_withControl` says. -/
theorem commandsIgnoreControlRegisters : Obligations.CommandsIgnoreControlRegisters := by
  unfold Obligations.CommandsIgnoreControlRegisters
  refine ⟨fun i s k w b => ?_, fun s d k a l hl hv => ?_⟩
  · have h := (commandRel_withControl k w b).exec (s := s) rfl i
    change exec i (withControl k w b s) = _
    generalize exec i s = o, exec i (withControl k w b s) = o' at h
    cases h with
    | next h' => exact congrArg _ h'
    | fault r => rfl
    | refused r => rfl
  · refine exec_smul_of_verifySample ?_ d k a
    rw [State.verifySample, hl]
    exact hv

end Sys2Proof.Proofs.Commands
end

section
/-! SUPPORT. What a step keeps and when it changes EQ, and what the host finds at CTRL, CMD and STATUS (10_state.md R36, R45 to R50,
R63, R65). -/

namespace Sys2Proof.Proofs.Control

open Sys2Proof.Machine Sys2Proof.Laws Sys2Proof.Proofs.Commands

variable {s t : State}

/-! ### The parameters -/

theorem engineStep_par (h : engineStep s = .next t) : t.par = s.par := by
  rcases engineStep_next h with ⟨-, rfl⟩ | ⟨l, -, ⟨i, -, hi⟩ | ⟨c, -, rfl⟩⟩
  · rfl
  · exact (exec_framed hi).par
  · rfl

theorem readSlot_par (s : State) (u : Slot) : (s.readSlot u).par = s.par := by
  obtain ⟨v, n, h⟩ := readSlot_eq s u
  rw [h]

theorem softReset_par (s : State) : s.softReset.par = s.par := (abort_frame s).par

theorem writeCtrl_par (s : State) (v : Word) : (s.writeCtrl v).par = s.par := by
  rcases writeCtrl_cases s v with ⟨-, h⟩ | ⟨-, h⟩
  · rw [h, softReset_par]
  · rw [h]

theorem writeSlot_par (s : State) (u : Slot) (v : Word) : (s.writeSlot u v).par = s.par := by
  rcases writeSlot_cases s u v with ⟨-, h⟩ | ⟨-, h⟩ | ⟨-, -, h⟩ | ⟨-, -, h⟩ | ⟨-, -, f, p, c, h⟩ | h
  · rw [h, writeCtrl_par]
  all_goals exact (congrArg State.par h :)

/-- Settles O14: the engine, the port and the resets all keep the parameters. -/
theorem stepsNeverChangeTheCurveParameters : Obligations.StepsNeverChangeTheCurveParameters := by
  unfold Obligations.StepsNeverChangeTheCurveParameters
  intro s t h
  rcases step_next_cases h with ⟨-, he⟩ | ⟨off, -, -, -, rfl⟩ | ⟨off, v, -, -, -, rfl⟩ | ⟨-, rfl⟩
  · exact (engineStep_par he :)
  · exact readSlot_par _ _
  · exact writeSlot_par _ _ _
  · rfl

/-! ### The flag EQ -/

theorem writesEq_iff (i : Instr) : writesEq i ↔ (∃ a b, i = .peq a b) ∨ ∃ a, i = .ptst a := by
  cases i <;> simp [writesEq]

/-- The engine changes EQ only where it completes a PEQ or a PTST. -/
theorem engineStep_eqFlag (h : engineStep s = .next t) (hne : t.status.eqFlag ≠ s.status.eqFlag) :
    ∃ l i, s.latch = some l ∧ decode l.word = .ok i ∧ writesEq i := by
  rcases engineStep_next h with ⟨-, rfl⟩ | ⟨l, hl, ⟨i, hd, hi⟩ | ⟨c, -, rfl⟩⟩
  · exact absurd rfl hne
  · exact ⟨l, i, hl, hd, by_contra fun hw => hne ((exec_framed hi).eqFlag hw)⟩
  · exact absurd rfl hne

theorem readSlot_status (s : State) (u : Slot) : (s.readSlot u).status = s.status := by
  obtain ⟨v, n, h⟩ := readSlot_eq s u
  rw [h]

/-- Only the offset 0x004 holds CTRL (20_memory.md R72). -/
theorem slotAt_eq_ctrl {off : Nat} (h : slotAt off = .ctrl) : off = 0x004 := by
  unfold slotAt at h
  split_ifs at h
  assumption

/-- A write of the port changes EQ only as a soft reset. -/
theorem writeSlot_eqFlag {u : Slot} {v : Word} (hne : (s.writeSlot u v).status.eqFlag ≠ s.status.eqFlag) :
    u = .ctrl ∧ v.getLsbD 31 = true ∧ (s.writeSlot u v).status.eqFlag = false := by
  rcases writeSlot_cases s u v with ⟨hu, h⟩ | ⟨-, h⟩ | ⟨-, -, h⟩ | ⟨-, -, h⟩ | ⟨-, -, f, p, c, h⟩ | h
  · rw [h] at hne ⊢
    rcases writeCtrl_cases s v with ⟨hv, hc⟩ | ⟨-, hc⟩
    · exact ⟨hu, hv, by rw [hc]; rfl⟩
    · rw [hc] at hne
      exact absurd rfl hne
  all_goals
    rw [h] at hne
    exact absurd rfl hne

/-- Settles O21: of the engine, the reads, the writes and the hard reset, the reads leave STATUS as it is, and each of the others
changes EQ only in the named case. -/
theorem onlyEqualityTestsAndResetsChangeEq : Obligations.OnlyEqualityTestsAndResetsChangeEq := by
  unfold Obligations.OnlyEqualityTestsAndResetsChangeEq
  intro s t h hne
  rcases step_next_cases h with ⟨hi, he⟩ | ⟨off, -, -, -, rfl⟩ | ⟨off, v, hi, -, -, rfl⟩ | ⟨hi, rfl⟩
  · obtain ⟨l, i, hl, hd, hw⟩ := engineStep_eqFlag he hne
    exact .inr ⟨hi, l, i, hl, hd, (writesEq_iff i).1 hw⟩
  · exact absurd (congrArg Status.eqFlag (readSlot_status _ _)) hne
  · obtain ⟨hu, hv, hf⟩ := writeSlot_eqFlag hne
    rw [slotAt_eq_ctrl hu] at hi
    exact .inl ⟨hf, .inr ⟨v, hi, hv⟩⟩
  · exact .inl ⟨rfl, .inl hi⟩

/-! ### CTRL, CMD and STATUS at the port -/

theorem readSlot_of_look {u : Slot} {v : Word} (h : s.look u = some v) : s.readSlot u = { s with replies := v :: s.replies } := by
  rw [State.readSlot, h]
  rfl

/-- The bits of STATUS (10_state.md R47). -/
theorem statusWord_getLsbD (s : State) (i : Nat) :
    s.statusWord.getLsbD i =
      if i = 0 then s.busy else if i = 1 then s.status.done else if i = 2 then s.status.eqFlag
      else if i = 3 then s.status.accErr else if i < 8 then false else if i < 12 then s.status.err.getLsbD (i - 8)
      else if i < 16 then s.status.errInfo.getLsbD (i - 12) else false := by
  have err_of_ge (h : 12 ≤ i) : s.status.err.getLsbD (i - 8) = false := BitVec.getLsbD_of_ge _ _ (by omega)
  have errInfo_of_ge (h : 16 ≤ i) : s.status.errInfo.getLsbD (i - 12) = false := BitVec.getLsbD_of_ge _ _ (by omega)
  simp only [State.statusWord, BitVec.getLsbD_or, getLsbD_flagBit, BitVec.getLsbD_shiftLeft, BitVec.getLsbD_setWidth]
  split_ifs with h0 h1 h2 h3 h8 h12 h16
  · simp [h0]
  · simp [h1]
  · simp [h2]
  · simp [h3]
  · simp [h0, h1, h2, h3, h8, show i < 12 by omega]
  · simp [h0, h1, h2, h3, h8, h12, show i < 32 by omega, show i - 8 < 32 by omega]
  · simp [h0, h1, h2, h3, h8, h12, show i < 32 by omega, show i - 12 < 32 by omega, err_of_ge (by omega)]
  · simp [h0, h1, h2, h3, err_of_ge (by omega), errInfo_of_ge (by omega)]

/-- The bits of CTRL (10_state.md R45). -/
theorem ctrlWord_getLsbD (s : State) (i : Nat) :
    s.ctrlWord.getLsbD i = if i = 0 then s.ctrl.irqEn else if i = 1 then s.ctrl.verify else false := by
  simp only [State.ctrlWord, BitVec.getLsbD_or, getLsbD_flagBit]
  split_ifs with h0 h1
  · simp [h0]
  · simp [h1]
  · simp [h0, h1]

/-- The interrupt output in the terms of what the host reads (10_state.md R63). -/
theorem irq_eq (s : State) : s.irq = (s.ctrlWord.getLsbD 0 && s.statusWord.getLsbD 1) := by
  rw [ctrlWord_getLsbD, statusWord_getLsbD]
  rfl

/-- Settles O48: a read of a control register answers its word, and the words are given bit by bit. -/
theorem controlReadsReturnTheirBits : Obligations.ControlReadsReturnTheirBits := by
  unfold Obligations.ControlReadsReturnTheirBits
  intro s
  refine ⟨?_, ?_, ?_, statusWord_getLsbD s, ctrlWord_getLsbD s, irq_eq s⟩
  all_goals rw [hostRead_window (by decide) (by decide), readSlot_of_look rfl]

/-- Settles O49: without bit 31 the write is no soft reset, and CTRL holds the two bits. -/
theorem ctrlWriteSetsTheEnables : Obligations.CtrlWriteSetsTheEnables := by
  unfold Obligations.CtrlWriteSetsTheEnables
  intro s v hv
  refine ⟨{ s with ctrl := ⟨v.getLsbD 0, v.getLsbD 1⟩ }, ?_, ?_, rfl⟩
  · rw [hostWrite_window (by decide) (by decide)]
    exact congrArg _ (if_neg (by rw [hv]; decide))
  · apply BitVec.eq_of_getLsbD_eq
    intro i hi
    have three : ∀ i < 32, (3#32).getLsbD i = (decide (i = 0) || decide (i = 1)) := by decide
    rw [ctrlWord_getLsbD, BitVec.getLsbD_and, three i hi]
    split_ifs with h0 h1
    · simp [h0]
    · simp [h1]
    · simp [h0, h1]

/-- Settles O50: the write is the acknowledge, which clears DONE and ACCERR by ones and touches no other bit. -/
theorem statusWriteAcknowledges : Obligations.StatusWriteAcknowledges := by
  unfold Obligations.StatusWriteAcknowledges
  intro s v
  refine ⟨s.acknowledge v, hostWrite_window (by decide) (by decide) v, fun i => ?_, rfl⟩
  have hbusy : (s.acknowledge v).busy = s.busy := rfl
  simp only [statusWord_getLsbD, acknowledge_status, hbusy]
  by_cases h1 : i = 1
  · simp [h1]
  · by_cases h3 : i = 3
    · simp [h3]
    · have hkept : (i == 1 || i == 3) = false := by simp [h1, h3]
      simp only [h1, h3, hkept, if_false, Bool.false_and, Bool.not_false, Bool.and_true]

/-- Settles O13: after a hard reset STATUS is 0 and nothing is in flight. -/
theorem resetMeetsControlInvariant : Obligations.ResetMeetsControlInvariant := by
  unfold Obligations.ResetMeetsControlInvariant
  intro P
  exact { legal := rfl, inFlight := fun h => (by cases h), latched := fun l h => (by cases h) }

end Sys2Proof.Proofs.Control
end

section
/-! SUPPORT. The host port (20_memory.md): what an access answers, in flight and idle, and the registers of the window as words and
as bytes. -/

namespace Sys2Proof.Proofs.Window

open Sys2Proof.Machine Sys2Proof.Laws Sys2Proof.Claims Sys2Proof.Proofs.Control

variable {s : State} {off : Nat} {u : Slot}

/-! ### Refused accesses, reads and ignored writes -/

/-- Inside the window only an aligned 32-bit word is accessed (20_memory.md R77). -/
theorem accessSlot_busError {width : Nat} (h : off < 0x800) (hw : width ≠ 4 ∨ off % 4 ≠ 0) :
    s.accessSlot (s.par.base + off) width = .error .busError := by
  have hbad : ¬ (width = 4 ∧ off % 4 = 0) := by omega
  simp [State.accessSlot, State.windowOffset, Config.windowBytes, h, hbad]

/-- Settles O57: such an access has no slot, and both kinds of access are refused for the reason that `accessSlot` gives. -/
theorem unalignedOrNarrowAccessIsRefused : Obligations.UnalignedOrNarrowAccessIsRefused := by
  unfold Obligations.UnalignedOrNarrowAccessIsRefused
  intro s off width v h hw
  constructor
  · simp only [hostRead, accessSlot_busError h hw]
  · simp only [hostWrite, accessSlot_busError h hw]

/-- Settles O53: a read that goes through is the read of a slot, which changes the replies and the draw counter only. -/
theorem readsChangeNoState : Obligations.ReadsChangeNoState := by
  unfold Obligations.ReadsChangeNoState
  intro s t addr width h
  obtain ⟨off, -, -, hwidth, -, rfl⟩ := hostRead_next h
  obtain ⟨v, n, ht⟩ := readSlot_eq s (slotAt off)
  rw [ht]
  exact ⟨hwidth, rfl, v, rfl⟩

/-- A read where the host finds a word answers it. -/
theorem hostRead_of_look {v : Word} (h : off < 0x800) (h4 : off % 4 = 0) (hl : s.look (slotAt off) = some v) :
    hostRead (s.par.base + off) 4 s = .next { s with replies := v :: s.replies } := by
  rw [hostRead_window h h4, readSlot_of_look hl]

/-- A read where any value may be read answers a draw (log 6). -/
theorem readSlot_of_look_none (h : s.look u = none) :
    s.readSlot u = { s with replies := Config.freeWord s.draws :: s.replies, draws := s.draws + 1 } := by
  rw [State.readSlot, h]
  rfl

/-- A write of a reserved offset, of ID or of a curve parameter is ignored (20_memory.md R76; 10_state.md R44). -/
theorem writeSlot_readOnly (h : off = 0x000 ∨ (0x010 ≤ off ∧ off < 0x100) ∨ (0x700 ≤ off ∧ off < 0x800)) (v : Word) :
    s.writeSlot (slotAt off) v = s := by
  rcases h with rfl | h | h
  · rfl
  · rw [slotAt_reserved (.inl h)]
    rfl
  · by_cases hcp : off < 0x7E0
    · rw [slotAt_cp ⟨h.1, hcp⟩]
      rfl
    · rw [slotAt_reserved (.inr (by omega))]
      rfl

/-- Settles O56: reserved offsets and ID answer a constant, and a write of these slots and of a curve parameter is no update. -/
theorem reservedAndReadOnlyOffsets : Obligations.ReservedAndReadOnlyOffsets := by
  unfold Obligations.ReservedAndReadOnlyOffsets
  intro s off v h4
  refine ⟨fun h => ?_, ?_, fun h => ?_⟩
  · refine hostRead_of_look (by omega) h4 ?_
    rw [slotAt_reserved (by omega)]
    rfl
  · rintro rfl
    exact hostRead_of_look (by decide) (by decide) rfl
  · rw [hostWrite_window (by omega) h4, writeSlot_readOnly h]

/-! ### Accesses while a command is in flight (20_memory.md R78, R79) -/

/-- A write of CMD or of an operand word is dropped (20_memory.md R78). -/
theorem writeSlot_of_busy (hb : s.busy = true) (hu : u = .cmd ∨ operandSlot u = true) (v : Word) :
    s.writeSlot u v = s.dropWrite := by
  cases u with
  | cmd | f _ _ | p _ _ _ | s _ _ => exact if_pos hb
  | _ => rcases hu with h | h <;> cases h

/-- No operand word is seen by the host (20_memory.md R79). -/
theorem look_operand_of_busy (hb : s.busy = true) (hu : operandSlot u = true) : s.look u = none := by
  cases u with
  | f _ _ | p _ _ _ | s _ _ => exact if_pos hb
  | _ => cases hu

/-- Settles O51: CMD and the operand words are the slots whose write is dropped while busy. -/
theorem busyWritesAreDropped : Obligations.BusyWritesAreDropped := by
  unfold Obligations.BusyWritesAreDropped
  intro s off v hb h4 hoff
  have hu : slotAt off = .cmd ∨ operandSlot (slotAt off) = true := by
    rcases hoff with rfl | h
    · exact .inl rfl
    · exact .inr (by rw [operandSlot_slotAt, decide_eq_true h])
  rw [hostWrite_window (by omega) h4, writeSlot_of_busy hb hu]
  rfl

/-- The block with its latch emptied and all else unchanged: the idle block that R79 compares with. -/
abbrev emptied (s : State) : State := { s with latch := none }

/-- STATUS in flight is STATUS idle with the bit BUSY (20_memory.md R79). -/
theorem statusWord_of_busy (hb : s.busy = true) : s.statusWord = (emptied s).statusWord ||| 1#32 := by
  have one : ∀ i < 32, (1#32).getLsbD i = decide (i = 0) := by decide
  apply BitVec.eq_of_getLsbD_eq
  intro i hi
  rw [BitVec.getLsbD_or, one i hi, statusWord_getLsbD, statusWord_getLsbD]
  by_cases h0 : i = 0
  · simp [h0, hb]
  · simp [h0]

/-- What is found at a slot that is no operand word depends on the latch in STATUS only. -/
theorem look_emptied (hu : operandSlot u = false) (hs : u ≠ .status) : (emptied s).look u = s.look u := by
  cases u with
  | f _ _ | p _ _ _ | s _ _ => cases hu
  | status => exact absurd rfl hs
  | _ => rfl

/-- Only at an operand word may the host find no defined word. -/
theorem look_isSome (hu : operandSlot u = false) : ∃ v, s.look u = some v := by
  cases u with
  | f _ _ | p _ _ _ | s _ _ => cases hu
  | _ => exact ⟨_, rfl⟩

/-- Only the offset 0x00C holds STATUS (20_memory.md R72). -/
theorem slotAt_eq_status (h : slotAt off = .status) : off = 0x00C := by
  unfold slotAt at h
  split_ifs at h
  assumption

/-- Settles O52: an operand word is looked up as a draw while busy, and of the other slots STATUS alone shows the latch. -/
theorem busyReadsOfOperandsAreDraws : Obligations.BusyReadsOfOperandsAreDraws := by
  unfold Obligations.BusyReadsOfOperandsAreDraws
  intro s off hb h4 h
  constructor
  · intro hlo hhi
    rw [hostRead_window h h4,
      readSlot_of_look_none (look_operand_of_busy hb (by rw [operandSlot_slotAt, decide_eq_true ⟨hlo, hhi⟩]))]
  · intro hoff
    have hu : operandSlot (slotAt off) = false := by rw [operandSlot_slotAt, decide_eq_false (by omega)]
    by_cases hs : off = 0x00C
    · subst hs
      refine ⟨s.statusWord, (emptied s).statusWord, hostRead_of_look h h4 rfl, ?_, fun _ => ⟨statusWord_of_busy hb, ?_⟩,
        fun hne => absurd rfl hne⟩
      · exact hostRead_of_look (s := emptied s) h h4 rfl
      · rw [statusWord_getLsbD]
        rfl
    · obtain ⟨v, hv⟩ := look_isSome (s := s) hu
      refine ⟨v, v, hostRead_of_look h h4 hv, ?_, fun h' => absurd h' hs, fun _ => rfl⟩
      exact hostRead_of_look (s := emptied s) h h4 ((look_emptied hu (mt slotAt_eq_status hs)).trans hv)

/-! ### The words of the operand registers (20_memory.md R72, R73) -/

theorem coordAt_coordOffset (c : Coord) : coordAt (coordOffset c / 0x20) = c := by
  cases c <;> rfl

theorem coordOffset_cases (c : Coord) : coordOffset c = 0x00 ∨ coordOffset c = 0x20 ∨ coordOffset c = 0x40 := by
  cases c <;> simp [coordOffset]

/-- The offset of an operand word holds it: the other direction of `slotOffset_slotAt`. -/
theorem slotAt_slotOffset (hu : operandSlot u = true) : slotAt (slotOffset u) = u := by
  cases u with
  | f i w =>
    simp only [slotOffset]
    rw [slotAt_f (by omega)]
    congr 1
    · exact Fin.ext (by simp only [Fin.val_ofNat]; omega)
    · exact Fin.ext (by simp only [Fin.val_ofNat]; omega)
  | p i c w =>
    have hc := coordOffset_cases c
    have hcoord : (0x300 + 0x60 * i.val + coordOffset c + 4 * w.val - 0x300) % 0x60 / 0x20 = coordOffset c / 0x20 := by omega
    simp only [slotOffset]
    rw [slotAt_p (by omega), hcoord, coordAt_coordOffset]
    congr 1
    · exact Fin.ext (by simp only [Fin.val_ofNat]; omega)
    · exact Fin.ext (by simp only [Fin.val_ofNat]; omega)
  | s i w =>
    simp only [slotOffset]
    rw [slotAt_s (by omega)]
    congr 1
    · exact Fin.ext (by simp only [Fin.val_ofNat]; omega)
    · exact Fin.ext (by simp only [Fin.val_ofNat]; omega)
  | _ => cases hu

/-- The operand words lie in the F, P and S windows, at multiples of 4. -/
theorem slotOffset_bounds (hu : operandSlot u = true) : slotOffset u < 0x800 ∧ slotOffset u % 4 = 0 := by
  cases u with
  | f i w => simp only [slotOffset]; omega
  | p i c w => have hc := coordOffset_cases c; simp only [slotOffset]; omega
  | s i w => simp only [slotOffset]; omega
  | _ => cases hu

/-- A read of an operand word answers the word of its register where that is valid, and a draw where it is not
(10_state.md R62; log 6). -/
theorem hostRead_of_hostWord {n k i : Nat} {r : Reg n k} (hu : operandSlot u = true) (h : off = slotOffset u)
    (hl : s.look u = r.hostWord i) : hostRead (s.par.base + off) 4 s = replyOfWord s r i := by
  obtain ⟨hlt, h4⟩ := slotOffset_bounds hu
  rw [h, hostRead_window hlt h4, slotAt_slotOffset hu, replyOfWord]
  rw [Reg.hostWord, Reg.wordValid] at hl
  split_ifs at hl ⊢
  · rw [readSlot_of_look hl]
    rfl
  · rw [readSlot_of_look_none hl]

/-- A read of a coordinate's word, at the coordinate's place in its point register. -/
theorem hostRead_coord (hb : s.busy = false) (i : PIdx) (c : Coord) {w : Nat} (hw : w < 8)
    (h : off = 0x300 + 0x60 * i.val + coordOffset c + 4 * w) :
    hostRead (s.par.base + off) 4 s = replyOfWord s (s.p[i].coord c) w :=
  hostRead_of_hostWord (u := .p i c ⟨w, hw⟩) rfl h (look_p hb ..)

/-- Settles O54: an operand slot of an idle block is memory-like, no two offsets share one, and each answers the word of its
register. -/
theorem writeThenReadOfTheWindow : Obligations.WriteThenReadOfTheWindow := by
  unfold Obligations.WriteThenReadOfTheWindow
  constructor
  · intro s off v hb h4 hlo hhi
    have hu : operandSlot (slotAt off) = true := by rw [operandSlot_slotAt, decide_eq_true ⟨hlo, hhi⟩]
    refine ⟨s.writeSlot (slotAt off) v, hostWrite_window (by omega) h4 v, ?_, fun off' h4' _ hne => ?_⟩
    · have hback := hostRead_of_look (by omega) h4 (look_writeSlot_same hb hu v)
      rwa [writeSlot_par] at hback ⊢
    · exact look_writeSlot_other hb hu (slotAt_ne ⟨hlo, hhi⟩ h4 h4' hne) v
  · intro s hb
    refine ⟨fun i w hw => ?_, fun i w hw => ⟨?_, ?_, ?_⟩, fun i w hw => ?_⟩
    · exact hostRead_of_hostWord (u := .f i ⟨w, hw⟩) rfl rfl (look_f hb ..)
    · exact hostRead_coord hb i .X hw rfl
    · exact hostRead_coord hb i .Y hw (by simp only [coordOffset]; omega)
    · exact hostRead_coord hb i .Z hw (by simp only [coordOffset]; omega)
    · exact hostRead_of_hostWord (u := .s i ⟨w, hw⟩) rfl rfl (look_s hb ..)

/-! ### The bytes of the registers (20_memory.md R75) -/

/-- A byte of a word of a value is a byte of the value. -/
theorem byteOfWord_getWord {n : Nat} (v : BitVec n) (b : Nat) :
    byteOfWord (getWord v (b / 4)) (b % 4) = v.extractLsb' (8 * b) 8 := by
  apply BitVec.eq_of_getLsbD_eq
  intro i hi
  have hbit : 32 * (b / 4) + (8 * (b % 4) + i) = 8 * b + i := by omega
  simp only [byteOfWord, BitVec.getLsbD_extractLsb', getLsbD_getWord, hbit, show 8 * (b % 4) + i < 32 by omega, decide_true,
    Bool.true_and]

/-- The byte `b` of a register at the offset `o`, where the host finds the word of the register that holds it. -/
theorem windowByte_of_look {n o b : Nat} {v : BitVec n} (h4 : o % 4 = 0)
    (hl : s.look (slotAt (o + 4 * (b / 4))) = some (getWord v (b / 4))) :
    s.windowByte (o + b) = some (v.extractLsb' (8 * b) 8) := by
  have hoff : (o + b) / 4 * 4 = o + 4 * (b / 4) := by omega
  have hbyte : (o + b) % 4 = b % 4 := by omega
  rw [State.windowByte, hoff, hbyte, hl, Option.map_some, byteOfWord_getWord]

/-- A byte of a one-word register. -/
theorem windowByte_of_look_word {o b : Nat} {v : Word} (hb : b < 4) (h4 : o % 4 = 0) (hl : s.look (slotAt o) = some v) :
    s.windowByte (o + b) = some (v.extractLsb' (8 * b) 8) := by
  apply windowByte_of_look h4
  have hword : getWord v 0 = v := BitVec.extractLsb'_eq_self
  rw [Nat.div_eq_of_lt hb, hword]
  exact hl

/-- The host finds every word of a register whose words are all valid. -/
theorem hostWord_of_allValid {n k i : Nat} {r : Reg n k} (hr : r.allValid = true) (hi : i < k) :
    r.hostWord i = some (getWord r.val i) :=
  if_pos (wordValid_of_allValid hr hi)

/-- A byte of an operand register whose words are all valid. -/
theorem windowByte_of_hostWord {n k o b : Nat} {r : Reg n k} (hr : r.allValid = true) (hi : b / 4 < k)
    (hu : operandSlot u = true) (h : o + 4 * (b / 4) = slotOffset u) (hl : s.look u = r.hostWord (b / 4)) :
    s.windowByte (o + b) = some (r.val.extractLsb' (8 * b) 8) := by
  obtain ⟨-, h4⟩ := slotOffset_bounds hu
  apply windowByte_of_look (by omega)
  rw [h, slotAt_slotOffset hu, hl, hostWord_of_allValid hr hi]

theorem coord_allValid {r : PReg} (hr : r.allValid = true) (c : Coord) : (r.coord c).allValid = true := by
  simp only [PReg.allValid, Bool.and_eq_true] at hr
  obtain ⟨⟨hx, hy⟩, hz⟩ := hr
  cases c <;> assumption

/-- A byte of a coordinate, at the coordinate's place in its point register. -/
theorem windowByte_coord (hb : s.busy = false) {i : PIdx} (hr : s.pOk i = true) (c : Coord) {o b : Nat} (hlt : b < 32)
    (h : o = 0x300 + 0x60 * i.val + coordOffset c) :
    s.windowByte (o + b) = some ((s.p[i].coord c).val.extractLsb' (8 * b) 8) := by
  have hi : b / 4 < 8 := by omega
  exact windowByte_of_hostWord (u := .p i c ⟨b / 4, hi⟩) (coord_allValid hr c) hi rfl (by rw [h]; rfl) (look_p hb ..)

/-- A byte of the `m`-th curve-parameter register. -/
theorem windowByte_cp (s : State) {m b : Nat} (hm : m < 7) (hlt : b < 32) :
    s.windowByte (0x700 + 0x20 * m + b) = some ((cpContents s.par.curve (cpAt m)).extractLsb' (8 * b) 8) := by
  apply windowByte_of_look (by omega)
  have hreg : (0x700 + 0x20 * m + 4 * (b / 4) - 0x700) / 0x20 = m := by omega
  have hword : (0x700 + 0x20 * m + 4 * (b / 4) - 0x700) % 0x20 / 4 % 8 = b / 4 := by omega
  rw [slotAt_cp (by omega), hreg, State.look, Fin.val_ofNat, hword]

/-- Settles O55: in each window the word of the offset holds the byte, at the place of the byte in its register. -/
theorem registersAreLittleEndian : Obligations.RegistersAreLittleEndian := by
  unfold Obligations.RegistersAreLittleEndian
  intro s hb
  refine ⟨fun b h => ⟨?_, ?_, ?_, ?_⟩, fun i b h hr => ?_, fun i b h hr => ⟨?_, ?_, ?_⟩, fun i b h hr => ?_, fun b h => ?_⟩
  · exact windowByte_of_look_word h rfl rfl
  · exact windowByte_of_look_word h rfl rfl
  · exact windowByte_of_look_word h rfl rfl
  · exact windowByte_of_look_word h rfl rfl
  · have hi : b / 4 < 8 := by omega
    exact windowByte_of_hostWord (u := .f i ⟨b / 4, hi⟩) hr hi rfl rfl (look_f hb ..)
  · exact windowByte_coord hb hr .X h rfl
  · exact windowByte_coord hb hr .Y h (by simp only [coordOffset]; omega)
  · exact windowByte_coord hb hr .Z h (by simp only [coordOffset]; omega)
  · have hi : b / 4 < 16 := by omega
    exact windowByte_of_hostWord (u := .s i ⟨b / 4, hi⟩) hr hi rfl rfl (look_s hb ..)
  · have hcp {m : Nat} (hm : m < 7) := windowByte_cp s hm h
    exact ⟨hcp (m := 0) (by decide), hcp (m := 1) (by decide), hcp (m := 2) (by decide), hcp (m := 3) (by decide),
      hcp (m := 4) (by decide), hcp (m := 5) (by decide), hcp (m := 6) (by decide)⟩

end Sys2Proof.Proofs.Window
end

section
/-! SUPPORT. Decoding and encoding agree, and the decoder and the opcode table agree (30_encoding.md R101 to R107). -/

namespace Sys2Proof.Proofs.Encoding

open Sys2Proof.Laws

variable {w : Word} {i : Instr} {o : Op}

/-! ### The word of a command -/

/-- The word of a command passes every check but the last, which is well-formedness. -/
theorem decode_encode (i : Instr) : decode (encode i) = if i.wf then .ok i else .error .duplicate := by
  obtain ⟨hop, hfields, hzero⟩ := EncodeFields.of_fields_small i
  obtain ⟨hunused, hrange⟩ := kinds_fields i
  have hrow : Op.ofCode (opcodeField (encode i)) = some i.op := by rw [hop, ofCode_code]
  rw [decode_of_fields hrow hzero hfields, hunused, hrange, distinctOk_fields, build_fields]
  cases i.wf <;> rfl

/-- Settles O1: a well-formed command passes the last check. -/
theorem decodeOfEncodeGivesTheCommand : Obligations.DecodeOfEncodeGivesTheCommand := by
  unfold Obligations.DecodeOfEncodeGivesTheCommand
  intro i hwf
  rw [decode_encode, if_pos hwf]

theorem pget_wf_iff {x y z : FIdx} {a : PIdx} : (Instr.pget x y z a).wf = true ↔ x ≠ y ∧ x ≠ z ∧ y ≠ z := by
  simp only [Instr.wf, Bool.and_eq_true, bne_iff_ne, and_assoc]

/-- Settles O5: PGET with equal destinations is not well-formed. -/
theorem pgetWithEqualDestinationsIsIllegal : Obligations.PgetWithEqualDestinationsIsIllegal := by
  unfold Obligations.PgetWithEqualDestinationsIsIllegal
  intro x y z a heq
  have hwf : ¬ (Instr.pget x y z a).wf = true := by
    rw [pget_wf_iff]
    tauto
  rw [decode_encode, if_neg hwf]

/-! ### The command of a word -/

/-- No reserved bit of `w` is set: the zero byte and the fields that the row `o` does not use are 0 (R105). -/
def ReservedOk (o : Op) (w : Word) : Prop := zeroField w = 0 ∧ o.kinds.all Kind.unusedOk (fieldsOf w) = true

theorem decode_of_unassigned (h : Op.ofCode (opcodeField w) = none) : decode w = .error .unassigned := by
  rw [decode, h]

theorem decode_of_reservedBits (h : Op.ofCode (opcodeField w) = some o) (hr : ¬ ReservedOk o w) :
    decode w = .error .reservedBits := by
  by_cases hz : zeroField w = 0
  · rw [decode_of_fields h hz rfl, if_pos (Bool.eq_false_iff.2 fun hu => hr ⟨hz, hu⟩)]
  · simp only [decode, h, ne_eq, hz, not_false_eq_true, if_true]

/-- What is left to check of a word with no reserved bit set. -/
theorem decode_of_reservedOk (h : Op.ofCode (opcodeField w) = some o) (hr : ReservedOk o w) :
    decode w =
      if o.kinds.all Kind.rangeOk (fieldsOf w) = false then .error .indexRange
      else if o.distinctOk (fieldsOf w) = false then .error .duplicate
      else .ok (o.build (fieldsOf w)) := by
  obtain ⟨hz, hu⟩ := hr
  rw [decode_of_fields h hz rfl, if_neg (by rw [hu]; decide)]

/-- A word that decodes has a row and passes every check. -/
theorem decode_ok (h : decode w = .ok i) :
    ∃ o, Op.ofCode (opcodeField w) = some o ∧ ReservedOk o w ∧ o.kinds.all Kind.rangeOk (fieldsOf w) = true
      ∧ o.distinctOk (fieldsOf w) = true ∧ o.build (fieldsOf w) = i := by
  cases ho : Op.ofCode (opcodeField w) with
  | none => rw [decode_of_unassigned ho] at h; cases h
  | some o =>
    by_cases hr : ReservedOk o w
    · rw [decode_of_reservedOk ho hr] at h
      split_ifs at h with hrange hdistinct
      exact ⟨o, rfl, hr, eq_true_of_ne_false hrange, eq_true_of_ne_false hdistinct, Except.ok.inj h⟩
    · rw [decode_of_reservedBits ho hr] at h; cases h

theorem build_op (o : Op) (f : Fields) : (o.build f).op = o := by cases o <;> rfl

theorem unusedOk_unused {n : Nat} : Kind.unusedOk .unused n = true ↔ n = 0 := beq_iff_eq

theorem rangeOk_P_iff {n : Nat} : Kind.rangeOk .P n = true ↔ n < 8 := by
  simp only [Kind.rangeOk, decide_eq_true_eq]
  omega

theorem rangeOk_S_iff {n : Nat} : Kind.rangeOk .S n = true ↔ n < 4 := by
  simp only [Kind.rangeOk, decide_eq_true_eq]
  omega

/-- Fields that pass the checks are the fields of the command built from them: an index below its bound is not cut, and what is
not used is 0. -/
theorem fields_build {f : Fields} (hs : Fields.Small f) (hu : o.kinds.all Kind.unusedOk f = true)
    (hr : o.kinds.all Kind.rangeOk f = true) : (o.build f).fields = f := by
  obtain ⟨rd, ra, rb, rc⟩ := f
  obtain ⟨hd, ha, hb, hc⟩ := hs
  simp only [Kinds.all, Bool.and_eq_true, and_assoc] at hu hr hd ha hb hc
  obtain ⟨ud, ua, ub, uc⟩ := hu
  obtain ⟨rgd, rga, rgb, rgc⟩ := hr
  cases o <;>
    simp only [Op.kinds, unusedOk_unused, rangeOk_P_iff, rangeOk_S_iff] at ud ua ub uc rgd rga rgb rgc <;>
    simp only [Op.build, Instr.fields, Fin.val_ofNat, Nat.mod_eq_of_lt, *]

/-- Settles O2: the fields of the command are those of the word, so are its opcode and the zero byte, and a word is what these
make. -/
theorem legalWordIsTheEncodingOfItsCommand : Obligations.LegalWordIsTheEncodingOfItsCommand := by
  unfold Obligations.LegalWordIsTheEncodingOfItsCommand
  intro w i h
  obtain ⟨o, ho, ⟨hz, hu⟩, hr, hd, rfl⟩ := decode_ok h
  have hf : (o.build (fieldsOf w)).fields = fieldsOf w := fields_build (fieldsOf_small w) hu hr
  constructor
  · rw [← distinctOk_fields, build_op, hf, hd]
  · rw [encode, build_op, hf, code_of_ofCode ho, pack_of_zero hz]

/-! ### The rows of the opcode table -/

/-- The mask of a 4-bit field: an unused field is matched, an operand is not. -/
def kindMask : Kind → Nat
  | .unused => 15
  | .F => 0
  | .P => 0
  | .S => 0

/-- The match and the mask of a row: the opcode with every other bit 0, and the opcode, the unused fields and the zero byte. -/
def tableRow (o : Op) : Word × Word :=
  (pack o.code ⟨0, 0, 0, 0⟩,
    pack 0xFF ⟨kindMask o.kinds.rd, kindMask o.kinds.ra, kindMask o.kinds.rb, kindMask o.kinds.rc⟩ ||| 0xFF)

theorem tableRows_eq : Claims.tableRows = Op.all.map tableRow := by decide

theorem mem_all (o : Op) : o ∈ Op.all := by cases o <;> decide

theorem opcodeField_mask (o : Op) : opcodeField (tableRow o).2 = 0xFF := by cases o <;> decide

theorem zeroField_mask (o : Op) : zeroField (tableRow o).2 = 0xFF := by cases o <;> decide

theorem fieldsOf_mask (o : Op) :
    fieldsOf (tableRow o).2 = ⟨kindMask o.kinds.rd, kindMask o.kinds.ra, kindMask o.kinds.rb, kindMask o.kinds.rc⟩ := by
  cases o <;> decide

theorem bits_and (v w : Word) (lo len : Nat) : bits (v &&& w) lo len = bits v lo len &&& bits w lo len := by
  simp only [bits, BitVec.toNat_and, Nat.and_div_two_pow, Nat.and_mod_two_pow]

/-- Two words are equal exactly if their fields are. -/
theorem word_ext_iff {v w : Word} :
    v = w ↔ opcodeField v = opcodeField w ∧ fieldsOf v = fieldsOf w ∧ zeroField v = zeroField w := by
  constructor
  · rintro rfl
    exact ⟨rfl, rfl, rfl⟩
  · rintro ⟨hop, hf, hz⟩
    apply BitVec.eq_of_toNat_eq
    have := v.isLt
    have := w.isLt
    simp only [opcodeField, fieldsOf, zeroField, bits, Fields.mk.injEq] at hop hf hz
    omega

theorem and_kindMask_eq_zero {n : Nat} (k : Kind) (hn : n < 16) : n &&& kindMask k = 0 ↔ k.unusedOk n = true := by
  cases k with
  | unused => rw [kindMask, Nat.and_two_pow_sub_one_of_lt_two_pow (n := 4) hn, unusedOk_unused]
  | F | P | S => simp only [kindMask, Nat.and_zero, Kind.unusedOk]

/-- A word matches a row by its mask exactly if it has the row's opcode and no reserved bit set (R104, R105). -/
theorem and_mask_eq_iff (o : Op) (w : Word) :
    w &&& (tableRow o).2 = (tableRow o).1 ↔ opcodeField w = o.code ∧ ReservedOk o w := by
  obtain ⟨hd, ha, hb, hc⟩ := fieldsOf_small w
  have hsmall : Fields.Small ⟨0, 0, 0, 0⟩ := instr_fields_small .nop
  have hop : opcodeField (w &&& (tableRow o).2) = opcodeField w := by
    rw [opcodeField, bits_and, ← opcodeField, ← opcodeField, opcodeField_mask]
    exact Nat.and_two_pow_sub_one_of_lt_two_pow (n := 8) (opcodeField_lt w)
  have hzero : zeroField (w &&& (tableRow o).2) = zeroField w := by
    rw [zeroField, bits_and, ← zeroField, ← zeroField, zeroField_mask]
    exact Nat.and_two_pow_sub_one_of_lt_two_pow (n := 8) (Nat.mod_lt _ (by decide))
  have hfields : fieldsOf (w &&& (tableRow o).2) = ⟨0, 0, 0, 0⟩ ↔ o.kinds.all Kind.unusedOk (fieldsOf w) = true := by
    obtain ⟨md, ma, mb, mc⟩ := Fields.mk.inj (fieldsOf_mask o)
    simp only [Kinds.all, Bool.and_eq_true, and_assoc, ← and_kindMask_eq_zero _ hd, ← and_kindMask_eq_zero _ ha,
      ← and_kindMask_eq_zero _ hb, ← and_kindMask_eq_zero _ hc]
    simp only [fieldsOf, bits_and, md, ma, mb, mc, Fields.mk.injEq]
  rw [word_ext_iff, hop, hzero, tableRow, opcodeField_pack (code_lt o) hsmall, fieldsOf_pack (code_lt o) hsmall,
    zeroField_pack (code_lt o) hsmall]
  rw [← tableRow, hfields, ReservedOk, and_comm (a := zeroField w = 0)]

/-! ### The words that match no row -/

theorem ofCode_eq_some_iff {n : Nat} : Op.ofCode n = some o ↔ n = o.code := by
  constructor
  · intro h
    exact (code_of_ofCode h).symm
  · rintro rfl
    exact ofCode_code o

/-- A word with a row and no reserved bit set is not unreadable: what is left to check is classed otherwise. -/
theorem readable_of_reservedOk (h : Op.ofCode (opcodeField w) = some o) (hr : ReservedOk o w) :
    decode w ≠ .error .unassigned ∧ decode w ≠ .error .reservedBits := by
  rw [decode_of_reservedOk h hr]
  split_ifs <;> simp

theorem decode_eq_unassigned_iff : decode w = .error .unassigned ↔ Op.ofCode (opcodeField w) = none := by
  refine ⟨fun hd => ?_, decode_of_unassigned⟩
  cases ho : Op.ofCode (opcodeField w) with
  | none => rfl
  | some o =>
    by_cases hr : ReservedOk o w
    · exact absurd hd (readable_of_reservedOk ho hr).1
    · rw [decode_of_reservedBits ho hr] at hd; cases hd

/-- The unreadable words are those that have no row with their reserved bits 0. -/
theorem unreadable_iff :
    (decode w = .error .unassigned ∨ decode w = .error .reservedBits) ↔
      ∀ o, opcodeField w = o.code → ¬ ReservedOk o w := by
  simp only [← ofCode_eq_some_iff]
  cases ho : Op.ofCode (opcodeField w) with
  | none => exact iff_of_true (.inl (decode_of_unassigned ho)) (by rintro _ ⟨⟩)
  | some o =>
    by_cases hr : ReservedOk o w
    · exact iff_of_false (not_or.2 (readable_of_reservedOk ho hr)) fun h => h o rfl hr
    · exact iff_of_true (.inr (decode_of_reservedBits ho hr)) (by rintro _ ⟨⟩; exact hr)

/-- The opcodes of no row (R107). -/
theorem ofCode_eq_none_iff {n : Nat} :
    Op.ofCode n = none ↔
      (0x01 ≤ n ∧ n ≤ 0x0F) ∨ (0x16 ≤ n ∧ n ≤ 0x1F) ∨ (0x22 ≤ n ∧ n ≤ 0x2F) ∨ (0x39 ≤ n ∧ n ≤ 0x3F) ∨
      (0x42 ≤ n ∧ n ≤ 0x4F) ∨ 0x52 ≤ n := by
  simp only [Op.ofCode, Op.all, List.find?_eq_none, List.forall_mem_cons, beq_iff_eq, Op.code, List.not_mem_nil, false_imp_iff,
    implies_true, and_true]
  omega

theorem opcodeField_eq_div (w : Word) : opcodeField w = w.toNat / 2 ^ 24 := by
  have := w.isLt
  rw [opcodeField, bits]
  omega

/-- Settles O3: matching a row is having its opcode and its reserved bits 0, and the opcodes of no row are the listed ones. -/
theorem unreadableWordMatchesNoTableRow : Obligations.UnreadableWordMatchesNoTableRow := by
  unfold Obligations.UnreadableWordMatchesNoTableRow
  intro w
  constructor
  · rw [unreadable_iff, tableRows_eq, List.forall_mem_map]
    simp only [ne_eq, and_mask_eq_iff, not_and, mem_all, true_imp_iff]
  · rw [decode_eq_unassigned_iff, ofCode_eq_none_iff, opcodeField_eq_div]

/-! ### Sample words -/

/-- Settles O4, by running the decoder on each word. -/
theorem sampleWordsDecode : Obligations.SampleWordsDecode := by
  unfold Obligations.SampleWordsDecode
  decide

end Sys2Proof.Proofs.Encoding
end

section
/-! SUPPORT. The field commands compute in the integers mod p (41_field.md): the class of each written value, from which its
reduced representative follows. -/

namespace Sys2Proof.Proofs.Field

open Sys2Proof.Machine Sys2Proof.Laws

section Values

variable {c : Curve} {x y r : Int}

/-! ### The values in the integers mod p -/

/-- Every value written as a remainder mod p is reduced. -/
theorem emod_range (hp : 0 < c.p.toNat) (v : Int) : 0 ≤ v % c.pI ∧ v % c.pI < c.pI := ⟨emod_nonneg_pI hp v, emod_lt_pI hp v⟩

theorem admitted_two_lt (hc : c.Admitted) : 2 < c.p.toNat := Nat.lt_of_succ_lt hc.pAboveThree

theorem cast_red : ((c.red x : Int) : ZMod c.p.toNat) = x := cast_emod_pI c x

theorem cast_addF : ((c.addF x y : Int) : ZMod c.p.toNat) = x + y := by
  rw [Curve.addF, cast_emod_pI, Int.cast_add, cast_red, cast_red]

theorem cast_subF : ((c.subF x y : Int) : ZMod c.p.toNat) = x - y := by
  rw [Curve.subF, cast_emod_pI, Int.cast_sub, cast_red, cast_red]

theorem cast_mulF : ((c.mulF x y : Int) : ZMod c.p.toNat) = x * y := by
  rw [Curve.mulF, cast_emod_pI, Int.cast_mul, cast_red, cast_red]

theorem montF_range (hp : 0 < c.p.toNat) : 0 ≤ c.montF x y ∧ c.montF x y < c.pI := emod_range hp _

/-- The radix as O25 and O26 write it. -/
theorem cast_radix : ((radix : Int) : ZMod c.p.toNat) = ((2 ^ 256 : Nat) : ZMod c.p.toNat) := by
  rw [radix_eq, Int.cast_pow, Nat.cast_pow, Int.cast_ofNat, Nat.cast_ofNat]

theorem red_eq_zero_iff : c.red x = 0 ↔ (x : ZMod c.p.toNat) = 0 := (cast_eq_zero_iff c x).symm

/-- The value FINV writes is the inverse of its source, reduced or not (41_field.md R136). -/
theorem cast_invP_red_mul (hp : Fact c.p.toNat.Prime) (hx : c.red x ≠ 0) :
    (x : ZMod c.p.toNat) * ((c.invP (c.red x) : Int) : ZMod c.p.toNat) = 1 := by
  have hx' : (x : ZMod c.p.toNat) ≠ 0 := mt red_eq_zero_iff.2 hx
  rw [cast_invP_of_ne hp (by rwa [cast_red]), cast_red, mul_inv_cancel₀ hx']

/-- A second Montgomery product, by `R²`, undoes the factor `R⁻¹` of the first and its own (41_field.md R134). -/
theorem montF_montF (hp : Fact c.p.toNat.Prime) (h2 : 2 < c.p.toNat)
    (hr : (r : ZMod c.p.toNat) = (radix : ZMod c.p.toNat) * (radix : ZMod c.p.toNat)) :
    c.montF (c.montF x y) r = c.mulF x y := by
  have hR := radix_ne_zero hp h2
  have hcast : ((c.montF (c.montF x y) r : Int) : ZMod c.p.toNat) = (c.mulF x y : Int) := by
    refine mul_right_cancel₀ hR ?_
    calc ((c.montF (c.montF x y) r : Int) : ZMod c.p.toNat) * (radix : Int)
        = ((c.montF x y : Int) : ZMod c.p.toNat) * (radix : Int) * (radix : Int) := by rw [cast_montF hp h2, hr, mul_assoc]
      _ = ((c.mulF x y : Int) : ZMod c.p.toNat) * (radix : Int) := by rw [cast_montF hp h2, cast_mulF]
  rw [cast_eq_cast_iff] at hcast
  simpa only [Curve.montF, Curve.mulF, Int.emod_emod_of_dvd _ dvd_rfl] using hcast

/-- The reduced representative of a class. -/
theorem eq_mod_of_cast {m n p : Nat} (hlt : m < p) (h : (m : ZMod p) = (n : ZMod p)) : m = n % p := by
  rw [← (ZMod.natCast_eq_natCast_iff' m n p).1 h, Nat.mod_eq_of_lt hlt]

end Values

section Commands

variable {s : State} {a b d : FIdx} {v : Int}

/-! ### The register a field command leaves -/

/-- A command that writes the reduced value `v` into `F[d]`: its frame, and what `F[d]` then holds (41_field.md R130). -/
theorem writes_reduced {i : Instr} (hexec : exec i s = .next (s.writeF d v).complete) (hv : 0 ≤ v ∧ v < s.par.curve.pI) :
    ∃ t, exec i s = .next t ∧ Frame s t [d] [] ∧ t.fOk d = true ∧ t.fNat d < s.modulus
      ∧ (t.fNat d : ZMod s.modulus) = (v : ZMod s.modulus) := by
  have hval : ((s.writeF d v).complete.fNat d : Int) = v := fNat_writeF s d hv.1 hv.2
  have hlt := hv.2
  rw [← hval, pI_eq] at hlt
  refine ⟨_, hexec, frame_writeF s d v, writeF_complete_fOk s d v, by exact_mod_cast hlt, ?_⟩
  rw [← Int.cast_natCast, hval]

/-! ### What the next command reads after a field command -/

theorem fVal_writeF_same (hv : 0 ≤ v ∧ v < s.par.curve.pI) : (s.writeF d v).complete.fVal d = v :=
  fNat_writeF s d hv.1 hv.2

theorem writeF_complete_get_other (h : d ≠ a) : (s.writeF d v).complete.f[a] = s.f[a] := by
  rw [complete_f, writeF_get, if_neg h]

theorem fVal_writeF_other (h : d ≠ a) : (s.writeF d v).complete.fVal a = s.fVal a := by
  rw [State.fVal, writeF_complete_get_other h, State.fVal]

theorem readableF_writeF_other (h : d ≠ a) (ha : s.readableF a) : (s.writeF d v).complete.readableF a := by
  rw [State.readableF, State.fReads, writeF_complete_get_other h]
  exact ha

/-! ### The checks of FINV and FSQRT, in the terms of the claims -/

/-- The check for 0 (41_field.md R136). -/
theorem red_fVal_eq_zero_iff : s.par.curve.red (s.fVal a) = 0 ↔ s.fNat a % s.modulus = 0 := by
  rw [red_eq_zero_iff, cast_fVal, ZMod.natCast_eq_zero_iff, Nat.dvd_iff_mod_eq_zero]

/-- FSQRT finds a root exactly of the squares (41_field.md R137). -/
theorem sqrtP_fVal_isSome_iff (hc : s.par.curve.Admitted) :
    (s.par.curve.sqrtP (s.par.curve.red (s.fVal a))).isSome ↔ IsSquare (s.fNat a : ZMod s.modulus) := by
  rw [Curve.red, sqrtP_isSome_iff ⟨hc.pPrime⟩ hc.pMod4 (emod_nonneg_pI (Admitted.pos hc) _) (emod_lt_pI (Admitted.pos hc) _),
    cast_emod_pI, cast_fVal]

end Commands

/-! ### The obligations -/

/-- Settles O24: the values are the sum, the difference and the product as classes mod p, and the written ones are reduced. -/
theorem fieldSumDifferenceProduct : Obligations.FieldSumDifferenceProduct := by
  unfold Obligations.FieldSumDifferenceProduct
  intro s d a b hp ha hb
  refine ⟨?_, ?_, ?_⟩
  · obtain ⟨t, hexec, hframe, hok, hlt, hval⟩ := writes_reduced (exec_fadd ha hb d) (emod_range hp _)
    refine ⟨t, hexec, hframe, hok, eq_mod_of_cast hlt ?_⟩
    rw [hval, cast_addF, cast_fVal, cast_fVal, Nat.cast_add]
  · obtain ⟨t, hexec, hframe, hok, hlt, hval⟩ := writes_reduced (exec_fsub ha hb d) (emod_range hp _)
    refine ⟨t, hexec, hframe, hok, hlt, (ZMod.natCast_eq_natCast_iff' _ _ _).1 ?_⟩
    rw [Nat.cast_add, hval, cast_subF, cast_fVal, cast_fVal, sub_add_cancel]
  · obtain ⟨t, hexec, hframe, hok, hlt, hval⟩ := writes_reduced (exec_fmul ha hb d) (emod_range hp _)
    refine ⟨t, hexec, hframe, hok, eq_mod_of_cast hlt ?_⟩
    rw [hval, cast_mulF, cast_fVal, cast_fVal, Nat.cast_mul]

/-- Settles O25: the radix is invertible mod the odd prime p, and FMONT divides by it. -/
theorem fmontIsTheMontgomeryProduct : Obligations.FmontIsTheMontgomeryProduct := by
  unfold Obligations.FmontIsTheMontgomeryProduct
  intro s d a b hc ha hb
  have hmont := cast_montF ⟨hc.pPrime⟩ (admitted_two_lt hc) (s.fVal a) (s.fVal b)
  obtain ⟨t, hexec, hframe, hok, hlt, hval⟩ := writes_reduced (exec_fmont ha hb d) (montF_range (Admitted.pos hc))
  refine ⟨t, hexec, hframe, hok, hlt, (ZMod.natCast_eq_natCast_iff' _ _ _).1 ?_⟩
  rw [Nat.cast_mul, Nat.cast_mul, hval, ← cast_radix, hmont, cast_fVal, cast_fVal]

/-- Settles O26: the first product is read back as it was written, and `montF_montF` is the identity of R134. -/
theorem fmulIsTwoMontgomeryProducts : Obligations.FmulIsTwoMontgomeryProducts := by
  unfold Obligations.FmulIsTwoMontgomeryProducts
  intro s d a b r hc ha hb hr hdr hR2
  have hrr : ((s.fVal r : Int) : ZMod s.modulus) = (radix : ZMod s.modulus) * (radix : ZMod s.modulus) := by
    rw [cast_fVal, (ZMod.natCast_eq_natCast_iff' _ _ _).2 hR2, Nat.cast_mul, cast_radix]
  refine ⟨_, _, _, exec_fmont ha hb d,
    exec_fmont (readableF_of_fOk (writeF_complete_fOk s d _)) (readableF_writeF_other hdr hr) d, exec_fmul ha hb d, ?_⟩
  rw [writeF_complete_get, writeF_complete_get, fVal_writeF_same (montF_range (Admitted.pos hc)), fVal_writeF_other hdr,
    complete_par, writeF_par, montF_montF ⟨hc.pPrime⟩ (admitted_two_lt hc) hrr]

/-- Settles O27: Fermat's inverse, and the check for 0 in front of it. -/
theorem finvInvertsOrDividesByZero : Obligations.FinvInvertsOrDividesByZero := by
  unfold Obligations.FinvInvertsOrDividesByZero
  intro s d a hc ha
  refine ⟨fun hne => ?_, fun hzero => ?_⟩
  · have hx := mt red_fVal_eq_zero_iff.1 hne
    obtain ⟨t, hexec, hframe, hok, hlt, hval⟩ :=
      writes_reduced ((exec_finv ha d).trans (if_neg hx)) (invP_range (Admitted.pos hc) _)
    have hinv : (s.fNat a * t.fNat d) % s.modulus = 1 := by
      refine (eq_mod_of_cast (Admitted.one_lt hc) ?_).symm
      rw [Nat.cast_mul, hval, ← cast_fVal, cast_invP_red_mul ⟨hc.pPrime⟩ hx, Nat.cast_one]
    refine ⟨t, hexec, hframe, hok, Nat.pos_of_ne_zero fun h0 => ?_, hlt, hinv⟩
    rw [h0, Nat.mul_zero, Nat.zero_mod] at hinv
    exact absurd hinv Nat.zero_ne_one
  · exact (exec_finv ha d).trans (if_pos (red_fVal_eq_zero_iff.2 hzero))

/-- Settles O28: the candidate `x^((p+1)/4)` is a root exactly of the squares, and a power of a square is a square. -/
theorem fsqrtFindsTheRootOfEverySquare : Obligations.FsqrtFindsTheRootOfEverySquare := by
  unfold Obligations.FsqrtFindsTheRootOfEverySquare
  intro s d a hc ha
  have hexec := exec_fsqrt ha d
  have hiff := sqrtP_fVal_isSome_iff (a := a) hc
  cases hroot : s.par.curve.sqrtP (s.par.curve.red (s.fVal a)) with
  | none =>
    rw [hroot] at hexec hiff
    exact ⟨fun hsq => absurd (hiff.2 hsq) (by simp), fun _ => hexec⟩
  | some r =>
    rw [hroot] at hexec hiff
    obtain ⟨h0, hlt, hsq, hpow⟩ := sqrtP_some (Admitted.pos hc) hroot
    have hsquare := hiff.1 rfl
    refine ⟨fun _ => ?_, absurd hsquare⟩
    obtain ⟨t, hnext, hframe, hok, hreduced, hval⟩ := writes_reduced hexec ⟨h0, hlt⟩
    refine ⟨t, hnext, hframe, hok, hreduced, (ZMod.natCast_eq_natCast_iff' _ _ _).1 ?_, ?_⟩
    · rw [Nat.cast_mul, hval, ← Int.cast_mul, ← cast_emod_pI, hsq, cast_red, cast_fVal]
    · rw [hval, hpow, cast_powMod, cast_red, cast_fVal]
      exact hsquare.pow _

end Sys2Proof.Proofs.Field
end

section
/-! SUPPORT. The point loads (42_curve.md): what a command that writes a triple leaves, and that the generator is a finite point of
the curve. -/

namespace Sys2Proof.Proofs.CurveLoads

open Sys2Proof.Machine Sys2Proof.Laws

section Generator

variable {c : Curve}

/-- The generator check of R152 is the on-curve test of the triple `(Gx, Gy, 1)`. -/
theorem onCurve_gen (hc : c.Admitted) : c.onCurve c.gen = true := by
  have heq := (cast_eq_zero_iff c _).2 hc.genOnCurve
  push_cast at heq
  refine (onCurve_iff c.gen).2 (.inr ?_)
  simp only [Curve.gen, Int.cast_one]
  linear_combination heq

theorem isId_gen (hc : c.Admitted) : c.isId c.gen = false := by
  have : Fact c.p.toNat.Prime := ⟨hc.pPrime⟩
  rw [isId_false_iff, Curve.gen, Int.cast_one]
  exact one_ne_zero

/-- `(Gx, Gy, 1)` represents a finite point of order dividing the prime `n`, hence of order `n` (42_curve.md R152, R156). -/
theorem exists_rep_gen [Fact c.p.toNat.Prime] (hc : c.Admitted) :
    ∃ G : c.weier.Point, c.Rep c.gen G ∧ G ≠ 0 ∧ c.n.toNat • G = 0 := by
  obtain ⟨G, hG⟩ := (exists_rep_iff hc c.gen).2 (onCurve_gen hc)
  refine ⟨G, hG, ?_, gen_order hc hG⟩
  rintro rfl
  exact Bool.false_ne_true ((isId_gen hc).symm.trans ((rep_zero_iff _).1 hG))

end Generator

/-- A command that writes the canonical triple `T` into `P[d]`: its frame, the three coordinates, and the points `P[d]` then
holds. -/
theorem writes_triple {s : State} {d : PIdx} {T : Triple} {i : Instr} (hexec : exec i s = .next (s.writeP d T).complete)
    (hT : s.par.curve.Canonical T) :
    ∃ t, exec i s = .next t ∧ Frame s t [] [d] ∧ t.pOk d = true ∧ t.p[d].x.val = BitVec.ofInt 256 T.x
      ∧ t.p[d].y.val = BitVec.ofInt 256 T.y ∧ t.p[d].z.val = BitVec.ofInt 256 T.z
      ∧ ∀ Q : s.par.curve.weier.Point, s.holdsPoint t d Q ↔ s.par.curve.Rep T Q := by
  refine ⟨_, hexec, frame_writeP s d T, writeP_complete_pOk s d T, ?_⟩
  rw [writeP_complete_get]
  exact ⟨rfl, rfl, rfl, holdsPoint_writeP s d hT⟩

/-- Settles O29: the admission checks make `(Gx, Gy, 1)` a representative of a finite point that `n` annihilates, and both loads
write a canonical triple. -/
theorem pointLoadsGiveGeneratorAndIdentity : Obligations.PointLoadsGiveGeneratorAndIdentity := by
  unfold Obligations.PointLoadsGiveGeneratorAndIdentity
  intro s d _ hc
  constructor
  · obtain ⟨t, hexec, hframe, hok, hx, hy, hz, hholds⟩ := writes_triple (exec_pldg s d) (canonical_gen hc)
    obtain ⟨G, hG, hne, horder⟩ := exists_rep_gen hc
    refine ⟨t, hexec, hframe, hok, hx.trans ?_, hy.trans ?_, hz, G, (hholds G).2 hG, hne, horder⟩
    · rw [Curve.gen, Curve.gxI, BitVec.ofInt_natCast, BitVec.ofNat_toNat, BitVec.setWidth_eq]
    · rw [Curve.gen, Curve.gyI, BitVec.ofInt_natCast, BitVec.ofNat_toNat, BitVec.setWidth_eq]
  · obtain ⟨t, hexec, hframe, hok, hx, hy, hz, hholds⟩ := writes_triple (exec_pldo s d) canonical_oCan
    exact ⟨t, hexec, hframe, hok, hx, hy, hz, (hholds 0).2 ((rep_zero_iff _).2 (isId_oCan _))⟩

end Sys2Proof.Proofs.CurveLoads
end

section
/-! SUPPORT. The group-law helpers in the integers mod p, on every triple, on the curve or not (43_point.md R174 to R178): the
coordinates each of them computes, and what the tests decide. -/

namespace Sys2Proof.Proofs.PointLaw

open Sys2Proof.Laws

/-- The coordinates of the triple `T` mod p. -/
def HasCoords (c : Curve) (T : Triple) (x y z : ZMod c.p.toNat) : Prop :=
  (T.x : ZMod c.p.toNat) = x ∧ (T.y : ZMod c.p.toNat) = y ∧ (T.z : ZMod c.p.toNat) = z

section Coordinates

variable {c : Curve} {T U : Triple} {x y z x' y' z' : ZMod c.p.toNat}

theorem isId_iff_of_hasCoords (hT : HasCoords c T x y z) : c.isId T = true ↔ z = 0 := by
  rw [isId_iff, hT.2.2]

theorem hasCoords_emod {a b d : Int} (hx : (a : ZMod c.p.toNat) = x) (hy : (b : ZMod c.p.toNat) = y)
    (hz : (d : ZMod c.p.toNat) = z) : HasCoords c ⟨a % c.pI, b % c.pI, d % c.pI⟩ x y z :=
  ⟨(cast_emod_pI c a).trans hx, (cast_emod_pI c b).trans hy, (cast_emod_pI c d).trans hz⟩

/-- The last lines of `dbl` and `add`: a result whose Z is 0 mod p is replaced by `O_CAN`. -/
theorem canonical_or_coords {a b d : Int} (hx : (a : ZMod c.p.toNat) = x) (hy : (b : ZMod c.p.toNat) = y)
    (hz : (d : ZMod c.p.toNat) = z) :
    if z = 0 then (if d % c.pI = 0 then oCan else ⟨a % c.pI, b % c.pI, d % c.pI⟩) = oCan
    else HasCoords c (if d % c.pI = 0 then oCan else ⟨a % c.pI, b % c.pI, d % c.pI⟩) x y z := by
  have hzero : d % c.pI = 0 ↔ z = 0 := by rw [← cast_eq_zero_iff, hz]
  by_cases h : z = 0
  · rw [if_pos h, if_pos (hzero.2 h)]
  · rw [if_neg h, if_neg (mt hzero.1 h)]
    exact hasCoords_emod hx hy hz

/-- Negation on a finite triple (43_point.md R174). -/
theorem neg_coords (hT : HasCoords c T x y z) (hz : z ≠ 0) : HasCoords c (c.neg T) x (-y) z := by
  rw [Curve.neg, if_neg (mt (isId_iff_of_hasCoords hT).1 hz)]
  obtain ⟨hx, hy, hz⟩ := hT
  refine ⟨hx, ?_, hz⟩
  rw [cast_emod_pI, Int.cast_sub, pI_eq, Int.cast_natCast, ZMod.natCast_self, hy, zero_sub]

/-- Doubling on a finite triple (43_point.md R175). -/
theorem dbl_coords (hT : HasCoords c T x y z) (hz : z ≠ 0) :
    let S := 4 * x * y ^ 2
    let M := 3 * x ^ 2 + (c.aI : ZMod c.p.toNat) * z ^ 4
    if 2 * y * z = 0 then c.dbl T = oCan
    else HasCoords c (c.dbl T) (M ^ 2 - 2 * S) (M * (S - (M ^ 2 - 2 * S)) - 8 * y ^ 4) (2 * y * z) := by
  intro S M
  rw [Curve.dbl, if_neg (mt (isId_iff_of_hasCoords hT).1 hz)]
  obtain ⟨hx, hy, hz⟩ := hT
  apply canonical_or_coords
  · push_cast [cast_emod_pI]; rw [hx, hy, hz]; ring
  · push_cast [cast_emod_pI]; rw [hx, hy, hz]; ring
  · push_cast; rw [hy, hz]

/-- Step 4 of the addition (43_point.md R176). -/
theorem addGeneral_coords (hT : HasCoords c T x y z) (hU : HasCoords c U x' y' z') :
    let U1 := x * z' ^ 2
    let S1 := y * z' ^ 3
    let H := x' * z ^ 2 - U1
    let R := y' * z ^ 3 - S1
    let X3 := R ^ 2 - H ^ 3 - 2 * U1 * H ^ 2
    if H * z * z' = 0 then c.addGeneral T U = oCan
    else HasCoords c (c.addGeneral T U) X3 (R * (U1 * H ^ 2 - X3) - S1 * H ^ 3) (H * z * z') := by
  intro U1 S1 H R X3
  rw [Curve.addGeneral]
  obtain ⟨hx, hy, hz⟩ := hT
  obtain ⟨hx', hy', hz'⟩ := hU
  apply canonical_or_coords
  · push_cast [cast_emod_pI]; rw [hx, hy, hz, hx', hy', hz']; ring
  · push_cast [cast_emod_pI]; rw [hx, hy, hz, hx', hy', hz']; ring
  · push_cast [cast_emod_pI]; rw [hx, hz, hx', hz']; ring

/-- Equality of finite triples by cross-multiplication (43_point.md R177). -/
theorem eqPt_iff_of_finite (hT : HasCoords c T x y z) (hU : HasCoords c U x' y' z') (hz : z ≠ 0) (hz' : z' ≠ 0) :
    c.eqPt T U = true ↔ x * z' ^ 2 = x' * z ^ 2 ∧ y * z' ^ 3 = y' * z ^ 3 := by
  rw [eqPt_iff_cast, isId_iff_of_hasCoords hT, isId_iff_of_hasCoords hU]
  obtain ⟨rfl, rfl, rfl⟩ := hT
  obtain ⟨rfl, rfl, rfl⟩ := hU
  simp only [hz, hz', false_and, not_false_iff, true_and, false_or]

/-- `T = -U` on finite triples, the test of step 3 of the addition (43_point.md R176). -/
theorem eqPt_neg_iff_of_finite (hT : HasCoords c T x y z) (hU : HasCoords c U x' y' z') (hz : z ≠ 0) (hz' : z' ≠ 0) :
    c.eqPt T (c.neg U) = true ↔ x * z' ^ 2 = x' * z ^ 2 ∧ y * z' ^ 3 = -(y' * z ^ 3) := by
  rw [eqPt_iff_of_finite hT (neg_coords hU hz') hz hz', neg_mul]

/-- The on-curve test of a finite triple is the curve equation of its affine point (43_point.md R178). -/
theorem onCurve_iff_affine [Fact c.p.toNat.Prime] (hT : HasCoords c T x y z) (hz : z ≠ 0) :
    c.onCurve T = true ↔
      (y / z ^ 3) ^ 2 = (x / z ^ 2) ^ 3 + (c.aI : ZMod c.p.toNat) * (x / z ^ 2) + (c.bI : ZMod c.p.toNat) := by
  obtain ⟨rfl, rfl, rfl⟩ := hT
  rw [onCurve_iff, or_iff_right hz]
  field_simp

end Coordinates

/-! ### The steps of the addition (43_point.md R176) -/

section Add

variable {c : Curve} {T U : Triple}

theorem add_of_left_isId (hT : c.isId T = true) : c.add T U = U := by rw [Curve.add, if_pos hT]

theorem add_of_right_isId (hT : ¬ c.isId T = true) (hU : c.isId U = true) : c.add T U = T := by
  rw [Curve.add, if_neg hT, if_pos hU]

/-- Steps 2 to 4, on finite triples. -/
theorem add_coords {x y z x' y' z' : ZMod c.p.toNat} (hT : HasCoords c T x y z) (hU : HasCoords c U x' y' z') (hz : z ≠ 0)
    (hz' : z' ≠ 0) :
    let U1 := x * z' ^ 2
    let U2 := x' * z ^ 2
    let S1 := y * z' ^ 3
    let S2 := y' * z ^ 3
    let H := U2 - U1
    let R := S2 - S1
    let X3 := R ^ 2 - H ^ 3 - 2 * U1 * H ^ 2
    if U1 = U2 ∧ S1 = S2 then c.add T U = c.dbl T
    else if U1 = U2 ∧ S1 = -S2 then c.add T U = oCan
    else if H * z * z' = 0 then c.add T U = oCan
    else HasCoords c (c.add T U) X3 (R * (U1 * H ^ 2 - X3) - S1 * H ^ 3) (H * z * z') := by
  intro U1 U2 S1 S2 H R X3
  have heq : c.eqPt T U = true ↔ U1 = U2 ∧ S1 = S2 := eqPt_iff_of_finite hT hU hz hz'
  have hopp : c.eqPt T (c.neg U) = true ↔ U1 = U2 ∧ S1 = -S2 := eqPt_neg_iff_of_finite hT hU hz hz'
  rw [Curve.add, if_neg (mt (isId_iff_of_hasCoords hT).1 hz), if_neg (mt (isId_iff_of_hasCoords hU).1 hz')]
  by_cases h2 : U1 = U2 ∧ S1 = S2
  · rw [if_pos h2, if_pos (heq.2 h2)]
  by_cases h3 : U1 = U2 ∧ S1 = -S2
  · rw [if_neg h2, if_pos h3, if_neg (mt heq.1 h2), if_pos (hopp.2 h3)]
  rw [if_neg h2, if_neg h3, if_neg (mt heq.1 h2), if_neg (mt hopp.1 h3)]
  exact addGeneral_coords hT hU

end Add

/-! ### The class of a triple under `eq` -/

section Equality

variable {c : Curve} [Fact c.p.toNat.Prime]

/-- The affine point `(X/Z², Y/Z³)` of a finite triple, none of an identity triple. -/
def affineClass (c : Curve) [Fact c.p.toNat.Prime] (T : Triple) : Option (ZMod c.p.toNat × ZMod c.p.toNat) :=
  if c.isId T then none
  else some ((T.x : ZMod c.p.toNat) / (T.z : ZMod c.p.toNat) ^ 2, (T.y : ZMod c.p.toNat) / (T.z : ZMod c.p.toNat) ^ 3)

theorem affineClass_of_isId {T : Triple} (h : c.isId T = true) : affineClass c T = none := if_pos h

theorem affineClass_of_finite {T : Triple} (h : c.isId T = false) : affineClass c T
    = some ((T.x : ZMod c.p.toNat) / (T.z : ZMod c.p.toNat) ^ 2, (T.y : ZMod c.p.toNat) / (T.z : ZMod c.p.toNat) ^ 3) :=
  if_neg (Bool.eq_false_iff.1 h)

/-- `eq` compares the affine points, or that there is none (43_point.md R189). -/
theorem eqPt_iff_affineClass (T U : Triple) :
    c.eqPt T U = true ↔ affineClass c T = affineClass c U := by
  cases hT : c.isId T <;> cases hU : c.isId U
  case false.false =>
    have hz := (isId_false_iff c T).1 hT
    have hz' := (isId_false_iff c U).1 hU
    rw [eqPt_iff_of_finite ⟨rfl, rfl, rfl⟩ ⟨rfl, rfl, rfl⟩ hz hz', affineClass_of_finite hT, affineClass_of_finite hU,
      Option.some.injEq, Prod.mk.injEq, div_eq_div_iff (pow_ne_zero 2 hz) (pow_ne_zero 2 hz'),
      div_eq_div_iff (pow_ne_zero 3 hz) (pow_ne_zero 3 hz')]
  case false.true | true.false | true.true => simp [eqPt_iff_cast, hT, hU, affineClass]

/-- Settles O36: `eq` is equality of `affineClass`, the affine point of a finite triple and none of an identity triple. -/
theorem pointEqualityIsAnEquivalence : Obligations.PointEqualityIsAnEquivalence := by
  unfold Obligations.PointEqualityIsAnEquivalence
  intro c _ T U V
  simp only [eqPt_iff_affineClass]
  refine ⟨trivial, Eq.symm, Eq.trans, fun hT => ?_, fun hT hU => ?_⟩
  · rw [affineClass_of_isId hT]
    cases hU : c.isId U with
    | true => simp [affineClass_of_isId hU]
    | false => simp [affineClass_of_finite hU]
  · rw [affineClass_of_finite hT, affineClass_of_finite hU, Option.some.injEq, Prod.mk.injEq]

end Equality

end Sys2Proof.Proofs.PointLaw
end

section
/-! SUPPORT. The point commands (43_point.md R180 to R190): the triple each of them leaves in its destination, in the terms of the
claims. -/

namespace Sys2Proof.Proofs.PointCommands

open Sys2Proof.Machine Sys2Proof.Laws Sys2Proof.Proofs.PointLaw

section Registers

variable {s t : State} {a d : PIdx} {T : Triple}

/-! ### The register a point command reads and the one it leaves -/

/-- A finite point register, as the commands read it (43_point.md R172). -/
theorem hasCoords_pVal (h : s.zMod a ≠ 0) : HasCoords s.par.curve (s.pVal a) (s.xMod a) (s.yMod a) (s.zMod a) := cast_pVal s h

theorem not_isId_pVal (h : s.zMod a ≠ 0) : ¬ s.par.curve.isId (s.pVal a) = true := mt (isId_pVal s a).1 h

/-- A command that writes the canonical triple `T` into `P[d]`: its frame, and what `P[d]` then holds (43_point.md R173). -/
theorem writes_canonical {i : Instr} (hexec : exec i s = .next (s.writeP d T).complete) (hT : s.par.curve.Canonical T) :
    ∃ t, exec i s = .next t ∧ Frame s t [] [d] ∧ t.pOk d = true ∧ t.pRaw d = T :=
  ⟨_, hexec, frame_writeP s d T, writeP_complete_pOk s d T, writeP_complete_pRaw s d T (fits_of_canonical hT)⟩

/-- A command that writes a canonical representative of `Q` into `P[d]`. -/
theorem writes_point {i : Instr} {Q : s.par.curve.weier.Point} (hexec : exec i s = .next (s.writeP d T).complete)
    (hT : s.par.curve.Canonical T) (hQ : s.par.curve.Rep T Q) :
    ∃ t, exec i s = .next t ∧ Frame s t [] [d] ∧ t.pOk d = true ∧ s.holdsPoint t d Q :=
  have ⟨t, hnext, hframe, hok, _, _, _, hholds⟩ := CurveLoads.writes_triple hexec hT
  ⟨t, hnext, hframe, hok, (hholds Q).2 hQ⟩

/-- The coordinates of a register that holds `T`, mod p. -/
theorem coords_of_pRaw {c : Curve} {x y z : ZMod c.p.toNat} (h : t.pRaw d = T) (hT : HasCoords c T x y z) :
    (t.p[d].x.val.toNat : ZMod c.p.toNat) = x ∧ (t.p[d].y.val.toNat : ZMod c.p.toNat) = y
      ∧ (t.p[d].z.val.toNat : ZMod c.p.toNat) = z := by
  subst h
  simpa only [HasCoords, State.pRaw, Int.cast_natCast] using hT

/-- The coordinates of a register that holds the triple `(x, y, z)`. -/
theorem int_of_pRaw {x y z : Int} (h : t.pRaw d = ⟨x, y, z⟩) :
    (t.p[d].x.val.toNat : Int) = x ∧ (t.p[d].y.val.toNat : Int) = y ∧ (t.p[d].z.val.toNat : Int) = z :=
  Triple.mk.inj h

theorem toNat_of_pRaw {x y z : Nat} (h : t.pRaw d = ⟨x, y, z⟩) :
    t.p[d].x.val.toNat = x ∧ t.p[d].y.val.toNat = y ∧ t.p[d].z.val.toNat = z := by
  exact_mod_cast int_of_pRaw h

/-- The words of a register that holds `O_CAN` (43_point.md R170). -/
theorem val_of_pRaw_oCan (h : t.pRaw d = oCan) :
    t.p[d].x.val = 1#256 ∧ t.p[d].y.val = 1#256 ∧ t.p[d].z.val = 0#256 := by
  obtain ⟨hx, hy, hz⟩ := toNat_of_pRaw (x := 1) (y := 1) (z := 0) h
  exact ⟨BitVec.eq_of_toNat_eq hx, BitVec.eq_of_toNat_eq hy, BitVec.eq_of_toNat_eq hz⟩

end Registers

/-! ### Every point result is canonical (43_point.md R173) -/

section Canonical

variable {c : Curve} {s : State} {d : PIdx} {o : Out}

/-- An outcome that goes on without an error leaves a canonical triple in `P[d]`, all its words valid. -/
def LeavesCanonical (c : Curve) (d : PIdx) (o : Out) : Prop :=
  ∀ t, o = .next t → t.status.err = 0#4 → t.pOk d = true ∧ c.Canonical (t.pRaw d)

theorem leavesCanonical_writeP {T : Triple} (hT : c.Canonical T) (s : State) (d : PIdx) :
    LeavesCanonical c d (finish (s.writeP d T)) := by
  rintro t h -
  obtain rfl := (finish_next _ _).1 h
  rw [writeP_complete_pRaw s d T (fits_of_canonical hT)]
  exact ⟨writeP_complete_pOk s d T, hT⟩

theorem code_ne_zero (e : CmdError) : e.code ≠ 0#4 := by cases e <;> simp [CmdError.code]

theorem leavesCanonical_fail (s : State) (d : PIdx) (e : CmdError) : LeavesCanonical c d (fail s e) := by
  intro t h herr
  obtain rfl := (fail_next _ _ _).1 h
  exact absurd herr (code_ne_zero e)

theorem leavesCanonical_needs {ok : Bool} (h : LeavesCanonical c d o) : LeavesCanonical c d (needs ok o) :=
  fun t ht => h t (needs_next ht)

theorem leavesCanonical_ite {p : Prop} {_ : Decidable p} {k l : Out} (hk : LeavesCanonical c d k) (hl : LeavesCanonical c d l) :
    LeavesCanonical c d (if p then k else l) := by
  split
  · exact hk
  · exact hl

theorem leavesCanonical_scalarCommon {mul : Nat → Triple → Out} {k : SIdx} {a : PIdx}
    (hmul : ∀ n, LeavesCanonical c d (mul n (s.pVal a))) : LeavesCanonical c d (scalarCommon mul d k a s) :=
  leavesCanonical_needs <| leavesCanonical_ite (leavesCanonical_fail _ _ _) <|
    leavesCanonical_ite (leavesCanonical_writeP canonical_oCan _ _) (hmul _)

theorem leavesCanonical_plainMultiply (hp : 0 < s.par.curve.p.toNat) (d : PIdx) (k : SIdx) (a : PIdx) :
    LeavesCanonical s.par.curve d (plainMultiply d k a s) :=
  leavesCanonical_scalarCommon fun n => leavesCanonical_writeP (canonical_mulLtr hp (canonical_pVal s hp a) n) _ _

theorem leavesCanonical_verifiedMultiply (hp : 0 < s.par.curve.p.toNat) (d : PIdx) (k : SIdx) (a : PIdx) :
    LeavesCanonical s.par.curve d (verifiedMultiply d k a s) :=
  leavesCanonical_scalarCommon fun n => leavesCanonical_ite (leavesCanonical_fail _ _ _)
    (leavesCanonical_writeP (canonical_mulLtr hp (canonical_pVal s hp a) n) _ _)

theorem leavesCanonical_decomp (hc : s.par.curve.Admitted) (d : PIdx) (x b : FIdx) :
    LeavesCanonical s.par.curve d (execDecomp d x b s) := by
  have hp := Admitted.pos hc
  refine leavesCanonical_needs ?_
  dsimp only
  split
  · next r hroot =>
    obtain ⟨h0, hlt, -, -⟩ := sqrtP_some hp hroot
    exact leavesCanonical_writeP
      (canonical_one (Admitted.one_lt hc) ⟨emod_nonneg_pI hp _, emod_lt_pI hp _⟩ (pickRoot_range hp ⟨h0, hlt⟩ _)) _ _
  · exact leavesCanonical_fail _ _ _

/-- The affine triple TOAFF writes (43_point.md R190). -/
theorem canonical_affine (hc : s.par.curve.Admitted) (T : Triple) :
    s.par.curve.Canonical ⟨(s.par.curve.affine T).1, (s.par.curve.affine T).2, 1⟩ :=
  have ⟨hx, hy⟩ := affine_range (Admitted.pos hc) T
  canonical_one (Admitted.one_lt hc) hx hy

/-- All commands at once: the triple a command writes is one of the group law, `red3` of a source, or has Z = 1. -/
theorem exec_leavesCanonical (hc : s.par.curve.Admitted) {i : Instr} (hd : .p d ∈ destsOf i) :
    LeavesCanonical s.par.curve d (exec i s) := by
  have hp := Admitted.pos hc
  have hval := canonical_pVal s hp
  cases i with
  | pldg => cases List.mem_singleton.1 hd; exact leavesCanonical_writeP (canonical_gen hc) _ _
  | pldo => cases List.mem_singleton.1 hd; exact leavesCanonical_writeP canonical_oCan _ _
  | pset d x y z =>
    cases List.mem_singleton.1 hd
    exact leavesCanonical_needs (leavesCanonical_writeP (canonical_red3 hp _) _ _)
  | pneg d a =>
    cases List.mem_singleton.1 hd
    exact leavesCanonical_needs (leavesCanonical_writeP (canonical_neg hp (hval a)) _ _)
  | padd d a b =>
    cases List.mem_singleton.1 hd
    exact leavesCanonical_needs (leavesCanonical_writeP (canonical_add hp (hval a) (hval b)) _ _)
  | pdbl d a =>
    cases List.mem_singleton.1 hd
    exact leavesCanonical_needs (leavesCanonical_writeP (canonical_dbl hp _) _ _)
  | toaff d a =>
    cases List.mem_singleton.1 hd
    exact leavesCanonical_needs <|
      leavesCanonical_ite (leavesCanonical_fail _ _ _) (leavesCanonical_writeP (canonical_affine hc _) _ _)
  | smul d k a =>
    cases List.mem_singleton.1 hd
    exact leavesCanonical_ite (leavesCanonical_verifiedMultiply hp d k a) (leavesCanonical_plainMultiply hp d k a)
  | vsmul d k a => cases List.mem_singleton.1 hd; exact leavesCanonical_verifiedMultiply hp d k a
  | decomp d x b => cases List.mem_singleton.1 hd; exact leavesCanonical_decomp hc d x b
  | _ => simp [destsOf] at hd

/-- Settles O31: `exec_leavesCanonical` for the destinations, the frame of all commands for the other point registers. -/
theorem writtenPointsAreCanonical : Obligations.WrittenPointsAreCanonical := by
  unfold Obligations.WrittenPointsAreCanonical
  intro i s t j hc _ hexec herr
  exact ⟨fun hj => exec_leavesCanonical hc hj t hexec herr, (Commands.exec_framed hexec).pOther j⟩

end Canonical

/-! ### PSET and PGET (43_point.md R180, R181) -/

section Access

variable {s : State}

/-- `red3` of three field registers. -/
theorem red3_fVal (x y z : FIdx) : s.par.curve.red3 ⟨s.fVal x, s.fVal y, s.fVal z⟩ = if s.fNat z % s.modulus = 0 then oCan
    else ⟨(s.fNat x % s.modulus : Nat), (s.fNat y % s.modulus : Nat), (s.fNat z % s.modulus : Nat)⟩ := by
  have hmod (i : FIdx) : s.fVal i % s.par.curve.pI = (s.fNat i % s.modulus : Nat) := (Int.natCast_mod _ _).symm
  simp only [Curve.red3, isId_iff_emod, hmod, Int.natCast_eq_zero]

/-- A field register into which a raw word has been written holds it. -/
theorem written_natCast_val (v : Word256) : (Reg.written (v.toNat : Int)).val = v := by
  rw [written_val, BitVec.ofInt_natCast, BitVec.ofNat_toNat, BitVec.setWidth_eq]

/-- The three field registers PGET writes, which are different. -/
theorem writeF3_get {x y z : FIdx} (hxy : x ≠ y) (hxz : x ≠ z) (hyz : y ≠ z) (u v w : Int) :
    let t := (((s.writeF x u).writeF y v).writeF z w).complete
    t.f[x] = Reg.written u ∧ t.f[y] = Reg.written v ∧ t.f[z] = Reg.written w := by
  simp only [complete_f, writeF_get, hxy.symm, hxz.symm, hyz.symm, if_true, if_false, and_self]

/-- Settles O30: PSET writes `red3` of its sources, and PGET's three writes go to different registers. -/
theorem psetReducesAndPgetCopies : Obligations.PsetReducesAndPgetCopies := by
  unfold Obligations.PsetReducesAndPgetCopies
  constructor
  · intro s d x y z hp hx hy hz
    obtain ⟨t, hexec, hframe, hok, hraw⟩ := writes_canonical (exec_pset hx hy hz d) (canonical_red3 (Nat.zero_lt_of_lt hp) _)
    rw [red3_fVal] at hraw
    refine ⟨t, hexec, hframe, hok, fun h => ?_, fun h => ?_⟩
    · exact val_of_pRaw_oCan (hraw.trans (if_pos h))
    · exact toNat_of_pRaw (hraw.trans (if_neg h))
  · intro s x y z a hwf ha
    obtain ⟨hxy, hxz, hyz⟩ := Encoding.pget_wf_iff.1 hwf
    obtain ⟨hfx, hfy, hfz⟩ := writeF3_get (s := s) hxy hxz hyz (s.pRaw a).x (s.pRaw a).y (s.pRaw a).z
    refine ⟨_, exec_pget ha x y z, frame_writeF3 s x y z _ _ _, ?_⟩
    rw [State.fOk, State.fOk, State.fOk, hfx, hfy, hfz]
    exact ⟨written_allValid _, written_allValid _, written_allValid _, written_natCast_val _, written_natCast_val _,
      written_natCast_val _⟩

end Access

/-! ### The group law (43_point.md R174 to R176, R183) -/

/-- Settles O32: the formulas represent the sum, the double and the negative (Laws/GroupLaw.lean), and the result is written as it
is, since it is canonical. -/
theorem pointCommandsComputeTheGroupLaw : Obligations.PointCommandsComputeTheGroupLaw := by
  unfold Obligations.PointCommandsComputeTheGroupLaw
  intro s d a b _ Q R hc ha hb hQ hR
  have hp := Admitted.pos hc
  have hvalQ := (rep_pVal s a Q).2 hQ
  have hvalR := (rep_pVal s b R).2 hR
  have hcanA := canonical_pVal s hp a
  exact ⟨writes_point (exec_padd ha hb d) (canonical_add hp hcanA (canonical_pVal s hp b)) (rep_add hc hvalQ hvalR),
    writes_point (exec_pdbl ha d) (canonical_dbl hp _) (rep_dbl hc hvalQ),
    writes_point (exec_pneg ha d) (canonical_neg hp hcanA) (rep_neg hvalQ)⟩

/-- Settles O33: `dbl_coords` and `neg_coords` on the operand as the commands read it. -/
theorem doubleAndNegateCoordinates : Obligations.DoubleAndNegateCoordinates := by
  unfold Obligations.DoubleAndNegateCoordinates
  intro s d a hp ha
  have hpos : 0 < s.par.curve.p.toNat := Nat.zero_lt_of_lt hp
  constructor
  · obtain ⟨t, hexec, hframe, hok, hraw⟩ := writes_canonical (exec_pdbl ha d) (canonical_dbl hpos (s.pVal a))
    refine ⟨t, hexec, hframe, hok, ?_⟩
    intro X Y Z A S M
    by_cases hz : Z = 0
    · rw [if_pos (.inl hz), hraw, Curve.dbl, if_pos ((isId_pVal s a).2 hz), oCan]
    · have hdbl := dbl_coords (hasCoords_pVal hz) hz
      rw [cast_aI] at hdbl
      by_cases h2 : 2 * Y * Z = 0
      · rw [if_pos (.inr h2), hraw]
        exact (if_pos h2).mp hdbl
      · rw [if_neg (not_or.2 ⟨hz, h2⟩)]
        exact coords_of_pRaw hraw ((if_neg h2).mp hdbl)
  · obtain ⟨t, hexec, hframe, hok, hraw⟩ := writes_canonical (exec_pneg ha d) (canonical_neg hpos (canonical_pVal s hpos a))
    refine ⟨t, hexec, hframe, hok, ?_⟩
    by_cases hz : s.zMod a = 0
    · rw [if_pos hz, hraw, Curve.neg, if_pos ((isId_pVal s a).2 hz), oCan]
    · rw [if_neg hz]
      exact coords_of_pRaw hraw (neg_coords (hasCoords_pVal hz) hz)

/-- Settles O34: step 1 on an identity operand, else `add_coords`, which splits as steps 2 to 4 of R176 do. -/
theorem addCoordinates : Obligations.AddCoordinates := by
  unfold Obligations.AddCoordinates
  intro s d a b hp ha hb
  have hpos : 0 < s.par.curve.p.toNat := Nat.zero_lt_of_lt hp
  refine ⟨_, _, exec_padd ha hb d, frame_writeP s d _, writeP_complete_pOk s d _, exec_pdbl ha d, ?_⟩
  have hraw := writeP_complete_pRaw s d _
    (fits_of_canonical (canonical_add hpos (canonical_pVal s hpos a) (canonical_pVal s hpos b)))
  intro U1 U2 S1 S2 H R X3 Z3
  by_cases hza : s.zMod a = 0
  · rw [if_pos hza, hraw, add_of_left_isId ((isId_pVal s a).2 hza)]
  by_cases hzb : s.zMod b = 0
  · rw [if_neg hza, if_pos hzb, hraw, add_of_right_isId (not_isId_pVal hza) ((isId_pVal s b).2 hzb)]
  have hadd := add_coords (hasCoords_pVal hza) (hasCoords_pVal hzb) hza hzb
  rw [if_neg hza, if_neg hzb]
  by_cases h2 : U1 = U2 ∧ S1 = S2
  · rw [if_pos h2, (if_pos h2).mp hadd]
  by_cases h3 : U1 = U2 ∧ S1 = -S2
  · rw [if_neg h2, if_pos h3, hraw]
    exact (if_pos h3).mp ((if_neg h2).mp hadd)
  replace hadd := (if_neg h3).mp ((if_neg h2).mp hadd)
  rw [if_neg h2, if_neg h3]
  by_cases h4 : Z3 = 0
  · rw [if_pos h4, hraw]
    exact (if_pos h4).mp hadd
  · rw [if_neg h4]
    exact coords_of_pRaw hraw ((if_neg h4).mp hadd)

/-! ### The tests and the conversion (43_point.md R186 to R190) -/

/-- Settles O35: PEQ's test is `eqPt_iff_cast`, PTST's is Z mod p of the raw register. -/
theorem equalityAndIdentityTestsWriteEq : Obligations.EqualityAndIdentityTestsWriteEq := by
  unfold Obligations.EqualityAndIdentityTestsWriteEq
  intro s a b _ ha hb
  refine ⟨⟨_, exec_peq ha hb, frame_writeEq s _, ?_⟩, _, exec_ptst ha, frame_writeEq s _, ?_⟩
  · show s.par.curve.eqPt (s.pVal a) (s.pVal b) = true ↔ _
    by_cases hz : s.zMod a ≠ 0 ∧ s.zMod b ≠ 0
    · obtain ⟨hza, hzb⟩ := hz
      rw [eqPt_iff_of_finite (hasCoords_pVal hza) (hasCoords_pVal hzb) hza hzb]
      simp [hza, hzb]
    · rw [eqPt_iff_cast, isId_pVal, isId_pVal]
      tauto
  · show s.par.curve.isId (s.pRaw a) = true ↔ _
    rw [isId_pRaw, zMod_eq_zero_iff]

/-- Settles O37: the block tests the curve equation times `Z⁶`. -/
theorem pvalAcceptsExactlyTheCurve : Obligations.PvalAcceptsExactlyTheCurve := by
  unfold Obligations.PvalAcceptsExactlyTheCurve
  intro s a _ ha x y on
  have hon : s.par.curve.onCurve (s.pVal a) = true ↔ s.zMod a = 0 ∨ on := by
    by_cases hz : s.zMod a = 0
    · exact iff_of_true ((onCurve_iff _).2 (.inl ((isId_iff _ _).1 ((isId_pVal s a).2 hz)))) (.inl hz)
    · rw [onCurve_iff_affine (hasCoords_pVal hz) hz, cast_aI, cast_bI, or_iff_right hz]
  refine ⟨fun h => ⟨_, (exec_pval ha).trans (if_pos (hon.2 h)), frame_complete s⟩, fun hz hoff => ?_⟩
  exact (exec_pval ha).trans (if_neg fun h => (hon.1 h).elim hz hoff)

/-- Settles O38: the affine coordinates are reduced, so the register holds them as they are. -/
theorem toaffGivesAffineCoordinates : Obligations.ToaffGivesAffineCoordinates := by
  unfold Obligations.ToaffGivesAffineCoordinates
  intro s d a hc ha
  refine ⟨fun hz => ?_, fun hz => (exec_toaff ha d).trans (if_pos ((isId_pVal s a).2 hz))⟩
  obtain ⟨hx, hy⟩ := cast_affine s hc hz
  obtain ⟨⟨hx0, hxlt⟩, hy0, hylt⟩ := affine_range (Admitted.pos hc) (s.pVal a)
  obtain ⟨t, hexec, hframe, hok, hraw⟩ := writes_canonical ((exec_toaff ha d).trans (if_neg (not_isId_pVal hz)))
    (canonical_affine hc (s.pVal a))
  obtain ⟨hxval, hyval, hzval⟩ := int_of_pRaw hraw
  rw [← hxval, Int.cast_natCast] at hx
  rw [← hyval, Int.cast_natCast] at hy
  rw [← hxval, pI_eq] at hxlt
  rw [← hyval, pI_eq] at hylt
  exact ⟨t, hexec, hframe, hok, by exact_mod_cast hxlt, by exact_mod_cast hylt, BitVec.eq_of_toNat_eq (by exact_mod_cast hzval),
    hx, hy⟩

end Sys2Proof.Proofs.PointCommands
end

section
/-! SUPPORT. SMUL (44_scalar.md R210 to R216): the triple it writes, in closed form, and the multiple that triple represents. -/

namespace Sys2Proof.Proofs.ScalarCommands

open Sys2Proof.Machine Sys2Proof.Laws

set_option exponentiation.threshold 1000

section Registers

variable {s : State} {d a : PIdx} {T : Triple}

/-! ### What the next command reads after a point command -/

theorem pVal_writeP_same (hc : s.par.curve.Admitted) (hT : s.par.curve.Canonical T) : (s.writeP d T).complete.pVal d = T := by
  rw [State.pVal, writeP_complete_pRaw s d T (fits_of_canonical hT)]
  exact red3_of_canonical hc hT

theorem writeP_complete_get_other (h : d ≠ a) : (s.writeP d T).complete.p[a] = s.p[a] :=
  (frame_writeP s d T).pOther a (mt List.mem_singleton.1 h.symm)

theorem pVal_writeP_other (h : d ≠ a) : (s.writeP d T).complete.pVal a = s.pVal a := by
  simp only [State.pVal, State.pRaw, writeP_complete_get_other h, complete_par, writeP_par]

theorem readableP_writeP_other (h : d ≠ a) (ha : s.readableP a) : (s.writeP d T).complete.readableP a := by
  simpa only [State.readableP, State.pReads, writeP_complete_get_other h, complete_par, writeP_par] using ha

/-- PDBL in place, on a triple a command has just written (43_point.md R184). -/
theorem exec_pdbl_written (hc : s.par.curve.Admitted) (hT : s.par.curve.Canonical T) (d : PIdx) :
    exec (.pdbl d d) (s.writeP d T).complete = .next ((s.writeP d T).complete.writeP d (s.par.curve.dbl T)).complete := by
  rw [exec_pdbl (readableP_of_pOk (writeP_complete_pOk s d T)), pVal_writeP_same hc hT]
  rfl

/-- PADD of another register, in place, to a triple a command has just written (43_point.md R185). -/
theorem exec_padd_written (hc : s.par.curve.Admitted) (hT : s.par.curve.Canonical T) (h : d ≠ a) (ha : s.readableP a) :
    exec (.padd d d a) (s.writeP d T).complete
      = .next ((s.writeP d T).complete.writeP d (s.par.curve.add T (s.pVal a))).complete := by
  rw [exec_padd (readableP_of_pOk (writeP_complete_pOk s d T)) (readableP_writeP_other h ha), pVal_writeP_same hc hT,
    pVal_writeP_other h]
  rfl

end Registers

/-! ### The triple SMUL writes -/

/-- The triple SMUL writes for the scalar `S[k]` and an operand `P[a]` on the curve (44_scalar.md R215). -/
def smulTriple (s : State) (k : SIdx) (a : PIdx) : Triple :=
  if s.scalar k = 0 ∨ s.par.curve.isId (s.pVal a) = true then oCan else s.par.curve.mulLtr (s.scalar k) (s.pVal a)

section Triple

variable {s : State} {k : SIdx} {a : PIdx}

theorem smulTriple_shortcut (h : s.scalar k = 0 ∨ s.par.curve.isId (s.pVal a) = true) : smulTriple s k a = oCan := if_pos h

theorem smulTriple_finite (h0 : s.scalar k ≠ 0) (hz : s.zMod a ≠ 0) :
    smulTriple s k a = s.par.curve.mulLtr (s.scalar k) (s.pVal a) :=
  if_neg (not_or.2 ⟨h0, mt (isId_pVal s a).1 hz⟩)

theorem smulTriple_congr {k' : SIdx} (h : s.scalar k' = s.scalar k) : smulTriple s k' a = smulTriple s k a := by
  rw [smulTriple, smulTriple, h]

theorem canonical_smulTriple (hc : s.par.curve.Admitted) (k : SIdx) (a : PIdx) : s.par.curve.Canonical (smulTriple s k a) := by
  have hp := Admitted.pos hc
  rw [smulTriple]
  split
  · exact canonical_oCan
  · exact canonical_mulLtr hp (canonical_pVal s hp a) _

/-- The first iteration of `mul_ltr` is `add(O_CAN, T) = T`, so the scalar 1 gives the operand itself (44_scalar.md R213). -/
theorem mulLtr_one (c : Curve) (T : Triple) : c.mulLtr 1 T = T := by
  have hdbl : c.dbl oCan = oCan := if_pos (isId_oCan c)
  have hadd : c.add oCan T = T := if_pos (isId_oCan c)
  rw [Curve.mulLtr, show bitlen 1 = 1 from rfl, Curve.ltrLoop, hdbl, hadd]
  rfl

/-- One more bit of the scalar: the triple of `2m + b` is that of `m` doubled, and the operand added where `b` is 1. -/
theorem smulTriple_bit {j : SIdx} (b : Bool) (hz : s.zMod a ≠ 0) (hj : 1 ≤ s.scalar j) (hk : s.scalar k = 2 * s.scalar j + b.toNat) :
    smulTriple s k a =
      let D := s.par.curve.dbl (smulTriple s j a)
      if b then s.par.curve.add D (s.pVal a) else D := by
  rw [smulTriple_finite (by omega) hz, smulTriple_finite (by omega) hz, hk]
  exact mulLtr_bit _ hj b _

/-- Multiples of an element that `n` annihilates depend on the scalar mod `n` alone. -/
theorem emod_zsmul {A : Type*} [AddCommGroup A] {Q : A} {n : Nat} (hn : n • Q = 0) (v : Int) : (v % (n : Int)) • Q = v • Q :=
  (zpow_eq_zpow_emod' (x := Multiplicative.ofAdd Q) v hn).symm

variable [Fact s.par.curve.p.toNat.Prime] {Q : s.par.curve.weier.Point}

/-- The shortcuts and the loop alike give the multiple by the reduced scalar (44_scalar.md R213, R214). -/
theorem rep_smulTriple (hc : s.par.curve.Admitted) (k : SIdx) (hQ : s.holdsPoint s a Q) :
    s.par.curve.Rep (smulTriple s k a) ((s.sc[k].val.toInt % (s.par.curve.n.toNat : Int)) • Q) := by
  by_cases h : s.scalar k = 0 ∨ s.par.curve.isId (s.pVal a) = true
  · rw [smulTriple_shortcut h, scalar_zsmul_eq_zero hc hQ h]
    exact (rep_zero_iff _).2 (isId_oCan _)
  · rw [smulTriple, if_neg h]
    exact rep_mulLtr_scalar hc k hQ

/-- On a point of order dividing `n` the reduction of the scalar makes no difference (44_scalar.md R211, R216). -/
theorem rep_smulTriple_of_order (hc : s.par.curve.Admitted) (k : SIdx) (hQ : s.holdsPoint s a Q) (hn : s.par.curve.n.toNat • Q = 0) :
    s.par.curve.Rep (smulTriple s k a) (s.sc[k].val.toInt • Q) := by
  rw [← emod_zsmul hn]
  exact rep_smulTriple hc k hQ

end Triple

/-! ### What SMUL does -/

section Exec

variable {s : State} {k : SIdx} {a : PIdx}

/-- With the VERIFY sample 1, SMUL is VSMUL (44_scalar.md R215). -/
theorem exec_smul_verified (hs : s.verifySample = true) (d : PIdx) (k : SIdx) (a : PIdx) :
    exec (.smul d k a) s = exec (.vsmul d k a) s := if_pos hs

/-- The validation of R212 comes before the shortcuts and before either path. -/
theorem exec_smul_offCurve (hk : s.readableS k) (ha : s.readableP a) (hoff : s.par.curve.onCurve (s.pVal a) = false) (d : PIdx) :
    exec (.smul d k a) s = .next (s.raise .offCurve) := by
  cases hs : s.verifySample with
  | false => rw [exec_smul_plain hk ha hs, if_pos hoff]
  | true => rw [exec_smul_verified hs, exec_vsmul hk ha, if_pos hoff]

/-- The shortcuts of R214 are the same with either sample. -/
theorem exec_smul_shortcut (hk : s.readableS k) (ha : s.readableP a) (hon : s.par.curve.onCurve (s.pVal a) = true)
    (h : s.scalar k = 0 ∨ s.par.curve.isId (s.pVal a) = true) (d : PIdx) :
    exec (.smul d k a) s = .next (s.writeP d oCan).complete := by
  have hon' := ne_false_of_eq_true hon
  cases hs : s.verifySample with
  | false => rw [exec_smul_plain hk ha hs, if_neg hon', if_pos h]
  | true => rw [exec_smul_verified hs, exec_vsmul hk ha, if_neg hon', if_pos h]

/-- SMUL of an operand on the curve writes `smulTriple`, where no fault can be detected (44_scalar.md R215). -/
theorem exec_smul (hc : s.par.curve.Admitted) (hk : s.readableS k) (ha : s.readableP a)
    (hv : s.verifySample = false ∨ s.par.faultModel = .none) (hQ : ∃ Q, s.holdsPoint s a Q) (d : PIdx) :
    exec (.smul d k a) s = .next (s.writeP d (smulTriple s k a)).complete := by
  have : Fact s.par.curve.p.toNat.Prime := ⟨hc.pPrime⟩
  by_cases h : s.scalar k = 0 ∨ s.par.curve.isId (s.pVal a) = true
  · obtain ⟨Q, hQ⟩ := hQ
    rw [smulTriple_shortcut h]
    exact exec_smul_shortcut hk ha (onCurve_of_holdsPoint hc hQ) h d
  · obtain ⟨h0, hid⟩ := not_or.1 h
    have hz : s.zMod a ≠ 0 := mt (isId_pVal s a).2 hid
    rw [smulTriple_finite h0 hz]
    exact exec_smul_finite hc hk ha hv hQ hz h0 d

end Exec

/-! ### The obligations -/

/-- Settles O39: `rep_smulTriple`, and the validation before everything else. -/
theorem smulComputesTheMultiple : Obligations.SmulComputesTheMultiple := by
  unfold Obligations.SmulComputesTheMultiple
  intro s d k a _ hc hk ha
  refine ⟨fun hv Q hQ => ?_, fun hnone => exec_smul_offCurve hk ha (onCurve_of_not_holdsPoint hc hnone) d⟩
  obtain ⟨t, hexec, hframe, hok, -, -, -, hholds⟩ :=
    CurveLoads.writes_triple (exec_smul hc hk ha hv ⟨Q, hQ⟩ d) (canonical_smulTriple hc k a)
  exact ⟨t, hexec, hframe, hok, (hholds _).2 (rep_smulTriple hc k hQ),
    fun hn => (hholds _).2 (rep_smulTriple_of_order hc k hQ hn)⟩

/-- Settles O40: `smulTriple` depends on the reduced scalar alone, and PDBL and PADD take it from `m` to `2m` and `2m + 1` as one
more bit of the scalar does. -/
theorem smulExactTriples : Obligations.SmulExactTriples := by
  unfold Obligations.SmulExactTriples
  intro s d k a hc hk ha hv hQ
  have hraw := writeP_complete_pRaw s d _ (fits_of_canonical (canonical_smulTriple hc k a))
  simp only [← natCast_scalar hc]
  refine ⟨_, exec_smul hc hk ha hv hQ d, fun h => ?_, fun h1 hz => ?_, fun k' hk' heq => ?_, ?_⟩
  · rw [hraw, smulTriple_shortcut (h.imp Int.natCast_eq_zero.1 (isId_pVal s a).2), oCan]
  · have h1 : s.scalar k = 1 := by exact_mod_cast h1
    rw [hraw, smulTriple_finite (by omega) hz, h1, mulLtr_one]
  · rw [exec_smul hc hk' ha hv hQ d, smulTriple_congr (Int.natCast_inj.1 heq)]
  · intro j e m hj hz hea hm hjm
    obtain rfl : s.scalar j = m := Int.natCast_inj.1 hjm
    have hcan := canonical_smulTriple hc j a
    have hcan2 := canonical_dbl (Admitted.pos hc) (smulTriple s j a)
    refine ⟨_, _, _, exec_smul hc hj ha hv hQ e, exec_pdbl_written hc hcan e,
      exec_padd_written hc hcan2 hea (readableP_writeP_other hea ha), fun hk2 => ?_, fun hk2 => ?_⟩
    · rw [writeP_complete_get, writeP_complete_get, smulTriple_bit false hz hm (by exact_mod_cast hk2)]
      rfl
    · rw [writeP_complete_get, writeP_complete_get, smulTriple_bit true hz hm (by exact_mod_cast hk2), pVal_writeP_other hea]
      rfl

/-- Settles O41: the three products are represented by `smulTriple`, so the guarantees are those of the group of points. -/
theorem smulGuarantees : Obligations.SmulGuarantees := by
  unfold Obligations.SmulGuarantees
  intro s d j k m a _ Q hc hj hk hm ha hv hQ hn
  have hexec {i : SIdx} (hi : s.readableS i) := exec_smul hc hi ha hv ⟨Q, hQ⟩ d
  have hrep (i : SIdx) : s.par.curve.Rep ((s.writeP d (smulTriple s i a)).complete.pVal d) (s.sc[i].val.toInt • Q) := by
    rw [pVal_writeP_same hc (canonical_smulTriple hc i a)]
    exact rep_smulTriple_of_order hc i hQ hn
  refine ⟨_, _, _, hexec hj, hexec hk, hexec hm, fun hsum => ?_, fun h => ?_, fun h1 => ?_⟩
  · exact (eqPt_iff (hrep m) (rep_add hc (hrep j) (hrep k))).2 (by rw [hsum, add_zsmul])
  · have hzero : s.sc[j].val.toInt • Q = 0 := by
      obtain h | h := h
      · rw [h, natCast_zsmul, hn]
      · rw [h, zero_zsmul]
    exact (rep_zero_iff _).1 (hzero ▸ hrep j)
  · exact (eqPt_iff (hrep j) ((rep_pVal s a Q).2 hQ)).2 (by rw [h1, one_zsmul])

end Sys2Proof.Proofs.ScalarCommands
end

section
/-! SUPPORT. VSMUL (45_verified.md R230 to R234): where no fault is modelled it is SMUL with the sample 0, and under either fault
model it detects a fault or writes the triple SMUL writes. -/

namespace Sys2Proof.Proofs.Verified

open Sys2Proof.Machine Sys2Proof.Laws Sys2Proof.Proofs.PointCommands Sys2Proof.Proofs.ScalarCommands

set_option exponentiation.threshold 1000

variable {s : State} {k : SIdx} {a : PIdx}

/-! ### SMUL with the sample 0 -/

/-- With the VERIFY sample 0 SMUL runs path 1 alone, and what else is in the latch makes no difference (44_scalar.md R215). -/
theorem exec_smul_sample_zero (s : State) (w : Word) (d : PIdx) (k : SIdx) (a : PIdx) :
    exec (.smul d k a) { s with latch := some ⟨w, false⟩ } = plainMultiply d k a s := rfl

/-- Path 1 alone writes `smulTriple`, for an operand on the curve (44_scalar.md R215). -/
theorem plainMultiply_of_holdsPoint (hc : s.par.curve.Admitted) (hk : s.readableS k) (ha : s.readableP a)
    (hQ : ∃ Q, s.holdsPoint s a Q) (d : PIdx) :
    plainMultiply d k a s = .next (s.writeP d (smulTriple s k a)).complete :=
  exec_smul (s := { s with latch := some ⟨0, false⟩ }) hc hk ha (.inl rfl) hQ d

/-! ### Where no fault is modelled -/

/-- Multiplications that agree on the operands of the curve end alike: the validation stands before both (44_scalar.md R212). -/
theorem scalarCommon_congr {mul mul' : Nat → Triple → Out}
    (h : ∀ n, s.par.curve.onCurve (s.pVal a) = true → mul n (s.pVal a) = mul' n (s.pVal a)) (d : PIdx) (k : SIdx) :
    scalarCommon mul d k a s = scalarCommon mul' d k a s := by
  rw [scalarCommon, scalarCommon]
  cases hon : s.par.curve.onCurve (s.pVal a) with
  | false => rfl
  | true => rw [h _ hon]

/-- The comparison of the two paths never fails (45_verified.md R233, `FAULT_MODEL = none`). -/
theorem faultDetected_paths (hc : s.par.curve.Admitted) (hf : s.par.faultModel = .none) {T : Triple}
    (hT : s.par.curve.onCurve T = true) (n : Nat) :
    s.faultDetected (s.par.curve.mulLtr n T) (s.par.curve.mulRtl n T) = false := by
  have : Fact s.par.curve.p.toNat.Prime := ⟨hc.pPrime⟩
  rw [faultDetected_none hf, paths_agree hc hT, Bool.not_true]

/-- From every state, one whose sources may not be read among them, VSMUL is path 1 alone (45_verified.md R234). -/
theorem exec_vsmul_of_none (hc : s.par.curve.Admitted) (hf : s.par.faultModel = .none) (d : PIdx) (k : SIdx) (a : PIdx) :
    exec (.vsmul d k a) s = plainMultiply d k a s := by
  change verifiedMultiply d k a s = _
  rw [verifiedMultiply, plainMultiply]
  refine scalarCommon_congr (fun n hon => ?_) d k
  rw [faultDetected_paths hc hf hon, afterDetect_none hf]
  exact if_neg Bool.false_ne_true

/-! ### Under either fault model -/

/-- The validation stands before the draw (45_verified.md R230, R232). -/
theorem exec_vsmul_offCurve (hk : s.readableS k) (ha : s.readableP a) (hoff : s.par.curve.onCurve (s.pVal a) = false) (d : PIdx) :
    exec (.vsmul d k a) s = .next (s.raise .offCurve) :=
  (exec_vsmul hk ha d).trans (if_pos hoff)

/-- On an operand on the curve VSMUL reports a detected fault, for a finite operand and a scalar that is not 0 only, or it writes
`smulTriple`; either way only the draw counter moves besides (45_verified.md R232, R233). -/
theorem exec_vsmul_cases (hk : s.readableS k) (ha : s.readableP a) (hon : s.par.curve.onCurve (s.pVal a) = true) (d : PIdx) :
    ∃ n, (¬ (s.scalar k = 0 ∨ s.par.curve.isId (s.pVal a) = true)
          ∧ exec (.vsmul d k a) s = .next (State.raise { s with draws := n } .integrityCheckFailed))
        ∨ exec (.vsmul d k a) s = .next (State.writeP { s with draws := n } d (smulTriple s k a)).complete := by
  rw [exec_vsmul hk ha, if_neg (ne_false_of_eq_true hon), smulTriple]
  by_cases h : s.scalar k = 0 ∨ s.par.curve.isId (s.pVal a) = true
  · exact ⟨s.draws, .inr (by rw [if_pos h, if_pos h])⟩
  · obtain ⟨n, hn⟩ := afterDetect_eq s
    rw [if_neg h, if_neg h, hn]
    cases s.faultDetected (s.par.curve.mulLtr (s.scalar k) (s.pVal a)) (s.par.curve.mulRtl (s.scalar k) (s.pVal a)) with
    | true => exact ⟨n, .inl ⟨h, rfl⟩⟩
    | false => exact ⟨n, .inr rfl⟩

/-! ### The obligations -/

/-- Settles O43: VSMUL is path 1 alone, which is what SMUL runs with the sample 0. -/
theorem vsmulIsIndistinguishableFromSmul : Obligations.VsmulIsIndistinguishableFromSmul := by
  unfold Obligations.VsmulIsIndistinguishableFromSmul
  intro s d k a w hc hf
  rw [exec_vsmul_of_none hc hf, exec_smul_sample_zero]

/-- Settles O42: where no fault is modelled VSMUL writes `smulTriple`, which represents the multiple. -/
theorem vsmulComputesTheMultiple : Obligations.VsmulComputesTheMultiple := by
  unfold Obligations.VsmulComputesTheMultiple
  intro s d k a _ hc hk ha
  refine ⟨fun hf Q hQ => ?_, fun hnone => exec_vsmul_offCurve hk ha (onCurve_of_not_holdsPoint hc hnone) d⟩
  have hexec : exec (.vsmul d k a) s = .next (s.writeP d (smulTriple s k a)).complete :=
    (exec_vsmul_of_none hc hf d k a).trans (plainMultiply_of_holdsPoint hc hk ha ⟨Q, hQ⟩ d)
  exact writes_point hexec (canonical_smulTriple hc k a) (rep_smulTriple hc k hQ)

/-- Settles O44: the two ends of VSMUL, each compared with `smulTriple`, the triple SMUL writes. -/
theorem detectedFaultWritesNothing : Obligations.DetectedFaultWritesNothing := by
  unfold Obligations.DetectedFaultWritesNothing
  intro s d k a word _ Q hc _ hk ha hQ
  have hu := (exec_smul_sample_zero s word d k a).trans (plainMultiply_of_holdsPoint hc hk ha ⟨Q, hQ⟩ d)
  obtain ⟨n, ⟨hfinite, ht⟩ | ht⟩ := exec_vsmul_cases hk ha (onCurve_of_holdsPoint hc hQ) d
  · obtain ⟨h0, hid⟩ := not_or.1 hfinite
    have hne : Q ≠ 0 := by
      rintro rfl
      exact hid ((rep_zero_iff _).1 ((rep_pVal s a 0).2 hQ))
    exact ⟨_, _, ht, hu, .inl ⟨hne, mt (scalar_eq_iff hc k 0).2 h0, rfl⟩⟩
  · refine ⟨_, _, ht, hu, .inr ⟨frame_writeP s d _, writeP_complete_pOk _ d _, rfl, ?_⟩⟩
    exact (holdsPoint_writeP s d (canonical_smulTriple hc k a) _).2 (rep_smulTriple hc k hQ)

end Sys2Proof.Proofs.Verified
end

section
/-! SUPPORT. The codec commands (46_codec.md): the root DECOMP picks has the given parity, and a square root mod p is fixed by its
parity. -/

namespace Sys2Proof.Proofs.Codec

open Sys2Proof.Machine Sys2Proof.Laws Sys2Proof.Proofs.PointCommands

/-! ### Parity of a residue and of its negative -/

section Parity

variable {p : Nat} [Fact p.Prime] {W Y : ZMod p}

/-- The modulus is odd, so a residue other than 0 and its negative have opposite parities (46_codec.md R248). -/
theorem val_neg_mod_two (hodd : p % 2 = 1) (hY : Y ≠ 0) : (-Y).val % 2 = 1 - Y.val % 2 := by
  have hlt := ZMod.val_lt Y
  rw [ZMod.neg_val, if_neg hY]
  omega

/-- Of the two roots of a square, the parity fixes one. -/
theorem eq_of_sq_eq_of_parity (hodd : p % 2 = 1) (hsq : W ^ 2 = Y ^ 2) (hpar : Y ≠ 0 → W.val % 2 = Y.val % 2) : W = Y := by
  obtain h | h := sq_eq_sq_iff_eq_or_eq_neg.1 hsq
  · exact h
  · by_cases hY : Y = 0
    · rw [h, hY, neg_zero]
    · have hflip := val_neg_mod_two hodd hY
      rw [← h, hpar hY] at hflip
      omega

end Parity

/-! ### The root DECOMP picks -/

section Root

variable {c : Curve} {r : Int}

theorem admitted_odd (hc : c.Admitted) : c.p.toNat % 2 = 1 := by
  have := hc.pMod4
  omega

/-- The picked value is the root, where it has the given parity, or else its negative (46_codec.md R248). -/
theorem pickRoot_eq_or (c : Curve) (r : Int) (bit : Bool) :
    (r % 2 = if bit then 1 else 0) ∧ c.pickRoot r bit = r
      ∨ (r % 2 ≠ if bit then 1 else 0) ∧ c.pickRoot r bit = (c.pI - r) % c.pI := by
  by_cases h : r % 2 = if bit then 1 else 0
  · exact .inl ⟨h, if_pos h⟩
  · exact .inr ⟨h, if_neg h⟩

/-- Either way its square is that of the root. -/
theorem cast_pickRoot_sq (r : Int) (bit : Bool) :
    ((c.pickRoot r bit : Int) : ZMod c.p.toNat) ^ 2 = (r : ZMod c.p.toNat) ^ 2 := by
  obtain ⟨-, h⟩ | ⟨-, h⟩ := pickRoot_eq_or c r bit
  · rw [h]
  · rw [h, cast_emod_pI, Int.cast_sub, pI_eq, Int.cast_natCast, ZMod.natCast_self, zero_sub, neg_sq]

/-- A root other than 0 can be picked with either parity, the modulus being odd. -/
theorem pickRoot_emod_two (hc : c.Admitted) (h0 : 0 < r) (hlt : r < c.pI) (bit : Bool) :
    c.pickRoot r bit % 2 = if bit then 1 else 0 := by
  have hodd := admitted_odd hc
  have hneg : (c.pI - r) % c.pI = c.pI - r := Int.emod_eq_of_lt (by omega) (by omega)
  obtain ⟨hbit, h⟩ | ⟨hbit, h⟩ := pickRoot_eq_or c r bit
  · rw [h, hbit]
  · rw [h, hneg, pI_eq]
    cases bit <;> simp only [if_true, Bool.false_eq_true, if_false] at hbit ⊢ <;> omega

end Root

section Commands

variable {s : State} {a d : PIdx} {x b : FIdx}

/-- The affine y CBIT takes the parity of is the one reduced y over the register's point (43_point.md R179). -/
theorem affine_y_eq (hc : s.par.curve.Admitted) (hz : s.zMod a ≠ 0) {y : Nat} (hlt : y < s.modulus)
    (hy : (y : ZMod s.modulus) * s.zMod a ^ 3 = s.yMod a) : (s.par.curve.affine (s.pVal a)).2 = y := by
  have : Fact s.par.curve.p.toNat.Prime := ⟨hc.pPrime⟩
  obtain ⟨-, h0, hp⟩ := affine_range (Admitted.pos hc) (s.pVal a)
  have hcast : ((s.par.curve.affine (s.pVal a)).2 : ZMod s.modulus) = (y : Int) :=
    mul_right_cancel₀ (pow_ne_zero 3 hz) (by rw [(cast_affine s hc hz).2, Int.cast_natCast, hy])
  have hlt' : (y : Int) < s.par.curve.pI := Int.ofNat_lt.2 hlt
  rwa [cast_eq_cast_iff, Int.emod_eq_of_lt h0 hp, Int.emod_eq_of_lt (by omega) hlt'] at hcast

/-- Bit 0 of a field register is its parity. -/
theorem fBit0_eq (s : State) (b : FIdx) : (if s.fBit0 b then 1 else 0 : Int) = (s.fNat b % 2 : Nat) := by
  rw [State.fBit0, BitVec.getLsbD, Nat.testBit_zero, State.fNat]
  generalize s.f[b].val.toNat = n
  obtain h | h := Nat.mod_two_eq_zero_or_one n <;> rw [h] <;> rfl

/-- DECOMP finds a root exactly where the right side of the curve equation is a square (41_field.md R137). -/
theorem sqrtP_rhs_isSome_iff (hc : s.par.curve.Admitted) (x : FIdx) :
    (s.par.curve.sqrtP (s.par.curve.rhs (s.par.curve.red (s.fVal x)))).isSome ↔
      IsSquare ((s.fNat x : ZMod s.modulus) ^ 3 + (s.par.curve.a.toNat : ZMod s.modulus) * (s.fNat x : ZMod s.modulus)
        + (s.par.curve.b.toNat : ZMod s.modulus)) := by
  rw [← cast_rhs, Curve.rhs,
    sqrtP_isSome_iff ⟨hc.pPrime⟩ hc.pMod4 (emod_nonneg_pI (Admitted.pos hc) _) (emod_lt_pI (Admitted.pos hc) _)]

end Commands

/-! ### The obligations -/

/-- Settles O45: the affine y is reduced, so its parity is that of the y in the statement. -/
theorem cbitIsTheParityOfTheAffineY : Obligations.CbitIsTheParityOfTheAffineY := by
  unfold Obligations.CbitIsTheParityOfTheAffineY
  intro s d a hc ha
  refine ⟨fun y hz hlt hy => ?_, fun hz => (exec_cbit ha d).trans (if_pos ((isId_pVal s a).2 hz))⟩
  have hexec := (exec_cbit ha d).trans (if_neg (not_isId_pVal hz))
  rw [affine_y_eq hc hz hlt hy] at hexec
  have hval := writeF_complete_fNat s d ((y : Int) % 2) (by omega) (by omega)
  exact ⟨_, hexec, frame_writeF s d _, writeF_complete_fOk s d _, by exact_mod_cast hval⟩

/-- Settles O46: the candidate root exists exactly for the squares, and picking between it and its negative keeps the square. -/
theorem decompFindsThePointWithThisParity : Obligations.DecompFindsThePointWithThisParity := by
  unfold Obligations.DecompFindsThePointWithThisParity
  intro s d x b hc hx hb X rhs
  have hp := Admitted.pos hc
  have hexec := exec_decomp hx hb d
  have hiff : _ ↔ IsSquare rhs := sqrtP_rhs_isSome_iff hc x
  cases hroot : s.par.curve.sqrtP (s.par.curve.rhs (s.par.curve.red (s.fVal x))) with
  | none =>
    rw [hroot] at hexec hiff
    exact ⟨fun hsq => absurd (hiff.2 hsq) (by simp), fun _ => hexec⟩
  | some r =>
    rw [hroot] at hexec hiff
    refine ⟨fun _ => ?_, absurd (hiff.1 rfl)⟩
    obtain ⟨h0, hlt, hsq, -⟩ := sqrtP_some hp hroot
    have hr : (r : ZMod s.modulus) ^ 2 = rhs := by
      rw [pow_two, ← Int.cast_mul, ← cast_emod_pI, hsq, cast_rhs]
    have hpick := pickRoot_range hp ⟨h0, hlt⟩ (s.fBit0 b)
    obtain ⟨t, hnext, hframe, hok, hraw⟩ := writes_canonical hexec
      (canonical_one (Admitted.one_lt hc) ⟨emod_nonneg_pI hp _, emod_lt_pI hp _⟩ hpick)
    obtain ⟨hxval, hyval, hzval⟩ := int_of_pRaw hraw
    have hred : s.par.curve.red (s.fVal x) = (s.fNat x % s.modulus : Nat) := (Int.natCast_emod _ _).symm
    refine ⟨t, hnext, hframe, hok, Int.natCast_inj.1 (hxval.trans hred),
      BitVec.eq_of_toNat_eq (by exact_mod_cast hzval), ?_, ?_, fun hne => ?_⟩
    · rw [← hyval, pI_eq] at hpick
      exact_mod_cast hpick.2
    · rw [← hr, ← cast_pickRoot_sq r (s.fBit0 b), ← hyval, Int.cast_natCast]
    · have hpos : 0 < r := lt_of_le_of_ne h0 fun h => hne (by rw [← hr, ← h]; simp)
      have hpar := pickRoot_emod_two hc hpos hlt (s.fBit0 b)
      rw [← hyval, fBit0_eq] at hpar
      exact_mod_cast hpar

/-- DECOMP writes the point `(X, Y)`, where the bit is the parity of `Y` or `Y` is 0 (46_codec.md R248). -/
theorem exec_decomp_point {c : Curve} [Fact c.p.toNat.Prime] (hc : c.Admitted) {s : State} (hs : s.par.curve = c) {x b : FIdx}
    (hx : s.readableF x) (hb : s.readableF b) {X Y : ZMod c.p.toNat} (h : c.weier.Nonsingular X Y)
    (hX : (s.fNat x : ZMod c.p.toNat) = X) (hpar : Y ≠ 0 → Y.val % 2 = s.fNat b % 2) (d : PIdx) :
    ∃ t, exec (.decomp d x b) s = .next t ∧ c.Rep (t.pRaw d) (.some X Y h) := by
  subst hs
  have heq := (weier_equation X Y).1 h.1
  rw [cast_aI, cast_bI, ← hX] at heq
  obtain ⟨t, hexec, -, -, hx', hz', hlt, hsq, hbit⟩ :=
    (decompFindsThePointWithThisParity s d x b hc hx hb).1 ⟨Y, heq.symm.trans (pow_two Y)⟩
  rw [← heq] at hsq hbit
  have hy : (t.p[d].y.val.toNat : ZMod s.modulus) = Y :=
    eq_of_sq_eq_of_parity (admitted_odd hc) hsq fun hne => by
      rw [ZMod.val_natCast_of_lt hlt, hbit (pow_ne_zero 2 hne), hpar hne]
  have hz : (t.p[d].z.val.toNat : ZMod s.modulus) = 1 := by rw [hz']; exact Nat.cast_one
  refine ⟨t, hexec, (rep_some_iff _ X Y h).2 ?_⟩
  simp only [State.pRaw, Int.cast_natCast, hx', hy, hz, ZMod.natCast_mod, hX, one_pow, mul_one, and_self, and_true]
  exact one_ne_zero

/-- Settles O47: CBIT leaves the parity of `Y`, and the opposite bit is the parity of `-Y`, unless `Y` is 0. -/
theorem compressionRoundTrip : Obligations.CompressionRoundTrip := by
  unfold Obligations.CompressionRoundTrip
  intro s d a x b _ X Y h hc ha hx hxb ⟨hz, hxa, hya⟩ hX
  rw [cast_z] at hz hya
  rw [cast_y] at hya
  obtain ⟨t, hcbit, hframe, hok, hbit⟩ := (cbitIsTheParityOfTheAffineY s b a hc ha).1 Y.val hz (ZMod.val_lt Y)
    (by rw [ZMod.natCast_zmod_val, hya])
  have hxt : t.f[x] = s.f[x] := hframe.fOther x (by simpa using hxb)
  -- Every state with the parameters and the `F[x]` of `s` decompresses the same x.
  have hdecomp (u : State) (hpar : u.par = s.par) (hux : u.f[x] = s.f[x]) (hub : u.fOk b = true) {Y' : ZMod s.par.curve.p.toNat}
      (h' : s.par.curve.weier.Nonsingular X Y') :=
    exec_decomp_point hc (s := u) (x := x) (b := b) (by rw [hpar])
      (by rwa [State.readableF, State.fReads, hpar, hux]) (readableF_of_fOk hub) h' (by rw [State.fNat, hux]; exact hX)
  obtain ⟨u, hu, hrep⟩ := hdecomp t hframe.par hxt hok h (fun _ => by rw [hbit, Nat.mod_mod]) d
  refine ⟨t, u, hcbit, hu, hrep, fun t' hpar hx' hok' hbit' => ?_⟩
  refine hdecomp t' (hpar.trans hframe.par) (hx'.trans hxt) hok' ((WeierstrassCurve.Affine.nonsingular_neg X Y).2 h)
    (fun hne => ?_) d
  rw [weier_negY] at hne ⊢
  rw [val_neg_mod_two (admitted_odd hc) (neg_ne_zero.1 hne), hbit', hbit]
  omega

end Sys2Proof.Proofs.Codec
end

section
/-! SUPPORT. The control command NOP (47_control.md). -/

namespace Sys2Proof.Proofs.ControlCommands

open Sys2Proof.Machine Sys2Proof.Laws

/-- Settles O23: NOP goes straight to completion, whose frame is that of a command with no destination. -/
theorem nopOnlyCompletes : Obligations.NopOnlyCompletes := by
  unfold Obligations.NopOnlyCompletes
  intro s
  exact ⟨s.complete, exec_nop s, frame_complete s⟩

end Sys2Proof.Proofs.ControlCommands
end

section
/-! SUPPORT. The life cycle of a command (60_exceptions.md): accept, the engine's step, completion, polling, and the invariant of
the control state. -/

namespace Sys2Proof.Proofs.LifeCycle

open Sys2Proof.Machine Sys2Proof.Laws Sys2Proof.Claims Sys2Proof.Proofs.Commands Sys2Proof.Proofs.Control

variable {s t : State}

/-! ### The invariant of the control state -/

/-- With nothing in flight the invariant asks only for a pair of R273 in STATUS. -/
theorem inv_of_latch_none (hlatch : s.latch = none) (hlegal : legalStatus s.status.err s.status.errInfo = true) : s.Inv where
  legal := hlegal
  inFlight hb := by rw [State.busy, hlatch] at hb; cases hb
  latched l hl := by rw [hlatch] at hl; cases hl

/-- The invariant speaks of CMD, the latch, ERR and ERRINFO, and of DONE only where it must be 0. -/
theorem inv_of_same (h : s.Inv) (hlatch : t.latch = s.latch) (hcmd : t.cmd = s.cmd) (herr : t.status.err = s.status.err)
    (hinfo : t.status.errInfo = s.status.errInfo) (hdone : s.status.done = false → t.status.done = false) : t.Inv where
  legal := by rw [herr, hinfo]; exact h.legal
  inFlight hb := by
    rw [State.busy, hlatch] at hb
    obtain ⟨hd, he, hi⟩ := h.inFlight hb
    exact ⟨hdone hd, herr.trans he, hinfo.trans hi⟩
  latched l hl := hcmd.trans (h.latched l (hlatch.symm.trans hl))

/-- An accepted word stands in CMD and the latch, with DONE, ERR and ERRINFO 0 (R283). -/
theorem inv_latchCommand (s : State) (w : Word) : (s.latchCommand w).Inv where
  legal := rfl
  inFlight _ := ⟨rfl, rfl, rfl⟩
  latched l hl := by cases hl; rfl

/-- A command ends with the latch empty, and with the ERR and ERRINFO it began with or a pair of R273. -/
theorem inv_exec {i : Instr} (h : s.Inv) (he : exec i s = .next t) : t.Inv := by
  rcases exec_next_cases he with ⟨e, -, n, rfl⟩ | ⟨u, rfl, hu⟩
  · exact inv_of_latch_none rfl (legalStatus_error e)
  · refine inv_of_latch_none rfl ?_
    rw [complete_status, hu.status]
    exact h.legal

theorem inv_engineStep (h : s.Inv) (he : engineStep s = .next t) : t.Inv := by
  rcases engineStep_next he with ⟨-, rfl⟩ | ⟨l, -, ⟨i, -, hi⟩ | ⟨c, -, rfl⟩⟩
  · exact h
  · exact inv_exec h hi
  · exact inv_of_latch_none rfl (legalStatus_error (.illegalCommand c))

theorem inv_readSlot (h : s.Inv) (u : Slot) : (s.readSlot u).Inv := by
  obtain ⟨v, n, hr⟩ := readSlot_eq s u
  rw [hr]
  exact inv_of_same h rfl rfl rfl rfl id

theorem inv_writeCtrl (h : s.Inv) (v : Word) : (s.writeCtrl v).Inv := by
  rcases writeCtrl_cases s v with ⟨-, hc⟩ | ⟨-, hc⟩
  · rw [hc]
    exact inv_of_latch_none rfl rfl
  · rw [hc]
    exact inv_of_same h rfl rfl rfl rfl id

/-- Of the writes, only the accept and the soft reset touch CMD, the latch, ERR or ERRINFO, and an acknowledge sets no bit. -/
theorem inv_writeSlot (h : s.Inv) (u : Slot) (v : Word) : (s.writeSlot u v).Inv := by
  rcases writeSlot_cases s u v with ⟨-, hw⟩ | ⟨-, hw⟩ | ⟨-, -, hw⟩ | ⟨-, -, hw⟩ | ⟨-, -, f, p, c, hw⟩ | hw
  · rw [hw]
    exact inv_writeCtrl h v
  · rw [hw]
    exact inv_of_same h rfl rfl rfl rfl fun hd => by rw [acknowledge_status, hd, Bool.false_and]
  · rw [hw]
    exact inv_latchCommand s v
  · rw [hw]
    exact inv_of_same h rfl rfl rfl rfl id
  · rw [hw]
    exact inv_of_same h rfl rfl rfl rfl id
  · rw [hw]
    exact h

/-- Settles O12: the engine, the reads, the writes and the hard reset each keep the invariant, and taking an event does not
touch it. -/
theorem everyStepKeepsControlInvariant : Obligations.EveryStepKeepsControlInvariant := by
  unfold Obligations.EveryStepKeepsControlInvariant
  intro s t h hst
  have htaken : State.Inv { s with inbox := s.inbox.tail } := inv_of_same h rfl rfl rfl rfl id
  rcases step_next_cases hst with ⟨-, he⟩ | ⟨off, -, -, -, rfl⟩ | ⟨off, v, -, -, -, rfl⟩ | ⟨-, rfl⟩
  · exact inv_engineStep htaken he
  · exact inv_readSlot htaken _
  · exact inv_writeSlot htaken _ v
  · exact inv_of_latch_none rfl rfl

/-! ### How a command ends -/

/-- Settles O16: with readable sources a command does not fault, no command is refused, and both ends empty the latch and set
DONE. -/
theorem everyCommandCompletes : Obligations.EveryCommandCompletes := by
  unfold Obligations.EveryCommandCompletes
  intro i s hr
  cases h : exec i s with
  | next t =>
    refine ⟨t, rfl, ?_⟩
    rcases exec_next_cases h with ⟨e, -, n, rfl⟩ | ⟨u, rfl, -⟩
    · exact ⟨rfl, rfl⟩
    · exact ⟨rfl, rfl⟩
  | fault r =>
    cases r
    exact absurd hr ((exec_fault_iff i s).1 h)
  | refused r => exact absurd h (exec_ne_refused i s r)

/-- No error has the code 0 (R271). -/
theorem code_ne_zero (e : CmdError) : e.code ≠ 0#4 := by
  cases e <;> (rw [CmdError.code]; decide)

/-- A command that completes with its writes leaves ERR and ERRINFO as the accept left them. -/
theorem err_zero_of_wrote {i : Instr} {u : State} (hu : Wrote i s u) (herr : s.status.err = 0#4) (hinfo : s.status.errInfo = 0#4) :
    u.complete.status.err = 0#4 ∧ u.complete.status.errInfo = 0#4 := by
  rw [complete_status, hu.status]
  exact ⟨herr, hinfo⟩

/-- Settles O18: an error is raised on the state the command began in, but for the draw counter. -/
theorem errorWritesNothingElse : Obligations.ErrorWritesNothingElse := by
  unfold Obligations.ErrorWritesNothingElse
  intro i s t herr hinfo h
  rcases exec_next_cases h with ⟨e, -, n, rfl⟩ | ⟨u, rfl, hu⟩
  · exact .inr ⟨code_ne_zero e, rfl⟩
  · exact .inl (err_zero_of_wrote hu herr hinfo)

/-- Settles O19: the error is one of `errorsOf` the command, whose codes and details are the pairs of the statement. -/
theorem eachCommandReportsOnlyItsErrors : Obligations.EachCommandReportsOnlyItsErrors := by
  unfold Obligations.EachCommandReportsOnlyItsErrors
  intro i s t herr hinfo h
  rcases exec_next_cases h with ⟨e, he, n, rfl⟩ | ⟨u, rfl, hu⟩
  · right
    cases i with
    | finv | fsqrt | decomp | pval | toaff | cbit =>
      obtain rfl := List.mem_singleton.1 he
      rfl
    | smul d k a =>
      rw [errorsOf] at he
      split at he
      · next hv =>
        rcases List.mem_pair.1 he with rfl | rfl
        · exact .inl rfl
        · exact .inr ⟨hv, rfl⟩
      · obtain rfl := List.mem_singleton.1 he
        exact .inl rfl
    | vsmul d k a =>
      rcases List.mem_pair.1 he with rfl | rfl
      · exact .inl rfl
      · exact .inr rfl
    | _ => exact List.not_mem_nil he
  · obtain ⟨he, hi⟩ := err_zero_of_wrote hu herr hinfo
    exact .inl (by rw [he, hi])

/-! ### The engine's step -/

theorem engineStep_of_decode_ok {l : Latch} {i : Instr} (hl : s.latch = some l) (hd : decode l.word = .ok i) :
    engineStep s = exec i s := by
  simp only [engineStep, hl, runWord, hd]

/-- An illegal word completes with IllegalCommand (R276). -/
theorem engineStep_of_decode_error {l : Latch} {c : IllegalClass} (hl : s.latch = some l) (hd : decode l.word = .error c) :
    engineStep s = .next (s.raise (.illegalCommand c)) := by
  simp only [engineStep, hl, runWord, hd, fail]

theorem engineStep_of_idle (hb : s.busy = false) : engineStep s = .next s := by
  unfold engineStep
  split
  · next l hl =>
    rw [State.busy, hl] at hb
    cases hb
  · rfl

/-- Settles O7: the engine's step, with the latched word decoded. -/
theorem stepRunsTheDecodedCommand : Obligations.StepRunsTheDecodedCommand := by
  unfold Obligations.StepRunsTheDecodedCommand
  intro s l i ha hl hd hi
  rw [step_engine ha hi]
  exact engineStep_of_decode_ok hl hd

/-- Settles O8: the engine's step with the latch empty. -/
theorem idleBlockStaysAsItIs : Obligations.IdleBlockStaysAsItIs := by
  unfold Obligations.IdleBlockStaysAsItIs
  intro s ha hb hi
  rw [step_engine ha hi]
  exact engineStep_of_idle hb

/-- Settles O10: the engine's step raises IllegalCommand, whose detail is the class of the word. -/
theorem illegalWordCompletesWithIllegalCommand : Obligations.IllegalWordCompletesWithIllegalCommand := by
  unfold Obligations.IllegalWordCompletesWithIllegalCommand
  intro s l c ha hl hd hi
  rw [step_engine ha hi]
  refine (engineStep_of_decode_error (s := { s with inbox := s.inbox.tail }) hl hd).trans ?_
  cases c <;> rfl

/-! ### Accept -/

/-- A step that takes a host write of an aligned word of the window. -/
theorem step_write {off : Nat} {v : Word} {rest : List Event} (ha : s.par.Admitted)
    (hi : s.inbox = .write (s.par.base + off) 4 v :: rest) (h : off < 0x800) (h4 : off % 4 = 0) :
    step s = .next (State.writeSlot { s with inbox := rest } (slotAt off) v) := by
  rw [step_of_admitted ha, takeEvent, hi]
  exact hostWrite_window h h4 v

/-- A write to CMD of an idle block is the accept (R283). -/
theorem step_write_cmd_of_idle {w : Word} {rest : List Event} (ha : s.par.Admitted)
    (hi : s.inbox = .write (s.par.base + 0x008) 4 w :: rest) (hb : s.busy = false) :
    step s = .next (State.latchCommand { s with inbox := rest } w) := by
  rw [step_write ha hi (by decide) (by decide), slotAt_cmd]
  exact congrArg _ (if_neg (ne_true_of_eq_false hb))

/-- Settles O11: the write is dropped while busy and accepted while idle, and an accepted word occupies the latch. -/
theorem cmdWriteAcceptsOrIsDropped : Obligations.CmdWriteAcceptsOrIsDropped := by
  unfold Obligations.CmdWriteAcceptsOrIsDropped
  intro s w rest ha hi
  refine ⟨fun hb => ?_, fun hb => ⟨_, step_write_cmd_of_idle ha hi hb, rfl, ?_⟩⟩
  · rw [step_write ha hi (by decide) (by decide), slotAt_cmd]
    exact congrArg _ (if_pos hb)
  · rw [statusWord_getLsbD]
    rfl

/-- Settles O9: the first step is the accept, and the second the engine's step on the word of the command, which decodes to it. -/
theorem commandWrittenToCmdRuns : Obligations.CommandWrittenToCmdRuns := by
  unfold Obligations.CommandWrittenToCmdRuns
  intro s i rest ha hb hwf hi
  have hd : decode (encode i) = .ok i := by rw [Encoding.decode_encode, if_pos hwf]
  rw [run_succ_of_next (step_write_cmd_of_idle ha hi hb), run_one]
  exact stepRunsTheDecodedCommand (State.latchCommand { s with inbox := .engine :: rest } (encode i)) _ i ha rfl hd
    (.inr ⟨rest, rfl⟩)

/-! ### Polling -/

/-- A step that takes a poll of STATUS. -/
theorem step_poll {rest : List Event} (ha : s.par.Admitted) (hi : s.inbox = .read (s.par.base + 0x00C) 4 :: rest) :
    step s = .next { s with inbox := rest, replies := s.statusWord :: s.replies } := by
  rw [step_of_admitted ha, takeEvent, hi]
  exact (hostRead_window (s := { s with inbox := rest }) (by decide) (by decide)).trans (congrArg _ (readSlot_of_look rfl))

/-- The block after `n` polls of STATUS, with the events `rest` then to come: the polls change nothing of it, so each is answered
the same word. -/
def afterPolls (n : Nat) (rest : List Event) (s : State) : State :=
  { s with inbox := rest, replies := List.replicate n s.statusWord ++ s.replies }

theorem afterPolls_succ (n : Nat) (rest rest' : List Event) (s : State) :
    afterPolls n rest { s with inbox := rest', replies := s.statusWord :: s.replies } = afterPolls (n + 1) rest s := by
  have hreplies : List.replicate n s.statusWord ++ s.statusWord :: s.replies
      = List.replicate (n + 1) s.statusWord ++ s.replies := by
    rw [List.replicate_succ', List.append_assoc, List.singleton_append]
  exact congrArg (fun r => ({ s with inbox := rest, replies := r } : State)) hreplies

/-- `n` polls at the head of the inbox take `n` steps. -/
theorem run_polls (n k : Nat) {rest : List Event} (ha : s.par.Admitted)
    (hi : s.inbox = List.replicate n (.read (s.par.base + 0x00C) 4) ++ rest) :
    Host.Core.run core (n + k) s = (Host.Core.run core k (afterPolls n rest s) : Out) := by
  induction n generalizing s with
  | zero =>
    rw [List.replicate_zero, List.nil_append] at hi
    rw [Nat.zero_add, ← hi]
    rfl
  | succ n ih =>
    rw [Nat.succ_add, run_succ_of_next (step_poll ha hi), ← afterPolls_succ]
    exact ih ha rfl

/-- The engine completes the command in flight: a legal word with readable sources, or any illegal word (R276, R278, R284). -/
theorem engineStep_completes (hb : s.busy = true)
    (hr : ∀ l i, s.latch = some l → decode l.word = .ok i → sourcesReadable s i) :
    ∃ t, engineStep s = .next t ∧ t.latch = none ∧ t.status.done = true ∧ t.par = s.par ∧ t.inbox = s.inbox
      ∧ t.replies = s.replies := by
  obtain ⟨l, hl⟩ := Option.isSome_iff_exists.1 hb
  cases hd : decode l.word with
  | ok i =>
    obtain ⟨t, ht, hlatch, hdone⟩ := everyCommandCompletes i s (hr l i hl hd)
    have hf := exec_framed ht
    exact ⟨t, (engineStep_of_decode_ok hl hd).trans ht, hlatch, hdone, hf.par, hf.inbox, hf.replies⟩
  | error c => exact ⟨_, engineStep_of_decode_error hl hd, rfl, rfl, rfl, rfl, rfl⟩

/-- Settles O15: the polls leave the block as it is, and the engine's step after them completes the command. -/
theorem pollingSeesTheCompletion : Obligations.PollingSeesTheCompletion := by
  unfold Obligations.PollingSeesTheCompletion
  intro s n ha hb hr
  refine ⟨fun hi => ?_, fun hi => ?_⟩
  · obtain ⟨t, ht, hlatch, hdone, -⟩ := engineStep_completes (s := afterPolls n [] s) hb hr
    refine ⟨t, ?_, by rw [State.busy, hlatch]; rfl, hdone⟩
    rw [run_polls n 1 ha (hi.trans (List.append_nil _).symm), run_one]
    exact (step_engine (s := afterPolls n [] s) ha (.inl rfl)).trans ht
  · obtain ⟨t, ht, hlatch, hdone, hpar, hinbox, hreplies⟩ :=
      engineStep_completes (s := afterPolls n [.read (s.par.base + 0x00C) 4] s) hb hr
    have hengine : step (afterPolls n [.engine, .read (s.par.base + 0x00C) 4] s) = .next t :=
      (step_engine (s := afterPolls n [.engine, .read (s.par.base + 0x00C) 4] s) ha (.inr ⟨_, rfl⟩)).trans ht
    refine ⟨{ t with inbox := [], replies := t.statusWord :: t.replies }, t.statusWord, ?_, ?_, ?_, ?_, ?_⟩
    · rw [run_polls n 2 ha hi, run_succ_of_next hengine, run_one]
      exact step_poll (by rw [hpar]; exact ha) (by rw [hinbox, hpar]; rfl)
    · rw [statusWord_getLsbD]
      exact hb
    · exact congrArg _ hreplies
    · rw [statusWord_getLsbD, State.busy, hlatch]
      rfl
    · rw [statusWord_getLsbD]
      exact hdone

end Sys2Proof.Proofs.LifeCycle
end

section
/-! SUPPORT. What the two resets leave (70_reset_and_hazards.md R310, R313, R314; 10_state.md R65). -/

namespace Sys2Proof.Proofs.Resets

open Sys2Proof.Machine Sys2Proof.Laws

variable {s : State}

/-- CTRL after either reset (10_state.md R65). -/
theorem ctrlWord_of_reset {b : Bool} (h : s.ctrl = ⟨false, b⟩) : s.ctrlWord = if b then 2#32 else 0#32 := by
  rw [State.ctrlWord, h]
  cases b <;> rfl

/-- STATUS after either reset (10_state.md R65). -/
theorem statusWord_of_reset (hl : s.latch = none) (h : s.status = ⟨false, false, false, 0#4, 0#4⟩) : s.statusWord = 0#32 := by
  rw [State.statusWord, State.busy, hl, h]
  rfl

/-- A CTRL write with bit 31 is a soft reset (R313). -/
theorem hostWrite_ctrl_softReset {v : Word} (hv : v.getLsbD 31 = true) :
    hostWrite (s.par.base + 0x004) 4 v s = .next s.softReset :=
  (hostWrite_window (by decide) (by decide) v).trans (congrArg _ (if_pos hv))

/-- A destination of an aborted command may be read under neither rule of log 4 (R314). -/
theorem not_readableF_of_atAbort {j : FIdx} {v : Word256} (h : s.f[j] = Reg.atAbort v) : ¬ s.readableF j := by
  rw [State.readableF, State.fReads, h, atAbort_reads]
  exact Bool.false_ne_true

theorem not_readableP_of_atAbort {j : PIdx} {x y z : Word256} (h : s.p[j] = ⟨Reg.atAbort x, Reg.atAbort y, Reg.atAbort z⟩) :
    ¬ s.readableP j := by
  rw [State.readableP, State.pReads, h, PReg.reads, atAbort_reads, Bool.false_and, Bool.false_and]
  exact Bool.false_ne_true

/-- Settles O58: the abort changes exactly the destinations of a legal command in flight, and the rest of the reset no register. -/
theorem softResetKeepsRegistersAndAborts : Obligations.SoftResetKeepsRegistersAndAborts := by
  unfold Obligations.SoftResetKeepsRegistersAndAborts
  intro s v hv
  have ha := abort_frame s
  refine ⟨s.softReset, hostWrite_ctrl_softReset hv, ctrlWord_of_reset rfl, statusWord_of_reset rfl rfl, rfl, rfl, ha.par, ha.sc,
    ha.inbox, ha.replies, fun j => ?_, fun j => ?_⟩
  · by_cases hj : Dest.f j ∈ inFlightDests s
    · obtain ⟨l, i, hl, hd, hm⟩ := mem_inFlightDests.1 hj
      obtain ⟨c, hc⟩ : ∃ c, s.softReset.f[j] = Reg.atAbort c := ha.fDest j hj
      exact .inl ⟨l, i, hl, hd, hm, by rw [hc]; rfl, not_readableF_of_atAbort hc⟩
    · exact .inr ⟨fun l i hl hd hm => hj (mem_inFlightDests.2 ⟨l, i, hl, hd, hm⟩), ha.fOther j hj⟩
  · by_cases hj : Dest.p j ∈ inFlightDests s
    · obtain ⟨l, i, hl, hd, hm⟩ := mem_inFlightDests.1 hj
      obtain ⟨x, y, z, hc⟩ : ∃ x y z, s.softReset.p[j] = ⟨Reg.atAbort x, Reg.atAbort y, Reg.atAbort z⟩ := ha.pDest j hj
      exact .inl ⟨l, i, hl, hd, hm, by rw [hc]; rfl, by rw [hc]; rfl, by rw [hc]; rfl, not_readableP_of_atAbort hc⟩
    · exact .inr ⟨fun l i hl hd hm => hj (mem_inFlightDests.2 ⟨l, i, hl, hd, hm⟩), ha.pOther j hj⟩

theorem step_hardReset {rest : List Event} (ha : s.par.Admitted) (hi : s.inbox = .hardReset :: rest) :
    step s = .next (State.hardReset { s with inbox := rest }) := by
  rw [step_of_admitted ha, takeEvent, hi]
  rfl

theorem hardReset_f_get (s : State) (j : FIdx) : s.hardReset.f[j] = Reg.unwritten 256 8 := by
  rw [hardReset_f, Fin.getElem_fin, Vector.getElem_replicate]

theorem hardReset_p_get (s : State) (j : PIdx) : s.hardReset.p[j] = PReg.unwritten := by
  rw [hardReset_p, Fin.getElem_fin, Vector.getElem_replicate]

theorem hardReset_sc_get (s : State) (j : SIdx) : s.hardReset.sc[j] = Reg.unwritten 512 16 := by
  rw [hardReset_sc, Fin.getElem_fin, Vector.getElem_replicate]

/-- Settles O59: every register is unwritten, and the rest of the state is that of the block at power-on. -/
theorem hardResetValues : Obligations.HardResetValues := by
  unfold Obligations.HardResetValues
  intro s rest ha hi
  refine ⟨_, step_hardReset ha hi, fun j => ?_, fun j => ?_, fun j => ?_, ctrlWord_of_reset rfl, statusWord_of_reset rfl rfl, rfl,
    rfl, rfl, rfl, rfl, rfl, fun _ _ => rfl⟩
  · rw [hardReset_f_get]
    rfl
  · rw [hardReset_p_get]
    exact ⟨rfl, rfl, rfl⟩
  · rw [hardReset_sc_get]
    rfl

end Sys2Proof.Proofs.Resets
end
